-- ==== Sys2Proof/Word.lean ====
section
/-! DEFINITION. The words of ODS-WTO: a register word (spec/20_memory.md R53), a binary64 word
(spec/00_scope.md R12), the three operation formats (spec/30_encoding.md R81, R83, R85) and a
register address (R51). -/

namespace Sys2Proof

/-- One 32-bit word: a register, a table entry, an output sample, or a binary32 bit pattern
(20_memory.md R53, 00_scope.md R12). -/
abbrev Word := BitVec 32

/-- One 64-bit word: a binary64 bit pattern (00_scope.md R12). -/
abbrev DWord := BitVec 64

/-- The word address of a register, 0..63 (20_memory.md R51). -/
abbrev RegAddr := BitVec 6

/-- A word of format `CTL_BUS`: WE in bit 38, A in bits 37..32, D in bits 31..0
(30_encoding.md R81). -/
abbrev BusWord := BitVec 39

/-- A word of format `BLK_REQ`: an unsigned frame count (30_encoding.md R83). -/
abbrev BlkWord := BitVec 16

/-- EPOCH_BITS (00_scope.md R8): the width of the start epoch. Its legal range is the one value
31, so the widths of the epoch registers carry it. -/
abbrev epochBits : Nat := 31

/-- The start epoch (10_state.md R24, R35). -/
abbrev Epoch := BitVec epochBits

end Sys2Proof
end

