-- ==== Sys2Proof/Syntax.lean ====
section
/-! DEFINITION. The operations of ODS-WTO, one constructor per row of spec/opcode_table.json in
the table's order (spec/30_encoding.md R105). The internal agent steps (RENDER, CONSUME, COPY_f,
ACK_f, COPY_blk, COPY_silent, reset) have no encoding (spec/00_scope.md R2) and are no
constructors here: they are the other events of Machine/State.lean. -/

namespace Sys2Proof

/-- The encoded operations. A bus read has no operand: D carries no meaning (30_encoding.md R81).
`rdReserved` and `wrIgnored` keep the address that selected them. -/
inductive Instr where
  | rdId
  | rdCmd
  | rdSensorPause
  | rdStatus
  | rdTargetFreq
  | rdTargetAmp
  | rdVolume
  | rdMasterGain
  | rdMagnitude
  | rdCntRender
  | rdCntSensor
  | rdConfig
  | rdSampleRate
  | rdReserved (a : RegAddr)
  | wrCmd (d : Word)
  | wrSensorPause (d : Word)
  | wrTargetFreq (d : Word)
  | wrTargetAmp (d : Word)
  | wrVolume (d : Word)
  | wrIgnored (a : RegAddr) (d : Word)
  | blk (f : BlkWord)
  | sens (r : Word)
  deriving DecidableEq, Repr

end Sys2Proof
end

