-- ==== Sys2Proof/WellFormed.lean ====
section
/-! DEFINITION. Which terms of `Instr` stand for an operation of spec/30_encoding.md R105: the
address operands of RD_RESERVED and WR_IGNORED must be addresses that select them. -/

namespace Sys2Proof

/-- A word address with no register: 0x0D to 0x3F (30_encoding.md R103). -/
def RegAddr.isReserved (a : RegAddr) : Bool := 0x0D ≤ a.toNat

/-- A word address a write to which is not ignored: CMD, SENSOR_PAUSE, TARGET_FREQ, TARGET_AMP
and VOLUME (41_param_channel.md R163). -/
def RegAddr.isWritable (a : RegAddr) : Bool :=
  a == 0x01 || a == 0x02 || a == 0x04 || a == 0x05 || a == 0x06

/-- The operation is one the formats can express (30_encoding.md R105). Every data operand of
every write, every frame count and every sample is admitted. -/
def Instr.wellFormed : Instr → Bool
  | .rdId | .rdCmd | .rdSensorPause | .rdStatus | .rdTargetFreq | .rdTargetAmp | .rdVolume
  | .rdMasterGain | .rdMagnitude | .rdCntRender | .rdCntSensor | .rdConfig | .rdSampleRate => true
  | .rdReserved a => RegAddr.isReserved a
  | .wrCmd _ | .wrSensorPause _ | .wrTargetFreq _ | .wrTargetAmp _ | .wrVolume _ => true
  | .wrIgnored a _ => !RegAddr.isWritable a
  | .blk _ => true
  | .sens _ => true

end Sys2Proof
end

