-- ==== Sys2Proof/Decode.lean ====
section
/-! DEFINITION. The decoder of spec/30_encoding.md R105, total on the words of every port, the
encoder beside it (R81, R83, R85), and the reading of a table word as the host numbers it. The
port on which a word arrives decides its format (R107). -/

namespace Sys2Proof

/-- A word presented on one of the three ports (30_encoding.md R81, R83, R85). -/
inductive PortWord where
  | ctlBus (w : BusWord)
  | blkReq (w : BlkWord)
  | sensor (w : Word)
  deriving DecidableEq, Repr

/-- Field WE of a bus word, bit 38 (30_encoding.md R81). -/
def BusWord.we (w : BusWord) : Bool := w.getLsbD 38

/-- Field A of a bus word, bits 37..32 (30_encoding.md R81). -/
def BusWord.addr (w : BusWord) : RegAddr := w.extractLsb' 32 6

/-- Field D of a bus word, bits 31..0 (30_encoding.md R81). -/
def BusWord.data (w : BusWord) : Word := w.extractLsb' 0 32

/-- A bus word from its fields (30_encoding.md R81). -/
def busWord (we : Bool) (a : RegAddr) (d : Word) : BusWord :=
  ((BitVec.ofBool we ++ a) ++ d)

/-- The read operation address A selects (30_encoding.md R105, WE = 0). -/
def decodeRead (a : RegAddr) : Instr :=
  match a.toNat with
  | 0x00 => .rdId
  | 0x01 => .rdCmd
  | 0x02 => .rdSensorPause
  | 0x03 => .rdStatus
  | 0x04 => .rdTargetFreq
  | 0x05 => .rdTargetAmp
  | 0x06 => .rdVolume
  | 0x07 => .rdMasterGain
  | 0x08 => .rdMagnitude
  | 0x09 => .rdCntRender
  | 0x0A => .rdCntSensor
  | 0x0B => .rdConfig
  | 0x0C => .rdSampleRate
  | _ => .rdReserved a

/-- The write operation address A selects (30_encoding.md R105, WE = 1). -/
def decodeWrite (a : RegAddr) (d : Word) : Instr :=
  match a.toNat with
  | 0x01 => .wrCmd d
  | 0x02 => .wrSensorPause d
  | 0x04 => .wrTargetFreq d
  | 0x05 => .wrTargetAmp d
  | 0x06 => .wrVolume d
  | _ => .wrIgnored a d

/-- The operation of a bus word; D is masked out of a read (30_encoding.md R81, R105). -/
def decodeBus (w : BusWord) : Instr :=
  if BusWord.we w then decodeWrite (BusWord.addr w) (BusWord.data w)
  else decodeRead (BusWord.addr w)

/-- The operation of a word on a port. Every word of every port decodes (30_encoding.md R105,
R106). -/
def decode : PortWord → Instr
  | .ctlBus w => decodeBus w
  | .blkReq w => .blk w
  | .sensor w => .sens w

/-- The port word of an operation, D written as zero for a read (30_encoding.md R81). -/
def encode : Instr → PortWord
  | .rdId => .ctlBus (busWord false 0x00 0)
  | .rdCmd => .ctlBus (busWord false 0x01 0)
  | .rdSensorPause => .ctlBus (busWord false 0x02 0)
  | .rdStatus => .ctlBus (busWord false 0x03 0)
  | .rdTargetFreq => .ctlBus (busWord false 0x04 0)
  | .rdTargetAmp => .ctlBus (busWord false 0x05 0)
  | .rdVolume => .ctlBus (busWord false 0x06 0)
  | .rdMasterGain => .ctlBus (busWord false 0x07 0)
  | .rdMagnitude => .ctlBus (busWord false 0x08 0)
  | .rdCntRender => .ctlBus (busWord false 0x09 0)
  | .rdCntSensor => .ctlBus (busWord false 0x0A 0)
  | .rdConfig => .ctlBus (busWord false 0x0B 0)
  | .rdSampleRate => .ctlBus (busWord false 0x0C 0)
  | .rdReserved a => .ctlBus (busWord false a 0)
  | .wrCmd d => .ctlBus (busWord true 0x01 d)
  | .wrSensorPause d => .ctlBus (busWord true 0x02 d)
  | .wrTargetFreq d => .ctlBus (busWord true 0x04 d)
  | .wrTargetAmp d => .ctlBus (busWord true 0x05 d)
  | .wrVolume d => .ctlBus (busWord true 0x06 d)
  | .wrIgnored a d => .ctlBus (busWord true a d)
  | .blk f => .blkReq f
  | .sens r => .sensor r

/-! ### A word as the opcode table numbers it -/

/-- Why a number given with a bit count is no word of a port. -/
inductive DecodeError where
  /-- No format has this many bits in whole bytes (30_encoding.md R107: 39, 16 and 32 bits, held
  in 40, 16 and 32). -/
  | noSuchFormat
  /-- The number has a bit above the format's last one, which no wire carries. -/
  | bitAboveFormat
  deriving DecidableEq, Repr

/-- The port word a bit count and a number stand for. The formats have different lengths, so the
length names the port (30_encoding.md R107): 39 bits (40 in whole bytes) is `CTL_BUS`, 16 is
`BLK_REQ`, 32 is `SENS`. -/
def portWordOf (nbits w : Nat) : Except DecodeError PortWord :=
  if nbits = 39 ∨ nbits = 40 then
    if w < 2 ^ 39 then .ok (.ctlBus (BitVec.ofNat 39 w)) else .error .bitAboveFormat
  else if nbits = 16 then
    if w < 2 ^ 16 then .ok (.blkReq (BitVec.ofNat 16 w)) else .error .bitAboveFormat
  else if nbits = 32 then
    if w < 2 ^ 32 then .ok (.sensor (BitVec.ofNat 32 w)) else .error .bitAboveFormat
  else .error .noSuchFormat

/-- The bit count, in whole bytes, of a port word as the opcode table's rows are counted. -/
def PortWord.nbits : PortWord → Nat
  | .ctlBus _ => 40
  | .blkReq _ => 16
  | .sensor _ => 32

/-- A port word as one number, bit 0 its least significant bit (00_scope.md R11). -/
def PortWord.number : PortWord → Nat
  | .ctlBus w => w.toNat
  | .blkReq w => w.toNat
  | .sensor w => w.toNat

/-- The operation the decoder reads from the bits of a table word; none where `portWordOf`
refuses. -/
def decodeTableWord (nbits w : Nat) : Option Instr :=
  match portWordOf nbits w with
  | .ok p => some (decode p)
  | .error _ => none

/-! ### The opcode table of spec/opcode_table.json, bus rows -/

/-- One `CTL_BUS` row of opcode_table.json: a word matches when its masked bits equal `bits`. -/
structure BusRow where
  bits : BusWord
  mask : BusWord
  deriving DecidableEq, Repr

/-- Whether a word matches a row of the table. -/
def BusRow.hits (r : BusRow) (w : BusWord) : Bool := w &&& r.mask == r.bits

/-- The twenty `CTL_BUS` rows in the table's order; the first that matches selects the operation
(30_encoding.md R105). -/
def busRows : List BusRow :=
  [ ⟨0x0000000000, 0x7F00000000⟩, ⟨0x0100000000, 0x7F00000000⟩, ⟨0x0200000000, 0x7F00000000⟩,
    ⟨0x0300000000, 0x7F00000000⟩, ⟨0x0400000000, 0x7F00000000⟩, ⟨0x0500000000, 0x7F00000000⟩,
    ⟨0x0600000000, 0x7F00000000⟩, ⟨0x0700000000, 0x7F00000000⟩, ⟨0x0800000000, 0x7F00000000⟩,
    ⟨0x0900000000, 0x7F00000000⟩, ⟨0x0A00000000, 0x7F00000000⟩, ⟨0x0B00000000, 0x7F00000000⟩,
    ⟨0x0C00000000, 0x7F00000000⟩, ⟨0x0000000000, 0x4000000000⟩, ⟨0x4100000000, 0x7F00000000⟩,
    ⟨0x4200000000, 0x7F00000000⟩, ⟨0x4400000000, 0x7F00000000⟩, ⟨0x4500000000, 0x7F00000000⟩,
    ⟨0x4600000000, 0x7F00000000⟩, ⟨0x4000000000, 0x4000000000⟩ ]

/-- The position of an operation's row in opcode_table.json. -/
def Instr.row : Instr → Nat
  | .rdId => 0
  | .rdCmd => 1
  | .rdSensorPause => 2
  | .rdStatus => 3
  | .rdTargetFreq => 4
  | .rdTargetAmp => 5
  | .rdVolume => 6
  | .rdMasterGain => 7
  | .rdMagnitude => 8
  | .rdCntRender => 9
  | .rdCntSensor => 10
  | .rdConfig => 11
  | .rdSampleRate => 12
  | .rdReserved _ => 13
  | .wrCmd _ => 14
  | .wrSensorPause _ => 15
  | .wrTargetFreq _ => 16
  | .wrTargetAmp _ => 17
  | .wrVolume _ => 18
  | .wrIgnored _ _ => 19
  | .blk _ => 20
  | .sens _ => 21

/-- Whether the operation is a bus read, WE = 0 (30_encoding.md R81). -/
def Instr.isBusRead : Instr → Bool
  | .rdId | .rdCmd | .rdSensorPause | .rdStatus | .rdTargetFreq | .rdTargetAmp | .rdVolume
  | .rdMasterGain | .rdMagnitude | .rdCntRender | .rdCntSensor | .rdConfig | .rdSampleRate
  | .rdReserved _ => true
  | .wrCmd _ | .wrSensorPause _ | .wrTargetFreq _ | .wrTargetAmp _ | .wrVolume _
  | .wrIgnored _ _ => false
  | .blk _ => false
  | .sens _ => false

end Sys2Proof
end

