-- ==== Sys2Proof/Config.lean ====
section
/-! DEFINITION. The configuration of ODS-WTO: the parameters of spec/00_scope.md R8 with the
defaults R8 fixes, and the two configurations of spec/95_test_vectors.md section 0. The
functions that evaluate a configuration (legality, the table read, the increment constant K)
stand in Machine/Wave.lean. -/

namespace Sys2Proof

/-- The wavetable contents `WT` (00_scope.md R8): the correctly rounded sine of R10, or a table
given entry by entry. -/
inductive WaveTable where
  | sine
  | entries (ws : List Word)
  deriving DecidableEq, Repr

/-- The parameters of 00_scope.md R8. `N` and `K` are derived (Machine/Wave.lean); MAX_FRAMES
and EPOCH_BITS have one legal value each and are carried by the widths of `BlkWord` and `Epoch`. -/
structure Config where
  /-- `TABLE_LOG2`, legal 1..16. -/
  tableLog2 : Nat
  /-- `FS`, the sample rate in Hz, legal 1..16777215. -/
  fs : Nat
  /-- `WT`. -/
  wt : WaveTable
  /-- `EPS`, the silence threshold, binary32. -/
  eps : Word
  /-- `GAIN_SAFETY`, the volume attenuation factor, binary32. -/
  gainSafety : Word
  /-- `MAP_BASE`, the mapper offset in Hz, binary32. -/
  mapBase : Word
  /-- `MAP_SCALE`, the mapper slope in Hz, binary32. -/
  mapScale : Word
  /-- `CUTOFF`, the stillness cutoff, binary32. -/
  cutoff : Word
  /-- `T`, the debounce threshold in samples, legal 1..65535. -/
  t : Nat
  /-- `ALPHA_PREV`, the smoothing weight of the previous value, binary32. -/
  alphaPrev : Word
  /-- `ALPHA_RAW`, the smoothing weight of the raw value, binary32. -/
  alphaRaw : Word
  deriving DecidableEq, Repr

/-- The reference configuration: the default column of 00_scope.md R8 (`CFG-D` of
95_test_vectors.md). -/
def Config.default : Config where
  tableLog2 := 12
  fs := 48000
  wt := .sine
  eps := 0x3A83126F
  gainSafety := 0x3ECCCCCD
  mapBase := 0x42C80000
  mapScale := 0x43480000
  cutoff := 0x3DCCCCCD
  t := 50
  alphaPrev := 0x3F4CCCCD
  alphaRaw := 0x3E4CCCCD

/-- `CFG-8` of 95_test_vectors.md section 0: eight table entries and K = 0.125. -/
def Config.cfg8 : Config :=
  { Config.default with
    tableLog2 := 3
    fs := 64
    wt := .entries [0x00000000, 0x3F000000, 0x3F800000, 0x3F000000,
                    0x00000000, 0xBF000000, 0xBF800000, 0xBF000000] }

end Sys2Proof
end

