-- ==== Sys2Proof/Machine/State.lean ====
section
/-! DEFINITION. The state of ODS-WTO as plain data: every element of spec/10_state.md with the
spec's names, the outputs the machine drives, and the model's two own fields (the configuration
and the schedule). Reset values: spec/10_state.md R43. -/

namespace Sys2Proof.Machine

/-- ODS-WTO has no fault: every operation and every internal step is total (60_exceptions.md
R200). No constructor, so no step of this model can stop with one. Safe. -/
inductive Fault : Type
  deriving DecidableEq, Repr

/-- Why a step has no meaning. -/
inductive Refusal where
  /-- Raised by an arm of `exec` for an operation that has no meaning yet. No arm raises it. Safe:
  the model stops where the hardware goes on. -/
  | notModelled (mnemonic : String)
  /-- Raised by `step` when the configuration is illegal: "A model refuses an illegal
  configuration" (00_scope.md R10). Safe: the hardware for one is not specified. -/
  | illegalConfiguration
  deriving DecidableEq, Repr

/-- The four handed-off fields (20_memory.md R62, R64). -/
inductive Field where
  | tfreq
  | tamp
  | gain
  | runstate
  deriving DecidableEq, Repr

/-- The two handoff flags of one field (10_state.md R32): `pend`, a write not yet acknowledged as
copied; `cp`, copied since the last write. -/
structure Sync where
  pend : Bool
  cp : Bool
  deriving DecidableEq, Repr

/-- The state of the control domain `clk_ctl` (10_state.md R21 to R32). -/
structure Ctl where
  /-- `ctl.tfreq`, binary32 in Hz (R21). -/
  tfreq : Word
  /-- `ctl.tamp`, binary32 (R22). -/
  tamp : Word
  /-- `ctl.gain`, binary32 (R23). -/
  gain : Word
  /-- `ctl.run` (R24). -/
  run : Bool
  /-- `ctl.epoch` (R24). -/
  epoch : Epoch
  /-- `ctl.pause` (R25). -/
  pause : Bool
  /-- `ctl.smoothed`, binary32 (R26). -/
  smoothed : Word
  /-- `ctl.still_count` (R27). -/
  stillCount : BitVec 16
  /-- `ctl.sens_count` (R28). -/
  sensCount : BitVec 32
  /-- `ctl.blk_seen` (R29). -/
  blkSeen : BitVec 32
  /-- `ctl.blk_base` (R29). -/
  blkBase : BitVec 32
  /-- `ctl.cnt_render` (R30). -/
  cntRender : Word
  /-- `ctl.cnt_sensor` (R30). -/
  cntSensor : Word
  /-- `ctl.silent_seen` (R31). -/
  silentSeen : Bool
  /-- `ctl.pend_tfreq`, `ctl.cp_tfreq` (R32). -/
  syncTfreq : Sync
  /-- `ctl.pend_tamp`, `ctl.cp_tamp` (R32). -/
  syncTamp : Sync
  /-- `ctl.pend_gain`, `ctl.cp_gain` (R32). -/
  syncGain : Sync
  /-- `ctl.pend_runstate`, `ctl.cp_runstate` (R32). -/
  syncRunstate : Sync
  deriving DecidableEq, Repr

/-- `aud.mode` (10_state.md R37): ZERO emits +0.0 samples, RAMP runs the oscillator. -/
inductive Mode where
  | zero
  | ramp
  deriving DecidableEq, Repr

/-- The state of the render domain `clk_aud` (10_state.md R33 to R37). -/
structure Aud where
  /-- `aud.r_tfreq`, the shadow of `ctl.tfreq` (R33). -/
  rTfreq : Word
  /-- `aud.r_tamp` (R33). -/
  rTamp : Word
  /-- `aud.r_gain` (R33). -/
  rGain : Word
  /-- `aud.r_runstate`: epoch in bits 31..1, run in bit 0 (R33, R24). -/
  rRunstate : Word
  /-- `aud.phase`, binary64, in table entries (R34). -/
  phase : DWord
  /-- `aud.cur_freq`, binary32 in Hz (R34). -/
  curFreq : Word
  /-- `aud.cur_amp`, binary32 (R34). -/
  curAmp : Word
  /-- `aud.is_silent` (R34). -/
  isSilent : Bool
  /-- `aud.seen_epoch` (R35). -/
  seenEpoch : Epoch
  /-- `aud.blk_total` (R36). -/
  blkTotal : BitVec 32
  /-- `aud.busy` (R37). -/
  busy : Bool
  /-- `aud.F`, the frames of the current block (R37). -/
  frames : BlkWord
  /-- `aud.i`, the index of the next sample (R37). -/
  idx : BlkWord
  /-- `aud.mode` (R37). -/
  mode : Mode
  /-- `aud.s_tamp`, snapshot (R37). -/
  sTamp : Word
  /-- `aud.s_tfreq`, snapshot (R37). -/
  sTfreq : Word
  /-- `aud.s_gain`, snapshot (R37). -/
  sGain : Word
  /-- `aud.amp_step`, binary32 (R37). -/
  ampStep : Word
  /-- `aud.freq_step`, binary32 (R37). -/
  freqStep : Word
  /-- `aud.out_full`, drives `out_valid` (R37). -/
  outFull : Bool
  /-- `aud.out_word`, drives `out_data` (R37). -/
  outWord : Word
  deriving DecidableEq, Repr

/-- The outputs driven in the step just taken (30_encoding.md R80). `step` releases them before it
takes a step; an operation drives what its rule says. DESIGN CHOICE, log entry 5. -/
structure Ports where
  /-- `ctl_rdata`; no value outside a read cycle (30_encoding.md R82). -/
  rdata : Option Word
  /-- `hw_suspend`, high for the one cycle of a request (30_encoding.md R87). -/
  hwSuspend : Bool
  /-- `hw_resume` (30_encoding.md R87). -/
  hwResume : Bool
  /-- `blk_done` (40_oscillator.md R126). -/
  blkDone : Bool
  deriving DecidableEq, Repr

/-- No output driven: no read data and no pulse. -/
def Ports.quiet : Ports := ⟨none, false, false, false⟩

/-- One step of one agent (00_scope.md R15), or the reset pin (70_reset_and_hazards.md R220). -/
inductive Event where
  /-- HOST and SENSOR: one `clk_ctl` cycle with the sensor sample and the bus word presented in
  it, if any (60_exceptions.md R204). -/
  | ctl (sample : Option Word) (bus : Option BusWord)
  /-- AUDIO: a `clk_aud` cycle with `blk_req` = 1 and this `BLK_REQ` word (30_encoding.md R83). -/
  | blkReq (w : BlkWord)
  /-- RENDER: the per-sample render step (40_oscillator.md R117, R118). -/
  | render
  /-- AUDIO: a `clk_aud` cycle with `out_ready` = 1 (40_oscillator.md R126). -/
  | consume
  /-- `COPY_f` (20_memory.md R64). -/
  | copy (f : Field)
  /-- `ACK_f` (20_memory.md R65). -/
  | ack (f : Field)
  /-- `COPY_blk` (20_memory.md R66). -/
  | copyBlk
  /-- `COPY_silent` (20_memory.md R66). -/
  | copySilent
  /-- `rst_n` asserted and released (70_reset_and_hazards.md R220). -/
  | reset
  deriving DecidableEq, Repr

/-- The whole machine. `ctl` and `aud` are the spec's state; `ports` and `stream` are what the
machine has put out; `cfg` and `schedule` are the model's own (log entries 1 and 2). -/
structure State where
  /-- The configuration; nothing writes it (10_state.md R20, 70_reset_and_hazards.md R221). -/
  cfg : Config
  /-- The control domain. -/
  ctl : Ctl
  /-- The render domain. -/
  aud : Aud
  /-- The outputs of the step just taken. -/
  ports : Ports
  /-- The output sample stream so far, first word first (20_memory.md R50, 30_encoding.md R86). -/
  stream : List Word
  /-- The steps the agents and the environment take next, first one first. DESIGN CHOICE, log
  entry 2. -/
  schedule : List Event
  deriving DecidableEq, Repr

/-- The flags of a field at reset: nothing pending, shadow equal to its control value
(10_state.md R32). -/
def Sync.reset : Sync := ⟨false, true⟩

/-- The control domain after reset (10_state.md R43). -/
def Ctl.reset : Ctl where
  tfreq := 0x42C80000
  tamp := 0
  gain := 0
  run := false
  epoch := 0
  pause := false
  smoothed := 0
  stillCount := 0
  sensCount := 0
  blkSeen := 0
  blkBase := 0
  cntRender := 0
  cntSensor := 0
  silentSeen := true
  syncTfreq := Sync.reset
  syncTamp := Sync.reset
  syncGain := Sync.reset
  syncRunstate := Sync.reset

/-- The render domain after reset (10_state.md R43). The spec leaves `frames`, `idx`, `mode`, the
snapshot, the two steps and `outWord` unspecified; the zeros here are DESIGN CHOICE, unsafe, log
entry 4. -/
def Aud.reset : Aud where
  rTfreq := 0x42C80000
  rTamp := 0
  rGain := 0
  rRunstate := 0
  phase := 0
  curFreq := 0
  curAmp := 0
  isSilent := true
  seenEpoch := 0
  blkTotal := 0
  busy := false
  frames := 0
  idx := 0
  mode := .zero
  sTamp := 0
  sTfreq := 0
  sGain := 0
  ampStep := 0
  freqStep := 0
  outFull := false
  outWord := 0

/-- The machine built with configuration `c`, right after reset (10_state.md R43,
70_reset_and_hazards.md R220). -/
def State.resetWith (c : Config) : State where
  cfg := c
  ctl := Ctl.reset
  aud := Aud.reset
  ports := Ports.quiet
  stream := []
  schedule := []

/-- The machine right after reset, in the reference configuration of 00_scope.md R8. -/
def State.reset : State := State.resetWith Config.default

end Sys2Proof.Machine
end

