-- ==== Sys2Proof/Machine/Operands.lean ====
section
/-! DEFINITION. The operand forms of spec/30_encoding.md R89: a binary32 operand is taken as is, a
command or pause operand is a bit vector of which the bits below count, a frame count is an
unsigned integer. -/

namespace Sys2Proof.Machine

/-- CMD bit 0, START (30_encoding.md R91). -/
def cmdStart (d : Word) : Bool := d.getLsbD 0

/-- CMD bit 1, STOP (30_encoding.md R91). -/
def cmdStop (d : Word) : Bool := d.getLsbD 1

/-- CMD bit 2, SNAP (30_encoding.md R91). -/
def cmdSnap (d : Word) : Bool := d.getLsbD 2

/-- SENSOR_PAUSE bit 0, PAUSE (30_encoding.md R92). -/
def pauseBit (d : Word) : Bool := d.getLsbD 0

/-- The word {epoch, run} that crosses to the render domain (10_state.md R24). -/
def packRunstate (epoch : Epoch) (run : Bool) : Word := epoch ++ BitVec.ofBool run

/-- The run bit of a runstate word, bit 0 (40_oscillator.md R112). -/
def runOf (rs : Word) : Bool := rs.getLsbD 0

/-- The epoch of a runstate word, bits 31..1 (40_oscillator.md R112). -/
def epochOf (rs : Word) : Epoch := rs.extractLsb' 1 epochBits

end Sys2Proof.Machine
end

