-- ==== Sys2Proof/Machine/Flags.lean ====
section
/-! DEFINITION. The derived flags and status words: SLEEPING (spec/10_state.md R27), SYNC_PEND
(R32), STATUS (spec/30_encoding.md R93), CONFIG (R101), SAMPLE_RATE (R102), SENSOR_PAUSE (R92), and
the handshake outputs of the render domain (spec/10_state.md R37, R38). No flag is a side effect of
arithmetic (R40). -/

namespace Sys2Proof.Machine

/-- `ctl.runstate` (10_state.md R24). -/
def runstateWord (c : Ctl) : Word := packRunstate c.epoch c.run

/-- SLEEPING: the debounce counter has reached T (10_state.md R27). -/
def sleeping (cfg : Config) (c : Ctl) : Bool := c.stillCount.toNat == cfg.t

/-- STATUS.SYNC_PEND: some field has a write not yet acknowledged (10_state.md R32). -/
def syncPend (c : Ctl) : Bool :=
  c.syncTfreq.pend || c.syncTamp.pend || c.syncGain.pend || c.syncRunstate.pend

/-- The STATUS word (30_encoding.md R93, 41_param_channel.md R155). -/
def statusWord (cfg : Config) (c : Ctl) : Word :=
  (0 : BitVec 8) ++ c.stillCount ++ (0 : BitVec 4) ++ BitVec.ofBool (syncPend c) ++
    BitVec.ofBool c.silentSeen ++ BitVec.ofBool (sleeping cfg c) ++ BitVec.ofBool c.run

/-- The SENSOR_PAUSE word (30_encoding.md R92). -/
def pauseWord (c : Ctl) : Word := (BitVec.ofBool c.pause).setWidth 32

/-- The CONFIG word (30_encoding.md R101). -/
def configWord (cfg : Config) : Word :=
  BitVec.ofNat 16 cfg.t ++ (0 : BitVec 11) ++ BitVec.ofNat 5 cfg.tableLog2

/-- The SAMPLE_RATE word (30_encoding.md R102). -/
def sampleRateWord (cfg : Config) : Word := (0 : BitVec 8) ++ BitVec.ofNat 24 cfg.fs

/-- The output `blk_ready` (10_state.md R38). -/
def blkReady (a : Aud) : Bool := !a.busy

/-- The output `out_valid` (10_state.md R37). -/
def outValid (a : Aud) : Bool := a.outFull

/-- The output `out_data`, which carries a sample only while `out_valid` is 1 (10_state.md R37,
log entry 5). -/
def outData (a : Aud) : Option Word := if a.outFull then some a.outWord else none

/-- RENDER is enabled (40_oscillator.md R117, R118). -/
def renderEnabled (a : Aud) : Bool := a.busy && decide (a.idx.toNat < a.frames.toNat) && !a.outFull

end Sys2Proof.Machine
end

