-- ==== Sys2Proof/Machine/Float.lean ====
section
/-! DEFINITION. The floating-point primitives of spec/00_scope.md R13 over the binary32 and
binary64 formats of R12. Every operation is computed exactly, as a ratio of two naturals with a
sign, and rounded once, to nearest with ties to even. A NaN result is the canonical quiet NaN,
subnormals are kept, and no flags exist (R13). -/

namespace Sys2Proof.Machine

/-- An IEEE 754 binary format: widths of the exponent and the fraction field (00_scope.md R12). -/
structure Fmt where
  expBits : Nat
  fracBits : Nat
  deriving DecidableEq, Repr

/-- binary32: 8 exponent bits, 23 fraction bits (00_scope.md R12). -/
def binary32 : Fmt := ⟨8, 23⟩

/-- binary64: 11 exponent bits, 52 fraction bits (00_scope.md R12). -/
def binary64 : Fmt := ⟨11, 52⟩

/-- The sign bit as a number; also one more than the largest pattern without it. -/
def Fmt.signBit (f : Fmt) : Nat := 2 ^ (f.expBits + f.fracBits)

/-- The pattern of +Inf: exponent field all ones, fraction 0. -/
def Fmt.infBits (f : Fmt) : Nat := (2 ^ f.expBits - 1) * 2 ^ f.fracBits

/-- The canonical quiet NaN: 0x7FC00000 or 0x7FF8000000000000 (00_scope.md R13). -/
def Fmt.nanBits (f : Fmt) : Nat := f.infBits + 2 ^ (f.fracBits - 1)

/-- The smallest subnormal is `2 ^ -quantumLog`: 149 for binary32, 1074 for binary64. Every finite
value of the format is a whole multiple of it. -/
def Fmt.quantumLog (f : Fmt) : Nat := 2 ^ (f.expBits - 1) + f.fracBits - 2

/-- An unpacked value: NaN, an infinity, or the exact number `± num / den`; `neg` is the sign, of a
zero too. -/
inductive FP where
  | nan
  | inf (neg : Bool)
  | fin (neg : Bool) (num den : Nat)
  deriving DecidableEq, Repr

/-- The value of a finite pattern without its sign bit, in smallest subnormals. -/
def Fmt.quanta (f : Fmt) (mag : Nat) : Nat :=
  let e := mag / 2 ^ f.fracBits
  let m := mag % 2 ^ f.fracBits
  if e = 0 then m else (2 ^ f.fracBits + m) * 2 ^ (e - 1)

/-- The value of a bit pattern (00_scope.md R12). -/
def Fmt.unpack (f : Fmt) (bits : Nat) : FP :=
  let neg := bits / f.signBit % 2 == 1
  let mag := bits % f.signBit
  if mag < f.infBits then .fin neg (f.quanta mag) (2 ^ f.quantumLog)
  else if mag = f.infBits then .inf neg
  else .nan

/-- Whether a quotient `q` with remainder `r` by `d` rounds up: more than half, or half and `q`
odd (00_scope.md R13, ties to even). -/
def roundsUp (q r d : Nat) : Bool := d < 2 * r || (2 * r == d && q % 2 == 1)

/-- The pattern nearest to `num / den` smallest subnormals, ties to even; +Inf where the rounded
value is beyond the largest finite one. The significand of a value with bit length over
`fracBits + 1` loses `shift` bits; exponent field and fraction are then read off
`shift * 2 ^ fracBits + significand`, a carry out of the significand included. -/
def Fmt.roundMag (f : Fmt) (num den : Nat) : Nat :=
  let shift := Nat.log2 (num / den) - f.fracBits
  let d := den * 2 ^ shift
  let q := num / d
  let r := num % d
  let sig := if roundsUp q r d then q + 1 else q
  min (shift * 2 ^ f.fracBits + sig) f.infBits

/-- The pattern of a value, rounded once (00_scope.md R13). -/
def Fmt.pack (f : Fmt) : FP → Nat
  | .nan => f.nanBits
  | .inf neg => (if neg then f.signBit else 0) + f.infBits
  | .fin neg num den =>
    (if neg then f.signBit else 0) + f.roundMag (num * 2 ^ f.quantumLog) den

/-- A magnitude with its sign. -/
def signed (neg : Bool) (n : Nat) : Int := if neg then -(n : Int) else n

/-- The exact negation. -/
def FP.neg : FP → FP
  | .nan => .nan
  | .inf s => .inf (!s)
  | .fin s n d => .fin (!s) n d

/-- The exact sum. A zero sum is negative only if both operands are (round to nearest), and the
sum of opposite infinities is NaN. -/
def FP.add : FP → FP → FP
  | .nan, _ => .nan
  | _, .nan => .nan
  | .inf s, .inf t => if s = t then .inf s else .nan
  | .inf s, .fin _ _ _ => .inf s
  | .fin _ _ _, .inf t => .inf t
  | .fin s n d, .fin t m e =>
    let z := signed s (n * e) + signed t (m * d)
    .fin (if z = 0 then s && t else z < 0) z.natAbs (d * e)

/-- The exact difference. -/
def FP.sub (x y : FP) : FP := FP.add x (FP.neg y)

/-- The exact product; infinity times zero is NaN. -/
def FP.mul : FP → FP → FP
  | .nan, _ => .nan
  | _, .nan => .nan
  | .inf s, .inf t => .inf (s != t)
  | .inf s, .fin t m _ => if m = 0 then .nan else .inf (s != t)
  | .fin s n _, .inf t => if n = 0 then .nan else .inf (s != t)
  | .fin s n d, .fin t m e => .fin (s != t) (n * m) (d * e)

/-- The exact quotient; 0/0 and Inf/Inf are NaN, a nonzero number over zero is an infinity. -/
def FP.div : FP → FP → FP
  | .nan, _ => .nan
  | _, .nan => .nan
  | .inf _, .inf _ => .nan
  | .inf s, .fin t _ _ => .inf (s != t)
  | .fin s _ _, .inf t => .fin (s != t) 0 1
  | .fin s n d, .fin t m e =>
    if m = 0 then (if n = 0 then .nan else .inf (s != t)) else .fin (s != t) (n * e) (d * m)

/-- The ordered quiet comparison `<`: false when either operand is NaN (00_scope.md R13). -/
def FP.lt : FP → FP → Bool
  | .nan, _ => false
  | _, .nan => false
  | .inf s, .inf t => s && !t
  | .inf s, .fin _ _ _ => s
  | .fin _ _ _, .inf t => !t
  | .fin s n d, .fin t m e => signed s (n * e) < signed t (m * d)

/-- The ordered quiet comparison `<=`: false when either operand is NaN (00_scope.md R13). -/
def FP.le : FP → FP → Bool
  | .nan, _ => false
  | _, .nan => false
  | .inf s, .inf t => s || !t
  | .inf s, .fin _ _ _ => s
  | .fin _ _ _, .inf t => !t
  | .fin s n d, .fin t m e => signed s (n * e) ≤ signed t (m * d)

/-- The value of a binary32 pattern. -/
def unpack32 (a : Word) : FP := binary32.unpack a.toNat

/-- The binary32 pattern of a value, rounded once. -/
def pack32 (x : FP) : Word := BitVec.ofNat 32 (binary32.pack x)

/-- The value of a binary64 pattern. -/
def unpack64 (a : DWord) : FP := binary64.unpack a.toNat

/-- The binary64 pattern of a value, rounded once. -/
def pack64 (x : FP) : DWord := BitVec.ofNat 64 (binary64.pack x)

/-- `f32_add` (00_scope.md R13). -/
def f32Add (a b : Word) : Word := pack32 (FP.add (unpack32 a) (unpack32 b))

/-- `f32_sub` (00_scope.md R13). -/
def f32Sub (a b : Word) : Word := pack32 (FP.sub (unpack32 a) (unpack32 b))

/-- `f32_mul` (00_scope.md R13). -/
def f32Mul (a b : Word) : Word := pack32 (FP.mul (unpack32 a) (unpack32 b))

/-- `f32_div` (00_scope.md R13). -/
def f32Div (a b : Word) : Word := pack32 (FP.div (unpack32 a) (unpack32 b))

/-- `f64_add` (00_scope.md R13). -/
def f64Add (a b : DWord) : DWord := pack64 (FP.add (unpack64 a) (unpack64 b))

/-- `f64_sub` (00_scope.md R13). -/
def f64Sub (a b : DWord) : DWord := pack64 (FP.sub (unpack64 a) (unpack64 b))

/-- `f64_mul` (00_scope.md R13). -/
def f64Mul (a b : DWord) : DWord := pack64 (FP.mul (unpack64 a) (unpack64 b))

/-- `f32_lt` (00_scope.md R13). -/
def f32Lt (a b : Word) : Bool := FP.lt (unpack32 a) (unpack32 b)

/-- `f32_le` (00_scope.md R13). -/
def f32Le (a b : Word) : Bool := FP.le (unpack32 a) (unpack32 b)

/-- `f64_ge` (00_scope.md R13). -/
def f64Ge (a b : DWord) : Bool := FP.le (unpack64 b) (unpack64 a)

/-- `f32_to_f64`, the exact widening; a NaN becomes the canonical one (00_scope.md R13). -/
def f32ToF64 (a : Word) : DWord := pack64 (unpack32 a)

/-- `u_to_f32` (00_scope.md R13). -/
def uToF32 (n : Nat) : Word := pack32 (.fin false n 1)

/-- `u_to_f64` (00_scope.md R13). -/
def uToF64 (n : Nat) : DWord := pack64 (.fin false n 1)

/-- The greatest integer at most `± num / den` (40_oscillator.md R116). -/
def floorOf (neg : Bool) (num den : Nat) : Int := signed neg num / (den : Int)

end Sys2Proof.Machine
end

