-- ==== Sys2Proof/Machine/Wave.lean ====
section
/-! DEFINITION. Evaluating the configuration: the derived parameters N and K (spec/00_scope.md R8),
the default sine table (R10), legality (R10), the table read (spec/20_memory.md R57) and the table
index `floorModN` (spec/40_oscillator.md R116). -/

namespace Sys2Proof.Machine

/-- `N`, the table size (00_scope.md R8). -/
def tableSize (c : Config) : Nat := 2 ^ c.tableLog2

/-- `K` = RNE64(N / FS), the phase increment per Hz per sample (00_scope.md R8): one rounding of
the exact quotient. -/
def incrementK (c : Config) : DWord := pack64 (.fin false (tableSize c) c.fs)

/-- Half of π in units of 2^-128, rounded to nearest. -/
def halfPi128 : Nat := 0x1921fb54442d18469898cc51701b839a2

/-- `sineSum x2 n k t`: `n` terms of the sine series from term `k`, whose value is `t`, for an
argument with square `x2`, all in units of 2^-128 and rounded down term by term. -/
def sineSum (x2 : Nat) : Nat → Nat → Nat → Int
  | 0, _, _ => 0
  | n + 1, k, t => (t : Int) - sineSum x2 n (k + 1) (t * x2 / 2 ^ 128 / ((2 * k + 2) * (2 * k + 3)))

/-- The sine of the angle `r` quarter-turn parts of 16384, 0 <= r <= 16384, in units of 2^-128 and
at most 1. Its error is below 2^-124, far less than the distance of any of these sines from a
rounding boundary of binary32: UNVERIFIED in Lean, log entry 10. -/
def sine128 (r : Nat) : Nat :=
  let x := halfPi128 * r / 16384
  min (2 ^ 128) (sineSum (x * x / 2 ^ 128) 24 0 x).toNat

/-- RNE32 of ± the sine of `r` quarter-turn parts; the zero is +0.0 (00_scope.md R10). -/
def sineQuarter (neg : Bool) (r : Nat) : Word :=
  pack32 (.fin (neg && sine128 r != 0) (sine128 r) (2 ^ 128))

/-- RNE32(sin(2πk/N)) for N = 2^log2 (00_scope.md R10), by quadrants of a circle of 65536 parts. -/
def sineEntry (log2 k : Nat) : Word :=
  let j := k * 2 ^ (16 - log2) % 65536
  let r := j % 16384
  match j / 16384 with
  | 0 => sineQuarter false r
  | 1 => sineQuarter false (16384 - r)
  | 2 => sineQuarter true r
  | _ => sineQuarter true (16384 - r)

/-- `TableRead(k)` (20_memory.md R57): entry `k` of `WT`, for 0 <= k < N. -/
def tableRead (c : Config) (k : Nat) : Word :=
  match c.wt with
  | .sine => sineEntry c.tableLog2 k
  | .entries ws => ws.getD k 0

/-- A legal table entry: -1.0 <= v <= 1.0, which excludes NaN (00_scope.md R10). -/
def legalEntry (v : Word) : Bool := f32Le 0xBF800000 v && f32Le v 0x3F800000

/-- A legal table: N legal entries (00_scope.md R8, R10). The default sine is legal (R10). -/
def legalTable (c : Config) : Bool :=
  match c.wt with
  | .sine => true
  | .entries ws => ws.length == tableSize c && ws.all legalEntry

/-- A legal configuration: every parameter in its range and every table entry in [-1.0, 1.0]
(00_scope.md R10). -/
def legalConfig (c : Config) : Bool :=
  decide (1 ≤ c.tableLog2) && decide (c.tableLog2 ≤ 16) && decide (1 ≤ c.fs) &&
    decide (c.fs ≤ 16777215) && decide (1 ≤ c.t) && decide (c.t ≤ 65535) && legalTable c

/-- `floorModN(p)` (40_oscillator.md R116): the integer part of a finite phase modulo N, 0 for a
phase that is NaN or infinite. -/
def floorModN (c : Config) (p : DWord) : Nat :=
  match unpack64 p with
  | .nan => 0
  | .inf _ => 0
  | .fin neg num den => (floorOf neg num den % (tableSize c : Int)).toNat

end Sys2Proof.Machine
end

