-- ==== Sys2Proof/Machine/Ops.lean ====
section
/-! DEFINITION. The named operations every meaning and every agent step is built from: driving the
outputs, writing a handed-off field, the handoff steps, the commands, the sensor path, the block
engine and reset. ODS-WTO takes no exception and returns from none (spec/60_exceptions.md R200,
R206, R207), so no such operation stands here. -/

namespace Sys2Proof.Machine

/-! ### Outputs -/

/-- The answer of a step that goes on, the only kind this hardware has (60_exceptions.md R200). -/
abbrev Result := Host.Outcome State Fault Refusal

/-- Release every output: no read data, no pulse (30_encoding.md R82, 00_scope.md R14). -/
def quiet (s : State) : State := { s with ports := Ports.quiet }

/-- `ctl_rdata <- v` (41_param_channel.md R140). -/
def driveRdata (v : Word) (s : State) : State :=
  { s with ports := { s.ports with rdata := some v } }

/-- `pulse(hw_suspend)` (00_scope.md R14). -/
def pulseSuspend (s : State) : State := { s with ports := { s.ports with hwSuspend := true } }

/-- `pulse(hw_resume)` (00_scope.md R14). -/
def pulseResume (s : State) : State := { s with ports := { s.ports with hwResume := true } }

/-- `pulse(blk_done)` (00_scope.md R14). -/
def pulseDone (s : State) : State := { s with ports := { s.ports with blkDone := true } }

/-! ### The parameter bank and its handoff -/

/-- The flags of a field after a write to it (10_state.md R32). -/
def Sync.written : Sync := ⟨true, false⟩

/-- The flags of a field after `COPY_f` (20_memory.md R64). -/
def Sync.copied (y : Sync) : Sync := { y with cp := true }

/-- The flags of a field after `ACK_f` (20_memory.md R65). -/
def Sync.acked (y : Sync) : Sync := if y.cp then { y with pend := false } else y

/-- A write of `ctl.tfreq`, by the host or by the mapper (10_state.md R21, R32). -/
def writeTfreq (v : Word) (s : State) : State :=
  { s with ctl := { s.ctl with tfreq := v, syncTfreq := Sync.written } }

/-- A write of `ctl.tamp` (10_state.md R22, R32). -/
def writeTamp (v : Word) (s : State) : State :=
  { s with ctl := { s.ctl with tamp := v, syncTamp := Sync.written } }

/-- A write of `ctl.gain` (10_state.md R23, R32). -/
def writeGain (v : Word) (s : State) : State :=
  { s with ctl := { s.ctl with gain := v, syncGain := Sync.written } }

/-- A write of `ctl.runstate` (10_state.md R24, R32). -/
def writeRunstate (run : Bool) (epoch : Epoch) (s : State) : State :=
  { s with ctl := { s.ctl with run := run, epoch := epoch, syncRunstate := Sync.written } }

/-- `COPY_f` (20_memory.md R64): the shadow takes the whole control word, and `cp_f` is set. -/
def copyField (f : Field) (s : State) : State :=
  match f with
  | .tfreq =>
    { s with aud := { s.aud with rTfreq := s.ctl.tfreq }
             ctl := { s.ctl with syncTfreq := s.ctl.syncTfreq.copied } }
  | .tamp =>
    { s with aud := { s.aud with rTamp := s.ctl.tamp }
             ctl := { s.ctl with syncTamp := s.ctl.syncTamp.copied } }
  | .gain =>
    { s with aud := { s.aud with rGain := s.ctl.gain }
             ctl := { s.ctl with syncGain := s.ctl.syncGain.copied } }
  | .runstate =>
    { s with aud := { s.aud with rRunstate := runstateWord s.ctl }
             ctl := { s.ctl with syncRunstate := s.ctl.syncRunstate.copied } }

/-- `ACK_f` (20_memory.md R65): `pend_f` is cleared if `cp_f` is set. -/
def ackField (f : Field) (s : State) : State :=
  match f with
  | .tfreq => { s with ctl := { s.ctl with syncTfreq := s.ctl.syncTfreq.acked } }
  | .tamp => { s with ctl := { s.ctl with syncTamp := s.ctl.syncTamp.acked } }
  | .gain => { s with ctl := { s.ctl with syncGain := s.ctl.syncGain.acked } }
  | .runstate => { s with ctl := { s.ctl with syncRunstate := s.ctl.syncRunstate.acked } }

/-- `COPY_blk` (20_memory.md R66). -/
def copyBlkTotal (s : State) : State := { s with ctl := { s.ctl with blkSeen := s.aud.blkTotal } }

/-- `COPY_silent` (20_memory.md R66). -/
def copyIsSilent (s : State) : State :=
  { s with ctl := { s.ctl with silentSeen := s.aud.isSilent } }

/-! ### Commands -/

/-- START (41_param_channel.md R148): only while stopped; a new epoch, a fresh stillness state and
a fresh smoother. -/
def startEngine (s : State) : State :=
  if s.ctl.run then s
  else
    let s' := writeRunstate true (s.ctl.epoch + 1) s
    { s' with ctl := { s'.ctl with stillCount := 0, smoothed := 0 } }

/-- STOP (41_param_channel.md R149): only while running. -/
def stopEngine (s : State) : State :=
  if s.ctl.run then writeRunstate false s.ctl.epoch s else s

/-- SNAP (41_param_channel.md R151): both counts are latched and both periods restart, at once. -/
def snapCounters (s : State) : State :=
  { s with ctl := { s.ctl with
      cntRender := s.ctl.blkSeen - s.ctl.blkBase
      blkBase := s.ctl.blkSeen
      cntSensor := s.ctl.sensCount
      sensCount := 0 } }

/-- The effect of a CMD write (41_param_channel.md R152): STOP wins over START, SNAP is
independent, bits 31..3 are ignored. -/
def commandEffect (d : Word) (s : State) : State :=
  let s1 := if cmdStop d then stopEngine s else if cmdStart d then startEngine s else s
  if cmdSnap d then snapCounters s1 else s1

/-! ### The sensor path -/

/-- The smoother (44_sensor_ingest.md R191): two products and one sum, each rounded. -/
def smooth (c : Config) (prev raw : Word) : Word :=
  f32Add (f32Mul c.alphaPrev prev) (f32Mul c.alphaRaw raw)

/-- The mapper `map(m)` (42_mapper.md R170): one product and one sum, each rounded, no clamp. -/
def mapMagnitude (c : Config) (m : Word) : Word := f32Add c.mapBase (f32Mul m c.mapScale)

/-- The debounce counter takes a value. -/
def setStillCount (n : BitVec 16) (s : State) : State :=
  { s with ctl := { s.ctl with stillCount := n } }

/-- One sample of the stillness detector (43_stillness_fsm.md R176, R177): `m` is the magnitude
just smoothed. The counter tested is the one before this sample. -/
def stillnessStep (m : Word) (s : State) : State :=
  let c := s.ctl.stillCount
  if f32Lt m s.cfg.cutoff then
    if c.toNat < s.cfg.t then
      let s' := setStillCount (c + 1) s
      if c.toNat + 1 = s.cfg.t then pulseSuspend s' else s'
    else s
  else
    let s' := setStillCount 0 s
    if s.cfg.t ≤ c.toNat then pulseResume s' else s'

/-- Smoothing and counting of a processed sample (44_sensor_ingest.md R191, R193). -/
def ingestSample (m : Word) (s : State) : State :=
  { s with ctl := { s.ctl with smoothed := m, sensCount := s.ctl.sensCount + 1 } }

/-- A sensor sample (44_sensor_ingest.md R190, R194): dropped while stopped or paused, else
smoothed, counted, given to the detector and then to the mapper. -/
def sensorSample (r : Word) (s : State) : State :=
  if !s.ctl.run || s.ctl.pause then s
  else
    let m := smooth s.cfg s.ctl.smoothed r
    writeTfreq (mapMagnitude s.cfg m) (stillnessStep m (ingestSample m s))

/-! ### The block engine -/

/-- The sequencer and the snapshot at acceptance, F >= 1 (40_oscillator.md R111, R112). -/
def snapshotBlock (f : BlkWord) (a : Aud) : Aud :=
  { a with
    busy := true
    frames := f
    idx := 0
    sTamp := a.rTamp
    sTfreq := a.rTfreq
    sGain := a.rGain }

/-- A fresh oscillator when a START happened since the last block that acted
(40_oscillator.md R113). -/
def freshOscillator (a : Aud) : Aud :=
  if epochOf a.rRunstate = a.seenEpoch then a
  else
    { a with
      seenEpoch := epochOf a.rRunstate
      phase := 0
      curFreq := 0
      curAmp := 0
      isSilent := true }

/-- Target and current amplitude are at most EPS (40_oscillator.md R114). -/
def takesFastPath (c : Config) (a : Aud) : Bool := f32Le a.sTamp c.eps && f32Le a.curAmp c.eps

/-- The silence fast path; `curFreq` and `phase` stay (40_oscillator.md R114). -/
def fastPathBlock (a : Aud) : Aud := { a with mode := .zero, curAmp := 0, isSilent := true }

/-- The ramp set-up: one difference and one quotient per step, each rounded
(40_oscillator.md R115). -/
def rampBlock (a : Aud) : Aud :=
  { a with
    isSilent := false
    ampStep := f32Div (f32Sub a.sTamp a.curAmp) (uToF32 a.frames.toNat)
    freqStep := f32Div (f32Sub a.sTfreq a.curFreq) (uToF32 a.frames.toNat)
    mode := .ramp }

/-- Acceptance of a request of F >= 1 frames after counting (40_oscillator.md R111 to R115). -/
def beginBlock (c : Config) (f : BlkWord) (a : Aud) : Aud :=
  let a1 := snapshotBlock f a
  if runOf a1.rRunstate then
    let a2 := freshOscillator a1
    if takesFastPath c a2 then fastPathBlock a2 else rampBlock a2
  else { a1 with mode := .zero }

/-- A block request (40_oscillator.md R111, 30_encoding.md R84): ignored while busy, else counted;
zero frames complete at once, and any other count begins a block. -/
def requestBlock (f : BlkWord) (s : State) : State :=
  if s.aud.busy then s
  else
    let a := { s.aud with blkTotal := s.aud.blkTotal + 1 }
    if f = 0 then pulseDone { s with aud := a }
    else { s with aud := beginBlock s.cfg f a }

/-- The phase after one sample at frequency `cf`: one product and one sum, then at most one
subtraction of N (40_oscillator.md R122, R123). -/
def advancePhase (c : Config) (phase : DWord) (cf : Word) : DWord :=
  let p := f64Add phase (f64Mul (f32ToF64 cf) (incrementK c))
  if f64Ge p (uToF64 (tableSize c)) then f64Sub p (uToF64 (tableSize c)) else p

/-- The envelope and gain multiplier (40_oscillator.md R124). -/
def outputSample (raw ca gain : Word) : Word := f32Mul (f32Mul raw ca) gain

/-- RENDER in mode ZERO (40_oscillator.md R117). -/
def renderZero (a : Aud) : Aud :=
  { a with outWord := 0, outFull := true, idx := a.idx + 1 }

/-- The end-of-block snap (40_oscillator.md R125). -/
def snapToTarget (a : Aud) : Aud :=
  if a.idx = a.frames then { a with curAmp := a.sTamp, curFreq := a.sTfreq } else a

/-- RENDER in mode RAMP (40_oscillator.md R118): amplitude and frequency advance, the table is read
at the old phase, the phase advances by the new frequency. -/
def renderRamp (c : Config) (a : Aud) : Aud :=
  let ca := f32Add a.curAmp a.ampStep
  let cf := f32Add a.curFreq a.freqStep
  let raw := tableRead c (floorModN c a.phase)
  snapToTarget
    { a with
      outWord := outputSample raw ca a.sGain
      outFull := true
      curAmp := ca
      curFreq := cf
      phase := advancePhase c a.phase cf
      idx := a.idx + 1 }

/-- RENDER (40_oscillator.md R117, R118); where it is not enabled, nothing happens (log entry 7). -/
def renderStep (s : State) : State :=
  if renderEnabled s.aud then
    match s.aud.mode with
    | .zero => { s with aud := renderZero s.aud }
    | .ramp => { s with aud := renderRamp s.cfg s.aud }
  else s

/-- CONSUME (40_oscillator.md R126): the sink takes the waiting sample; after the block's last one
`blk_done` pulses and the block ends. Where no sample waits, nothing happens (log entry 7). -/
def consumeStep (s : State) : State :=
  if s.aud.outFull then
    let s' := { s with stream := s.stream ++ [s.aud.outWord]
                       aud := { s.aud with outFull := false } }
    if s.aud.idx = s.aud.frames then
      pulseDone { s' with aud := { s'.aud with busy := false } }
    else s'
  else s

/-! ### Reset -/

/-- `rst_n` asserted and released (70_reset_and_hazards.md R220, R221): every state element takes
its reset value, a block in progress is abandoned (R222), the configuration stays. What was put
out stays put out, and the environment's further steps stay to come (log entry 6). -/
def resetStep (s : State) : State :=
  { State.resetWith s.cfg with stream := s.stream, schedule := s.schedule }

end Sys2Proof.Machine
end

