-- ==== Sys2Proof/Machine/Block.lean ====
section
/-! DEFINITION. The block request of spec/40_oscillator.md R110. Its samples are the internal steps
RENDER and CONSUME (Machine/Ops.lean). -/

namespace Sys2Proof.Machine

/-- BLK (40_oscillator.md R110 to R115). -/
def execBlk (f : BlkWord) (s : State) : Result := .next (requestBlock f s)

end Sys2Proof.Machine
end

