-- ==== Sys2Proof/Machine/BusReads.lean ====
section
/-! DEFINITION. The bus reads of spec/41_param_channel.md: each drives `ctl_rdata` with a value of
the state at the start of the cycle (R140) and changes no state (spec/20_memory.md R58). -/

namespace Sys2Proof.Machine

/-- RD_ID (41_param_channel.md R141): the ASCII "ODS1" (30_encoding.md R90). -/
def execRdId (s : State) : Result := .next (driveRdata 0x4F445331 s)

/-- RD_CMD (41_param_channel.md R153): CMD is write-only. -/
def execRdCmd (s : State) : Result := .next (driveRdata 0 s)

/-- RD_SENSOR_PAUSE (41_param_channel.md R154). -/
def execRdSensorPause (s : State) : Result := .next (driveRdata (pauseWord s.ctl) s)

/-- RD_STATUS (41_param_channel.md R155). -/
def execRdStatus (s : State) : Result := .next (driveRdata (statusWord s.cfg s.ctl) s)

/-- RD_TARGET_FREQ (41_param_channel.md R142). -/
def execRdTargetFreq (s : State) : Result := .next (driveRdata s.ctl.tfreq s)

/-- RD_TARGET_AMP (41_param_channel.md R143). -/
def execRdTargetAmp (s : State) : Result := .next (driveRdata s.ctl.tamp s)

/-- RD_VOLUME (41_param_channel.md R156): the volume is not stored. -/
def execRdVolume (s : State) : Result := .next (driveRdata 0 s)

/-- RD_MASTER_GAIN (41_param_channel.md R144). -/
def execRdMasterGain (s : State) : Result := .next (driveRdata s.ctl.gain s)

/-- RD_MAGNITUDE (41_param_channel.md R157). -/
def execRdMagnitude (s : State) : Result := .next (driveRdata s.ctl.smoothed s)

/-- RD_CNT_RENDER (41_param_channel.md R158). -/
def execRdCntRender (s : State) : Result := .next (driveRdata s.ctl.cntRender s)

/-- RD_CNT_SENSOR (41_param_channel.md R159). -/
def execRdCntSensor (s : State) : Result := .next (driveRdata s.ctl.cntSensor s)

/-- RD_CONFIG (41_param_channel.md R160). -/
def execRdConfig (s : State) : Result := .next (driveRdata (configWord s.cfg) s)

/-- RD_SAMPLE_RATE (41_param_channel.md R161). -/
def execRdSampleRate (s : State) : Result := .next (driveRdata (sampleRateWord s.cfg) s)

/-- RD_RESERVED (41_param_channel.md R162): a reserved address reads 0. -/
def execRdReserved (_a : RegAddr) (s : State) : Result := .next (driveRdata 0 s)

end Sys2Proof.Machine
end

