-- ==== Sys2Proof/Machine/BusWrites.lean ====
section
/-! DEFINITION. The bus writes of spec/41_param_channel.md. None clamps, validates or rejects its
data (R166). -/

namespace Sys2Proof.Machine

/-- WR_CMD (41_param_channel.md R152). -/
def execWrCmd (d : Word) (s : State) : Result := .next (commandEffect d s)

/-- WR_SENSOR_PAUSE (41_param_channel.md R150): only D[0] is used. -/
def execWrSensorPause (d : Word) (s : State) : Result :=
  .next { s with ctl := { s.ctl with pause := pauseBit d } }

/-- WR_TARGET_FREQ (41_param_channel.md R145): any D is stored as is. -/
def execWrTargetFreq (d : Word) (s : State) : Result := .next (writeTfreq d s)

/-- WR_TARGET_AMP (41_param_channel.md R146): any D is stored as is. -/
def execWrTargetAmp (d : Word) (s : State) : Result := .next (writeTamp d s)

/-- WR_VOLUME (41_param_channel.md R147): the volume times GAIN_SAFETY becomes the master gain. -/
def execWrVolume (d : Word) (s : State) : Result :=
  .next (writeGain (f32Mul s.cfg.gainSafety d) s)

/-- WR_IGNORED (41_param_channel.md R163): no state changes and no handoff flag is set. -/
def execWrIgnored (_a : RegAddr) (_d : Word) (s : State) : Result := .next s

end Sys2Proof.Machine
end

