-- ==== Sys2Proof/Machine/Sensor.lean ====
section
/-! DEFINITION. The sensor sample of spec/44_sensor_ingest.md R190. -/

namespace Sys2Proof.Machine

/-- SENS (44_sensor_ingest.md R190 to R194). -/
def execSens (r : Word) (s : State) : Result := .next (sensorSample r s)

end Sys2Proof.Machine
end

