-- ==== Sys2Proof/Machine/Dispatch.lean ====
section
/-! DEFINITION. One arm per operation of spec/opcode_table.json. -/

namespace Sys2Proof.Machine

def exec (i : Instr) (s : State) : Host.Outcome State Fault Refusal :=
  match i with
  | .rdId => Sys2Proof.Machine.execRdId s
  | .rdCmd => Sys2Proof.Machine.execRdCmd s
  | .rdSensorPause => Sys2Proof.Machine.execRdSensorPause s
  | .rdStatus => Sys2Proof.Machine.execRdStatus s
  | .rdTargetFreq => Sys2Proof.Machine.execRdTargetFreq s
  | .rdTargetAmp => Sys2Proof.Machine.execRdTargetAmp s
  | .rdVolume => Sys2Proof.Machine.execRdVolume s
  | .rdMasterGain => Sys2Proof.Machine.execRdMasterGain s
  | .rdMagnitude => Sys2Proof.Machine.execRdMagnitude s
  | .rdCntRender => Sys2Proof.Machine.execRdCntRender s
  | .rdCntSensor => Sys2Proof.Machine.execRdCntSensor s
  | .rdConfig => Sys2Proof.Machine.execRdConfig s
  | .rdSampleRate => Sys2Proof.Machine.execRdSampleRate s
  | .rdReserved a => Sys2Proof.Machine.execRdReserved a s
  | .wrCmd d => Sys2Proof.Machine.execWrCmd d s
  | .wrSensorPause d => Sys2Proof.Machine.execWrSensorPause d s
  | .wrTargetFreq d => Sys2Proof.Machine.execWrTargetFreq d s
  | .wrTargetAmp d => Sys2Proof.Machine.execWrTargetAmp d s
  | .wrVolume d => Sys2Proof.Machine.execWrVolume d s
  | .wrIgnored a d => Sys2Proof.Machine.execWrIgnored a d s
  | .blk f => Sys2Proof.Machine.execBlk f s
  | .sens r => Sys2Proof.Machine.execSens r s

end Sys2Proof.Machine
end

