-- ==== Sys2Proof/Machine/Cycle.lean ====
section
/-! DEFINITION. What one scheduled event does: the `clk_ctl` cycle of spec/60_exceptions.md R204 and
the steps of the other agents (spec/00_scope.md R15). -/

namespace Sys2Proof.Machine

/-- Go on from a next state. -/
def andThen (o : Result) (k : State → Result) : Result :=
  match o with
  | .next s => k s
  | .fault r => .fault r
  | .refused r => .refused r

/-- One `clk_ctl` cycle (60_exceptions.md R204): a bus read takes its value from the start of the
cycle, the sensor step comes next, a bus write is applied last. A cycle in which nothing is
presented changes nothing. -/
def ctlCycle (sample : Option Word) (bus : Option BusWord) (s : State) : Result :=
  match sample, bus with
  | none, none => .next s
  | some r, none => exec (decode (.sensor r)) s
  | none, some w => exec (decode (.ctlBus w)) s
  | some r, some w =>
    if (decode (.ctlBus w)).isBusRead then
      andThen (exec (decode (.ctlBus w)) s) (exec (decode (.sensor r)))
    else andThen (exec (decode (.sensor r)) s) (exec (decode (.ctlBus w)))

/-- The step of one event (00_scope.md R15). -/
def takeEvent (e : Event) (s : State) : Result :=
  match e with
  | .ctl sample bus => ctlCycle sample bus s
  | .blkReq w => exec (decode (.blkReq w)) s
  | .render => .next (renderStep s)
  | .consume => .next (consumeStep s)
  | .copy f => .next (copyField f s)
  | .ack f => .next (ackField f s)
  | .copyBlk => .next (copyBlkTotal s)
  | .copySilent => .next (copyIsSilent s)
  | .reset => .next (resetStep s)

/-- The next step of the schedule, taken with every output released; an empty schedule is a step
in which no agent moves (log entry 2). -/
def takeNext (s : State) : Result :=
  match s.schedule with
  | [] => .next (quiet s)
  | e :: rest => takeEvent e (quiet { s with schedule := rest })

/-- A word presented on its port, as the one event of its cycle (30_encoding.md R81, R83, R85). -/
def presentWord : PortWord → Event
  | .ctlBus w => .ctl none (some w)
  | .blkReq w => .blkReq w
  | .sensor w => .ctl (some w) none

/-- The state in which the next step is the cycle that presents this table word (log entry 3);
unchanged where the bits are no word of a port. -/
def presentTableWord (s : State) (nbits w : Nat) : State :=
  match portWordOf nbits w with
  | .ok p => { s with schedule := presentWord p :: s.schedule }
  | .error _ => s

end Sys2Proof.Machine
end

