-- ==== Sys2Proof/Machine/Step.lean ====
section
/-! DEFINITION. One step of the machine. -/

namespace Sys2Proof.Machine

/-- One step: an illegal configuration is refused (00_scope.md R10); else the next event of the
schedule is taken (00_scope.md R15). -/
def step (s : State) : Host.Outcome State Fault Refusal :=
  if legalConfig s.cfg then takeNext s else .refused .illegalConfiguration

/-- The operation of a table word, presented so that the next step runs it (log entry 3). -/
def State.withFetchWord (s : State) (nbits w : Nat) : State := presentTableWord s nbits w

end Sys2Proof.Machine
end

