-- ==== Sys2Proof/Machine/Fairness.lean ====
section
/-! DEFINITION. Runs without end and the weak fairness of the handoff agents (spec/20_memory.md
R68, spec/92_eei_decisions.md D44). A `schedule` in State is finite; here the events of a run are a
sequence, one for each step, and fairness is a predicate on the run (log entry 15). -/

namespace Sys2Proof.Machine

/-! ### One handed-off field, whichever it is -/

/-- `ctl.f` (20_memory.md R64). -/
def controlWord (f : Field) (c : Ctl) : Word :=
  match f with
  | .tfreq => c.tfreq
  | .tamp => c.tamp
  | .gain => c.gain
  | .runstate => runstateWord c

/-- `aud.r_f` (10_state.md R33). -/
def shadowWord (f : Field) (a : Aud) : Word :=
  match f with
  | .tfreq => a.rTfreq
  | .tamp => a.rTamp
  | .gain => a.rGain
  | .runstate => a.rRunstate

/-- `ctl.pend_f` and `ctl.cp_f` (10_state.md R32). -/
def fieldSync (f : Field) (c : Ctl) : Sync :=
  match f with
  | .tfreq => c.syncTfreq
  | .tamp => c.syncTamp
  | .gain => c.syncGain
  | .runstate => c.syncRunstate

/-- The word of field `f` that the block just accepted uses (40_oscillator.md R112): its snapshot,
and for runstate the word `rs`, which acceptance reads and leaves where it is. -/
def snapshotWord (f : Field) (a : Aud) : Word :=
  match f with
  | .tfreq => a.sTfreq
  | .tamp => a.sTamp
  | .gain => a.sGain
  | .runstate => a.rRunstate

/-- Operation `i` writes `ctl.f` in state `s` (10_state.md R21 to R24): the host's writes, the
mapper's in a processed sample, and a START or STOP that takes effect. -/
def operationWrites (f : Field) (s : State) (i : Instr) : Bool :=
  match f, i with
  | .tfreq, .wrTargetFreq _ => true
  | .tfreq, .sens _ => s.ctl.run && !s.ctl.pause
  | .tamp, .wrTargetAmp _ => true
  | .gain, .wrVolume _ => true
  | .runstate, .wrCmd d => if cmdStop d then s.ctl.run else cmdStart d && !s.ctl.run
  | _, _ => false

/-- Event `e` writes `ctl.f` in state `s`; only a `clk_ctl` cycle can. A reset is no write
(70_reset_and_hazards.md R223). -/
def eventWrites (f : Field) (s : State) (e : Event) : Bool :=
  match e with
  | .ctl sample bus =>
    sample.any (fun r => operationWrites f s (decode (.sensor r))) ||
      bus.any (fun w => operationWrites f s (decode (.ctlBus w)))
  | _ => false

/-! ### Agents, runs and fairness -/

/-- The agent of event `e` may take that step in state `s`. The handoff agents always may
(20_memory.md R64 to R66); the environment may present its inputs at any time
(60_exceptions.md R209); RENDER and CONSUME have their conditions (40_oscillator.md R117, R118,
R126). -/
def eventEnabled (e : Event) (s : State) : Bool :=
  match e with
  | .ctl _ _ => true
  | .blkReq _ => true
  | .render => renderEnabled s.aud
  | .consume => s.aud.outFull
  | .copy _ => true
  | .ack _ => true
  | .copyBlk => true
  | .copySilent => true
  | .reset => true

/-- The steps of the handoff agents, one agent each (00_scope.md R15, 20_memory.md R68). -/
def handoffAgents : List Event :=
  [.copy .tfreq, .copy .tamp, .copy .gain, .copy .runstate,
   .ack .tfreq, .ack .tamp, .ack .gain, .ack .runstate, .copyBlk, .copySilent]

/-- `run` is a run without end whose step `n` takes event `es n`. -/
def IsRun (es : Nat → Event) (run : Nat → State) : Prop :=
  ∀ n, step { run n with schedule := [es n] } = .next (run (n + 1))

/-- Weak fairness: a handoff agent that stays enabled takes a step eventually
(20_memory.md R68). -/
def WeaklyFair (es : Nat → Event) (run : Nat → State) : Prop :=
  ∀ a ∈ handoffAgents, ∀ n, (∀ k ≥ n, eventEnabled a (run k) = true) → ∃ k ≥ n, es k = a

/-- A run of the hardware as 20_memory.md R68 promises it. -/
def FairRun (es : Nat → Event) (run : Nat → State) : Prop := IsRun es run ∧ WeaklyFair es run

end Sys2Proof.Machine
end

