-- ==== Sys2Proof/Safety.lean ====
section
/-! DEFINITION. The vocabulary of the claims: the register map as an address map, runs over a
schedule, the invariants of spec/10_state.md R41, spec/60_exceptions.md R205 and
spec/20_memory.md R69, and the views that noninterference compares. -/

namespace Sys2Proof.Machine

/-! ### The register space -/

/-- The word a bus read of address `a` returns in state `s`, from the register map of
30_encoding.md R90 to R103. -/
def registerValue (a : RegAddr) (s : State) : Word :=
  match a.toNat with
  | 0x00 => 0x4F445331
  | 0x02 => if s.ctl.pause then 1 else 0
  | 0x03 => statusWord s.cfg s.ctl
  | 0x04 => s.ctl.tfreq
  | 0x05 => s.ctl.tamp
  | 0x07 => s.ctl.gain
  | 0x08 => s.ctl.smoothed
  | 0x09 => s.ctl.cntRender
  | 0x0A => s.ctl.cntSensor
  | 0x0B => BitVec.ofNat 32 (s.cfg.t % 65536 * 65536 + s.cfg.tableLog2 % 32)
  | 0x0C => BitVec.ofNat 32 (s.cfg.fs % 16777216)
  | _ => 0

/-- A bus read of address `a`, whatever D is, is the operation `i`, and it drives `ctl_rdata` with
`v` of the state and changes nothing else. -/
def ReadsAs (a : RegAddr) (i : Instr) (v : State → Word) : Prop :=
  (∀ d : Word, decode (.ctlBus (busWord false a d)) = i) ∧
    ∀ s : State, exec i s = .next { s with ports := { s.ports with rdata := some (v s) } }

/-- A bus write of address `a` is the operation `i d`, and it makes of `s` the state `t d s`. -/
def WritesAs (a : RegAddr) (i : Word → Instr) (t : Word → State → State) : Prop :=
  ∀ d : Word, decode (.ctlBus (busWord true a d)) = i d ∧ ∀ s : State, exec (i d) s = .next (t d s)

/-! ### Runs -/

/-- The run of a schedule from `s`: one step per event, in place of the schedule `s` had. -/
def runSchedule (es : List Event) (s : State) : Result :=
  core.run es.length { s with schedule := es }

/-- The state in which the next event of `s` is taken: it is off the schedule and every output is
released (30_encoding.md R82, 00_scope.md R14). -/
def eventStart (s : State) (rest : List Event) : State :=
  { s with ports := Ports.quiet, schedule := rest }

/-- The handoff steps that bring every written field across and acknowledge it
(20_memory.md R64, R65). -/
def handoffSteps : List Event :=
  [.copy .tfreq, .copy .tamp, .copy .gain, .copy .runstate,
   .ack .tfreq, .ack .tamp, .ack .gain, .ack .runstate]

/-- The steps that produce and hand over `n` samples. -/
def sampleSteps : Nat → List Event
  | 0 => []
  | n + 1 => .render :: .consume :: sampleSteps n

/-- One `clk_ctl` cycle per sample, with nothing on the bus. -/
def sampleCycles (rs : List Word) : List Event := rs.map (fun r => .ctl (some r) none)

/-- States of the machine built with a legal configuration, after any steps under any schedule. -/
inductive Reachable (c : Config) : State → Prop where
  | start (es : List Event) : Reachable c { State.resetWith c with schedule := es }
  | next {s t : State} (hs : Reachable c s) (h : step s = .next t) : Reachable c t

/-! ### Invariants -/

/-- The debounce counter is bounded by T (10_state.md R41). -/
def DebounceBounded (s : State) : Prop := s.ctl.stillCount.toNat ≤ s.cfg.t

/-- A block in progress has frames, its index is in the block, a waiting sample belongs to a block,
and a block with no sample waiting has samples to come (10_state.md R41, 60_exceptions.md R205). -/
def SequencerSound (a : Aud) : Prop :=
  (a.busy = true → 1 ≤ a.frames.toNat ∧ a.idx.toNat ≤ a.frames.toNat) ∧
    (a.outFull = true → a.busy = true) ∧
    (a.busy = true → a.outFull = false → a.idx.toNat < a.frames.toNat)

/-- A field with no write pending has been copied, and a field that has been copied since its last
write has a shadow equal to it (10_state.md R32, 20_memory.md R69). -/
def SyncSound (y : Sync) (control shadow : Word) : Prop :=
  (y.pend = false → y.cp = true) ∧ (y.cp = true → shadow = control)

/-- The handoff bookkeeping of all four fields is sound. -/
def HandoffsSound (s : State) : Prop :=
  SyncSound s.ctl.syncTfreq s.ctl.tfreq s.aud.rTfreq ∧
    SyncSound s.ctl.syncTamp s.ctl.tamp s.aud.rTamp ∧
    SyncSound s.ctl.syncGain s.ctl.gain s.aud.rGain ∧
    SyncSound s.ctl.syncRunstate (runstateWord s.ctl) s.aud.rRunstate

/-- The invariant every step keeps. -/
def Inv (s : State) : Prop := DebounceBounded s ∧ SequencerSound s.aud ∧ HandoffsSound s

/-- The phase lies in [0, N) (40_oscillator.md R123). -/
def PhaseInTable (c : Config) (p : DWord) : Prop :=
  f64Ge p (uToF64 0) = true ∧ f64Ge p (uToF64 (tableSize c)) = false

/-- The increment of one sample at frequency `cf` lies in [0, N/2]: P_phase of
40_oscillator.md R123. -/
def IncrementBounded (c : Config) (cf : Word) : Prop :=
  f64Ge (f64Mul (f32ToF64 cf) (incrementK c)) (uToF64 0) = true ∧
    f64Ge (uToF64 (tableSize c / 2)) (f64Mul (f32ToF64 cf) (incrementK c)) = true

/-- A finite binary32 value other than zero. -/
def FiniteNonzero (a : Word) : Prop := ∃ neg n d, unpack32 a = .fin neg n d ∧ n ≠ 0

/-- A NaN pattern of binary32. -/
def IsNaN32 (a : Word) : Prop := unpack32 a = .nan

/-- A NaN pattern of binary64. -/
def IsNaN64 (a : DWord) : Prop := unpack64 a = .nan

/-! ### The pulses of a run -/

/-- A suspend or a resume request. -/
inductive HwRequest where
  | suspend
  | resume
  deriving DecidableEq, Repr

/-- The requests driven in the step just taken. -/
def requestsNow (s : State) : List HwRequest :=
  (if s.ports.hwSuspend then [.suspend] else []) ++ (if s.ports.hwResume then [.resume] else [])

/-- The requests of a run of `n` steps, in order; the run ends where a step does not go on. -/
def requestsOfRun : Nat → State → List HwRequest
  | 0, _ => []
  | n + 1, s =>
    match step s with
    | .next t => requestsNow t ++ requestsOfRun n t
    | .fault _ => []
    | .refused _ => []

/-- Requests alternate; the first is a resume if the detector was asleep, else a suspend
(43_stillness_fsm.md R180). -/
def alternating : Bool → List HwRequest → Bool
  | _, [] => true
  | asleep, .suspend :: l => !asleep && alternating true l
  | asleep, .resume :: l => asleep && alternating false l

/-- The event puts a START command on the bus, or resets the machine. -/
def restartsDetector : Event → Bool
  | .ctl _ (some w) =>
    match decode (.ctlBus w) with
    | .wrCmd d => cmdStart d && !cmdStop d
    | _ => false
  | .reset => true
  | _ => false

/-- Every smoothed value of a series of raw samples, from the smoothed value `m`, is still. -/
def allStill (c : Config) : Word → List Word → Prop
  | _, [] => True
  | m, r :: rs => f32Lt (smooth c m r) c.cutoff = true ∧ allStill c (smooth c m r) rs

/-! ### Views -/

/-- The render engine without the shadows of the parameter bank. -/
def engineOf (a : Aud) : Aud := { a with rTfreq := 0, rTamp := 0, rGain := 0, rRunstate := 0 }

/-- The event is a step of the render engine on its block in progress. -/
def isSampleStep : Event → Bool
  | .render => true
  | .consume => true
  | _ => false

/-- The event can neither begin a block nor reset the machine. -/
def keepsBlock : Event → Bool
  | .blkReq _ => false
  | .reset => false
  | _ => true

/-- The render domain without the registers no rule can read in its present state: the sequencer
while idle, the two steps outside mode RAMP, the output word while none waits (10_state.md R37,
93_implementation_defined.md I14). -/
def readableOf (a : Aud) : Aud :=
  let idle := !a.busy && !a.outFull
  let b := if idle then
      { a with frames := 0, idx := 0, mode := .zero, sTamp := 0, sTfreq := 0, sGain := 0 }
    else a
  let b := if b.mode = .zero then { b with ampStep := 0, freqStep := 0 } else b
  if a.outFull then b else { b with outWord := 0 }

/-- Two states that agree on everything a rule can read. -/
def SameReadable (s t : State) : Prop :=
  s.cfg = t.cfg ∧ s.ctl = t.ctl ∧ readableOf s.aud = readableOf t.aud ∧ s.ports = t.ports ∧
    s.stream = t.stream ∧ s.schedule = t.schedule

end Sys2Proof.Machine
end

