-- ==== Sys2Proof/Certificates/Slice0/Obligations.lean ====
section
/-! DEFINITION. The statements for the provers, in the order of OBLIGATIONS.json. Rule numbers are
those of spec/. An equation `exec i s = .next t` gives the result, the frame (every field that `t`
does not name is the one of `s`) and the completion at once. -/

open Sys2Proof Sys2Proof.Machine

/-! ### Encoding -/

/-- 30_encoding.md R81, R83, R85, R105: decoding the word of any well-formed operation gives the
operation back, with every operand at every value the encoding admits. -/
def Obligations.DecodeInvertsEncode : Prop :=
  ∀ i : Instr, i.wellFormed = true → decode (encode i) = i

/-- 30_encoding.md R81, R105, R106: every word of every port decodes to a well-formed operation,
and that operation's own word is the word again, but for the D of a read, which is masked out. -/
def Obligations.EncodeInvertsDecode : Prop :=
  ∀ p : PortWord, (decode p).wellFormed = true ∧
    encode (decode p) =
      match p with
      | .ctlBus w => .ctlBus (if BusWord.we w then w else busWord false (BusWord.addr w) 0)
      | .blkReq w => .blkReq w
      | .sensor w => .sensor w

/-- 30_encoding.md R105: the first row of the opcode table that matches a bus word is the row of
the decoded operation; a BLK_REQ word is always BLK and a SENS word always SENS. -/
def Obligations.DecoderFollowsOpcodeTable : Prop :=
  (∀ w : BusWord, busRows.findIdx (fun r => r.hits w) = (decode (.ctlBus w)).row) ∧
    (∀ w : BlkWord, decode (.blkReq w) = .blk w) ∧
    (∀ w : Word, decode (.sensor w) = .sens w)

/-- Words of 95_test_vectors.md sections 2.2 and 3 decode to the operations they stand for. -/
def Obligations.WrittenOutWordsDecode : Prop :=
  decodeTableWord 40 0x0300000000 = some .rdStatus ∧
    decodeTableWord 40 0x3F00000000 = some (.rdReserved 0x3F) ∧
    decodeTableWord 40 0x4100000001 = some (.wrCmd 1) ∧
    decodeTableWord 40 0x4640200000 = some (.wrVolume 0x40200000) ∧
    decodeTableWord 40 0x4441000000 = some (.wrTargetFreq 0x41000000) ∧
    decodeTableWord 16 0x0064 = some (.blk 100) ∧
    decodeTableWord 32 0x3D4CCCCD = some (.sens 0x3D4CCCCD)

/-! ### The step -/

/-- 00_scope.md R2, R15, 41_param_channel.md R140: when a word is presented on its port and nothing
else happens in the cycle, the step is `exec` of the decoded operation, from the state with the
event off the schedule and every output released. -/
def Obligations.StepRunsPresentedOperation : Prop :=
  ∀ (s : State) (p : PortWord) (rest : List Event),
    legalConfig s.cfg = true → s.schedule = presentWord p :: rest →
    (decode p).wellFormed = true ∧ step s = exec (decode p) (eventStart s rest)

/-- 60_exceptions.md R204, steps 1 to 4: in a cycle with a sample and a bus word, a read returns
the value it has before the sample, and a write is applied to the state after the sample. -/
def Obligations.CycleReadsThenSamplesThenWrites : Prop :=
  ∀ (s : State) (r : Word) (w : BusWord) (rest : List Event),
    legalConfig s.cfg = true → s.schedule = .ctl (some r) (some w) :: rest →
    ∃ u, exec (.sens r) (eventStart s rest) = .next u ∧
      (BusWord.we w = false →
        ∃ v, exec (decode (.ctlBus w)) (eventStart s rest) =
            .next { eventStart s rest with ports := { Ports.quiet with rdata := some v } } ∧
          step s = .next { u with ports := { u.ports with rdata := some v } }) ∧
      (BusWord.we w = true → step s = exec (decode (.ctlBus w)) u)

/-- 60_exceptions.md R204, consequences, with a sample that is processed (running, not paused) or
dropped (stopped): the host's frequency wins over the mapper's; SNAP counts the sample; STOP and
PAUSE do not stop the sample of their own cycle; START does not admit it. -/
def Obligations.SameCycleHostWriteComesLast : Prop :=
  ∀ (s t : State) (r d : Word) (rest : List Event),
    (s.ctl.run = true → s.ctl.pause = false →
      (s.schedule = .ctl (some r) (some (busWord true 0x04 d)) :: rest → step s = .next t →
        t.ctl.tfreq = d ∧ t.ctl.sensCount = s.ctl.sensCount + 1) ∧
      (s.schedule = .ctl (some r) (some (busWord true 0x01 0x4)) :: rest → step s = .next t →
        t.ctl.cntSensor = s.ctl.sensCount + 1 ∧ t.ctl.sensCount = 0) ∧
      (s.schedule = .ctl (some r) (some (busWord true 0x01 0x2)) :: rest → step s = .next t →
        t.ctl.run = false ∧ t.ctl.sensCount = s.ctl.sensCount + 1) ∧
      (s.schedule = .ctl (some r) (some (busWord true 0x02 0x1)) :: rest → step s = .next t →
        t.ctl.pause = true ∧ t.ctl.sensCount = s.ctl.sensCount + 1)) ∧
    (s.ctl.run = false →
      s.schedule = .ctl (some r) (some (busWord true 0x01 0x1)) :: rest → step s = .next t →
        t.ctl.run = true ∧ t.ctl.sensCount = s.ctl.sensCount ∧ t.ctl.smoothed = 0 ∧
          t.ctl.stillCount = 0)

/-- 00_scope.md R10: a configuration with a parameter out of its range, a table of another length
than N or an entry outside [-1.0, 1.0] is refused, and only such a one is. -/
def Obligations.IllegalConfigurationIsRefused : Prop :=
  ∀ s : State, step s = .refused .illegalConfiguration ↔
    ¬ (1 ≤ s.cfg.tableLog2 ∧ s.cfg.tableLog2 ≤ 16 ∧ 1 ≤ s.cfg.fs ∧ s.cfg.fs ≤ 16777215 ∧
        1 ≤ s.cfg.t ∧ s.cfg.t ≤ 65535 ∧
        ∀ ws, s.cfg.wt = .entries ws → ws.length = 2 ^ s.cfg.tableLog2 ∧
          ∀ v ∈ ws, f32Le 0xBF800000 v = true ∧ f32Le v 0x3F800000 = true)

/-- 60_exceptions.md R200: with a legal configuration no step stops, whatever the state, the event
and its operands. -/
def Obligations.NoStepOfALegalMachineStops : Prop :=
  ∀ s : State, legalConfig s.cfg = true → ∃ t, step s = .next t

/-- MODEL'S CHOICE (log entries 2 and 7): a step with an empty schedule, a `clk_ctl` cycle in which
nothing is presented, and a RENDER or CONSUME event where that step is not enabled change nothing
but release the outputs. -/
def Obligations.EventsWithNothingToDoChangeNothing : Prop :=
  ∀ s : State, legalConfig s.cfg = true →
    (s.schedule = [] → step s = .next { s with ports := Ports.quiet }) ∧
    ∀ rest : List Event,
      (s.schedule = .ctl none none :: rest → step s = .next (eventStart s rest)) ∧
      (s.schedule = .render :: rest →
        s.aud.busy = false ∨ s.aud.frames.toNat ≤ s.aud.idx.toNat ∨ s.aud.outFull = true →
        step s = .next (eventStart s rest)) ∧
      (s.schedule = .consume :: rest → s.aud.outFull = false → step s = .next (eventStart s rest))

/-- 10_state.md R20, 70_reset_and_hazards.md R221: no step writes the configuration. -/
def Obligations.NoStepWritesTheConfiguration : Prop :=
  ∀ s t : State, step s = .next t → t.cfg = s.cfg

/-! ### Bus reads -/

/-- 41_param_channel.md R141, R153, R156, R162: ID reads "ODS1"; CMD, VOLUME and the reserved
addresses read 0. -/
def Obligations.ConstantRegistersRead : Prop :=
  ReadsAs 0x00 .rdId (fun _ => 0x4F445331) ∧
    ReadsAs 0x01 .rdCmd (fun _ => 0) ∧
    ReadsAs 0x06 .rdVolume (fun _ => 0) ∧
    ∀ a : RegAddr, 0x0D ≤ a.toNat → ReadsAs a (.rdReserved a) (fun _ => 0)

/-- 41_param_channel.md R157, R158, R159: the telemetry registers read the published magnitude and
the two latches. -/
def Obligations.TelemetryRegistersRead : Prop :=
  ReadsAs 0x08 .rdMagnitude (fun s => s.ctl.smoothed) ∧
    ReadsAs 0x09 .rdCntRender (fun s => s.ctl.cntRender) ∧
    ReadsAs 0x0A .rdCntSensor (fun s => s.ctl.cntSensor)

/-- 41_param_channel.md R160, R161: CONFIG is {T, eleven zeros, TABLE_LOG2} and SAMPLE_RATE is
{eight zeros, FS}, 0x0032000C and 0x0000BB80 under the default configuration; in a legal
configuration the fields hold the parameters whole. -/
def Obligations.ConfigurationRegistersRead : Prop :=
  ReadsAs 0x0B .rdConfig
      (fun s => BitVec.ofNat 16 s.cfg.t ++ (0 : BitVec 11) ++ BitVec.ofNat 5 s.cfg.tableLog2) ∧
    ReadsAs 0x0C .rdSampleRate (fun s => (0 : BitVec 8) ++ BitVec.ofNat 24 s.cfg.fs) ∧
    exec .rdConfig State.reset =
      .next { State.reset with ports := { Ports.quiet with rdata := some 0x0032000C } } ∧
    exec .rdSampleRate State.reset =
      .next { State.reset with ports := { Ports.quiet with rdata := some 0x0000BB80 } } ∧
    ∀ c : Config, legalConfig c = true →
      (BitVec.ofNat 16 c.t).toNat = c.t ∧ (BitVec.ofNat 5 c.tableLog2).toNat = c.tableLog2 ∧
        (BitVec.ofNat 24 c.fs).toNat = c.fs

/-- 30_encoding.md R93, 41_param_channel.md R155: the STATUS word, bit field by bit field, and its
value after reset; a write to it is ignored. -/
def Obligations.StatusRegisterReads : Prop :=
  ∃ v : State → Word, ReadsAs 0x03 .rdStatus v ∧ v State.reset = 0x00000004 ∧
    WritesAs 0x03 (.wrIgnored 0x03) (fun _ s => s) ∧
    ∀ s : State,
      (v s).getLsbD 0 = s.ctl.run ∧
      ((v s).getLsbD 1 = true ↔ s.ctl.stillCount.toNat = s.cfg.t) ∧
      (v s).getLsbD 2 = s.ctl.silentSeen ∧
      ((v s).getLsbD 3 = true ↔ s.ctl.syncTfreq.pend = true ∨ s.ctl.syncTamp.pend = true ∨
        s.ctl.syncGain.pend = true ∨ s.ctl.syncRunstate.pend = true) ∧
      (v s).extractLsb' 4 4 = 0 ∧
      (v s).extractLsb' 8 16 = s.ctl.stillCount ∧
      (v s).extractLsb' 24 8 = 0

/-- 20_memory.md R51, R58, 30_encoding.md R90 to R103: every bus word with WE = 0 drives the value
the register map gives its address, whatever D is, and changes no state. -/
def Obligations.EveryBusReadFollowsTheRegisterMap : Prop :=
  ∀ (w : BusWord) (s : State), BusWord.we w = false →
    exec (decode (.ctlBus w)) s =
      .next { s with ports := { s.ports with rdata := some (registerValue (BusWord.addr w) s) } }

/-! ### Bus writes -/

/-- 30_encoding.md R94, R95: TARGET_FREQ and TARGET_AMP store any bit pattern as is and read it
back; their reset values are 100.0 and 0. A write sets the field's handoff flags
(10_state.md R32) and changes nothing else. -/
def Obligations.TargetRegisters : Prop :=
  WritesAs 0x04 .wrTargetFreq
      (fun d s => { s with ctl := { s.ctl with tfreq := d, syncTfreq := ⟨true, false⟩ } }) ∧
    ReadsAs 0x04 .rdTargetFreq (fun s => s.ctl.tfreq) ∧
    State.reset.ctl.tfreq = 0x42C80000 ∧
    WritesAs 0x05 .wrTargetAmp
      (fun d s => { s with ctl := { s.ctl with tamp := d, syncTamp := ⟨true, false⟩ } }) ∧
    ReadsAs 0x05 .rdTargetAmp (fun s => s.ctl.tamp) ∧
    State.reset.ctl.tamp = 0x00000000

/-- 30_encoding.md R96, R97: a VOLUME write sets the master gain to GAIN_SAFETY times the volume,
rounded once; VOLUME reads 0; MASTER_GAIN reads the gain, resets to 0 and ignores writes. -/
def Obligations.VolumeAndMasterGainRegisters : Prop :=
  WritesAs 0x06 .wrVolume (fun d s =>
      { s with ctl := { s.ctl with
          gain := f32Mul s.cfg.gainSafety d, syncGain := ⟨true, false⟩ } }) ∧
    ReadsAs 0x06 .rdVolume (fun _ => 0) ∧
    ReadsAs 0x07 .rdMasterGain (fun s => s.ctl.gain) ∧
    WritesAs 0x07 (.wrIgnored 0x07) (fun _ s => s) ∧
    State.reset.ctl.gain = 0

/-- 30_encoding.md R92: of a SENSOR_PAUSE write only bit 0 counts; a read gives it in bit 0 and
zeros above; its reset value is 0. -/
def Obligations.SensorPauseRegister : Prop :=
  WritesAs 0x02 .wrSensorPause
      (fun d s => { s with ctl := { s.ctl with pause := d.getLsbD 0 } }) ∧
    ReadsAs 0x02 .rdSensorPause (fun s => if s.ctl.pause then 0x00000001 else 0x00000000) ∧
    State.reset.ctl.pause = false

/-- 41_param_channel.md R163, 30_encoding.md R103: a write to any address but CMD, SENSOR_PAUSE,
TARGET_FREQ, TARGET_AMP and VOLUME is ignored; a reserved address reads 0. -/
def Obligations.OtherWritesAreIgnored : Prop :=
  (∀ a : RegAddr, a ≠ 0x01 → a ≠ 0x02 → a ≠ 0x04 → a ≠ 0x05 → a ≠ 0x06 →
      WritesAs a (.wrIgnored a) (fun _ s => s)) ∧
    ∀ a : RegAddr, 0x0D ≤ a.toNat → ReadsAs a (.rdReserved a) (fun _ => 0x00000000)

/-- 41_param_channel.md R148, R149: START while stopped sets run, takes the next epoch, marks
runstate for the handoff and restarts the debounce counter and the smoother; while running it does
nothing. STOP while running clears run and marks runstate for the handoff, whatever the START bit
is; while stopped it does nothing. -/
def Obligations.StartAndStopCommands : Prop :=
  ∀ (d : Word) (s : State), d.getLsbD 2 = false →
    (d.getLsbD 0 = true → d.getLsbD 1 = false → s.ctl.run = false → exec (.wrCmd d) s =
      .next { s with ctl := { s.ctl with
        run := true
        epoch := s.ctl.epoch + 1
        syncRunstate := ⟨true, false⟩
        stillCount := 0
        smoothed := 0x00000000 } }) ∧
    (d.getLsbD 0 = true → d.getLsbD 1 = false → s.ctl.run = true →
      exec (.wrCmd d) s = .next s) ∧
    (d.getLsbD 1 = true → s.ctl.run = true → exec (.wrCmd d) s =
      .next { s with ctl := { s.ctl with run := false, syncRunstate := ⟨true, false⟩ } }) ∧
    (d.getLsbD 1 = true → s.ctl.run = false → exec (.wrCmd d) s = .next s)

/-- 41_param_channel.md R151: SNAP latches both counts and restarts both periods in one step; a
second SNAP with nothing between latches 0 and 0. -/
def Obligations.SnapCommand : Prop :=
  ∀ s : State,
    exec (.wrCmd 0x4) s =
      .next { s with ctl := { s.ctl with
        cntRender := s.ctl.blkSeen - s.ctl.blkBase
        blkBase := s.ctl.blkSeen
        cntSensor := s.ctl.sensCount
        sensCount := 0 } } ∧
    ∀ t u, exec (.wrCmd 0x4) s = .next t → exec (.wrCmd 0x4) t = .next u →
      u.ctl.cntRender = 0 ∧ u.ctl.cntSensor = 0

/-- 41_param_channel.md R152: bits 31..3 are ignored, STOP wins over START, SNAP follows
independently, and no bit does nothing. Every CMD write completes and leaves the render domain,
the parameter fields, the pause bit and the block count copy as they were. -/
def Obligations.CommandBits : Prop :=
  ∀ (d : Word) (s : State),
    exec (.wrCmd d) s = exec (.wrCmd (d &&& 0x7)) s ∧
    (d.getLsbD 1 = true → exec (.wrCmd d) s = exec (.wrCmd (d &&& 0x6)) s) ∧
    (d.getLsbD 2 = true →
      exec (.wrCmd d) s = andThen (exec (.wrCmd (d &&& 0x3)) s) (exec (.wrCmd 0x4))) ∧
    (d &&& 0x7 = 0 → exec (.wrCmd d) s = .next s) ∧
    ∃ t, exec (.wrCmd d) s = .next t ∧ t.cfg = s.cfg ∧ t.aud = s.aud ∧ t.ports = s.ports ∧
      t.stream = s.stream ∧ t.schedule = s.schedule ∧
      t.ctl.tfreq = s.ctl.tfreq ∧ t.ctl.tamp = s.ctl.tamp ∧ t.ctl.gain = s.ctl.gain ∧
      t.ctl.pause = s.ctl.pause ∧ t.ctl.blkSeen = s.ctl.blkSeen ∧
      t.ctl.silentSeen = s.ctl.silentSeen ∧ t.ctl.syncTfreq = s.ctl.syncTfreq ∧
      t.ctl.syncTamp = s.ctl.syncTamp ∧ t.ctl.syncGain = s.ctl.syncGain

/-- 10_state.md R22, R23: the target amplitude changes only by a host write of TARGET_AMP, and the
master gain only by a host write of VOLUME, times GAIN_SAFETY (90_conflicts.md C5), or at reset. -/
def Obligations.OnlyTheHostSetsAmplitudeAndGain : Prop :=
  ∀ s t : State, step s = .next t →
    (t.ctl.tamp ≠ s.ctl.tamp →
      (∃ x w rest, s.schedule = .ctl x (some w) :: rest ∧
        decode (.ctlBus w) = .wrTargetAmp t.ctl.tamp) ∨
      ∃ rest, s.schedule = .reset :: rest) ∧
    (t.ctl.gain ≠ s.ctl.gain →
      (∃ x w rest v, s.schedule = .ctl x (some w) :: rest ∧
        decode (.ctlBus w) = .wrVolume v ∧ t.ctl.gain = f32Mul s.cfg.gainSafety v) ∨
      ∃ rest, s.schedule = .reset :: rest)

/-! ### The sensor path -/

/-- 44_sensor_ingest.md R190: while stopped or paused a sample is dropped. -/
def Obligations.SampleDroppedWhileStoppedOrPaused : Prop :=
  ∀ (r : Word) (s : State), s.ctl.run = false ∨ s.ctl.pause = true → exec (.sens r) s = .next s

/-- 44_sensor_ingest.md R191, R193, R194, 43_stillness_fsm.md R176, R177, 42_mapper.md R170, R171:
a processed sample is smoothed, counted, given to the stillness detector and to the mapper, and
nothing else changes. -/
def Obligations.ProcessedSample : Prop :=
  ∀ (r : Word) (s : State), s.ctl.run = true → s.ctl.pause = false →
    let m := f32Add (f32Mul s.cfg.alphaPrev s.ctl.smoothed) (f32Mul s.cfg.alphaRaw r)
    let c := s.ctl.stillCount
    exec (.sens r) s =
      .next { s with
        ctl := { s.ctl with
          smoothed := m
          sensCount := s.ctl.sensCount + 1
          stillCount :=
            if f32Lt m s.cfg.cutoff then (if c.toNat < s.cfg.t then c + 1 else c) else 0
          tfreq := f32Add s.cfg.mapBase (f32Mul m s.cfg.mapScale)
          syncTfreq := ⟨true, false⟩ }
        ports := { s.ports with
          hwSuspend := s.ports.hwSuspend ||
            (f32Lt m s.cfg.cutoff && decide (c.toNat < s.cfg.t) && decide (c.toNat + 1 = s.cfg.t))
          hwResume := s.ports.hwResume ||
            (!f32Lt m s.cfg.cutoff && decide (s.cfg.t ≤ c.toNat)) } }

/-- 42_mapper.md R173, R170: under the default configuration the mapper gives 100 at 0 and 300 at
1. -/
def Obligations.MapperWorkedExamples : Prop :=
  f32Add Config.default.mapBase (f32Mul 0x00000000 Config.default.mapScale) = 0x42C80000 ∧
    f32Add Config.default.mapBase (f32Mul 0x3F800000 Config.default.mapScale) = 0x43960000 ∧
    ∀ c m, mapMagnitude c m = f32Add c.mapBase (f32Mul m c.mapScale)

/-- 43_stillness_fsm.md R179, R176, R177: no step drives both requests; a suspend is the move from
T - 1 to T, a resume the move from T to 0, and without a request the detector is asleep after the
step as it was before, but for a START or a reset, which leave the count at 0. -/
def Obligations.RequestsMarkTheDetectorsMoves : Prop :=
  ∀ s t : State, DebounceBounded s → step s = .next t →
    ¬ (t.ports.hwSuspend = true ∧ t.ports.hwResume = true) ∧
    (t.ports.hwSuspend = true →
      s.ctl.stillCount.toNat + 1 = s.cfg.t ∧ t.ctl.stillCount.toNat = t.cfg.t) ∧
    (t.ports.hwResume = true →
      s.ctl.stillCount.toNat = s.cfg.t ∧ t.ctl.stillCount.toNat = 0) ∧
    (t.ports.hwSuspend = false → t.ports.hwResume = false →
      sleeping t.cfg t.ctl = sleeping s.cfg s.ctl ∨
        (t.ctl.stillCount = 0 ∧ ∃ e rest, s.schedule = e :: rest ∧ restartsDetector e = true))

/-- 43_stillness_fsm.md R180: over any run without a START and without a reset, suspend and resume
requests strictly alternate, beginning with a suspend unless the detector is asleep. -/
def Obligations.SuspendAndResumeAlternate : Prop :=
  ∀ (es : List Event) (s : State), DebounceBounded s →
    (∀ e ∈ es, restartsDetector e = false) →
    alternating (sleeping s.cfg s.ctl) (requestsOfRun es.length { s with schedule := es }) = true

/-- 43_stillness_fsm.md R181: from count c < T, exactly T - c consecutive still samples reach
SLEEPING, and exactly the last of them issues the suspend. -/
def Obligations.DebounceTakesExactlyTSamples : Prop :=
  ∀ (s : State) (rs : List Word), legalConfig s.cfg = true → s.ctl.run = true →
    s.ctl.pause = false → s.ctl.stillCount.toNat + rs.length = s.cfg.t → rs ≠ [] →
    allStill s.cfg s.ctl.smoothed rs →
    (∃ t, runSchedule (sampleCycles rs) s = .next t ∧ sleeping t.cfg t.ctl = true) ∧
    requestsOfRun rs.length { s with schedule := sampleCycles rs } = [.suspend] ∧
    ∀ k < rs.length, requestsOfRun k { s with schedule := sampleCycles rs } = []

/-! ### Block requests -/

/-- 30_encoding.md R84, 40_oscillator.md R111: a request while a block is in progress has no
effect; a request while none is is accepted and counted, and one of zero frames completes at once
and changes nothing else. -/
def Obligations.BlockRequestAcceptance : Prop :=
  ∀ (f : BlkWord) (s : State),
    (s.aud.busy = true → exec (.blk f) s = .next s) ∧
    (s.aud.busy = false →
      ∃ t, exec (.blk f) s = .next t ∧ t.aud.blkTotal = s.aud.blkTotal + 1) ∧
    (s.aud.busy = false → f = 0 → exec (.blk f) s =
      .next { s with
        aud := { s.aud with blkTotal := s.aud.blkTotal + 1 }
        ports := { s.ports with blkDone := true } })

/-- 40_oscillator.md R111, R112, R113: a block accepted while the render domain sees the engine
stopped takes its snapshot and emits zeros; the oscillator state and the seen epoch stay. -/
def Obligations.BlockWhileStopped : Prop :=
  ∀ (f : BlkWord) (s : State), s.aud.busy = false → f ≠ 0 → s.aud.rRunstate.getLsbD 0 = false →
    exec (.blk f) s =
      .next { s with aud := { s.aud with
        blkTotal := s.aud.blkTotal + 1
        busy := true, frames := f, idx := 0
        sTamp := s.aud.rTamp, sTfreq := s.aud.rTfreq, sGain := s.aud.rGain
        mode := .zero } }

/-- 40_oscillator.md R111 to R114: a block that finds target and current amplitude at most EPS,
after the re-initialisation a new epoch causes, emits zeros, sets the current amplitude to +0.0 and
keeps current frequency and phase. -/
def Obligations.SilentBlock : Prop :=
  ∀ (f : BlkWord) (s : State), s.aud.busy = false → f ≠ 0 → s.aud.rRunstate.getLsbD 0 = true →
    let epoch := s.aud.rRunstate.extractLsb' 1 31
    let amp := if epoch = s.aud.seenEpoch then s.aud.curAmp else 0
    f32Le s.aud.rTamp s.cfg.eps = true → f32Le amp s.cfg.eps = true →
    exec (.blk f) s =
      .next { s with aud := { s.aud with
        blkTotal := s.aud.blkTotal + 1
        busy := true, frames := f, idx := 0
        sTamp := s.aud.rTamp, sTfreq := s.aud.rTfreq, sGain := s.aud.rGain
        seenEpoch := epoch
        phase := if epoch = s.aud.seenEpoch then s.aud.phase else 0
        curFreq := if epoch = s.aud.seenEpoch then s.aud.curFreq else 0
        curAmp := 0x00000000
        isSilent := true
        mode := .zero } }

/-- 40_oscillator.md R111 to R115: any other block of a running engine clears the silence flag and
sets up the ramp from the current values, after the re-initialisation a new epoch causes. -/
def Obligations.RampBlock : Prop :=
  ∀ (f : BlkWord) (s : State), s.aud.busy = false → f ≠ 0 → s.aud.rRunstate.getLsbD 0 = true →
    let epoch := s.aud.rRunstate.extractLsb' 1 31
    let amp := if epoch = s.aud.seenEpoch then s.aud.curAmp else 0
    let freq := if epoch = s.aud.seenEpoch then s.aud.curFreq else 0
    ¬ (f32Le s.aud.rTamp s.cfg.eps = true ∧ f32Le amp s.cfg.eps = true) →
    exec (.blk f) s =
      .next { s with aud := { s.aud with
        blkTotal := s.aud.blkTotal + 1
        busy := true, frames := f, idx := 0
        sTamp := s.aud.rTamp, sTfreq := s.aud.rTfreq, sGain := s.aud.rGain
        seenEpoch := epoch
        phase := if epoch = s.aud.seenEpoch then s.aud.phase else 0
        curFreq := freq
        curAmp := amp
        isSilent := false
        ampStep := f32Div (f32Sub s.aud.rTamp amp) (uToF32 f.toNat)
        freqStep := f32Div (f32Sub s.aud.rTfreq freq) (uToF32 f.toNat)
        mode := .ramp } }

/-! ### Samples -/

/-- 40_oscillator.md R117: an enabled RENDER in mode ZERO emits +0.0 and changes no oscillator
state. -/
def Obligations.RenderZeroSample : Prop :=
  ∀ (s : State) (rest : List Event), legalConfig s.cfg = true → s.schedule = .render :: rest →
    s.aud.busy = true → s.aud.mode = .zero → s.aud.idx.toNat < s.aud.frames.toNat →
    s.aud.outFull = false →
    step s = .next { eventStart s rest with aud := { s.aud with
      outWord := 0x00000000, outFull := true, idx := s.aud.idx + 1 } }

/-- 40_oscillator.md R118 to R125: an enabled RENDER in mode RAMP advances amplitude and frequency,
reads the table at the old phase, advances the phase by the new frequency with one wrap, and after
the block's last sample snaps amplitude and frequency to the snapshot. -/
def Obligations.RenderRampSample : Prop :=
  ∀ (s : State) (rest : List Event), legalConfig s.cfg = true → s.schedule = .render :: rest →
    s.aud.busy = true → s.aud.mode = .ramp → s.aud.idx.toNat < s.aud.frames.toNat →
    s.aud.outFull = false →
    let ca := f32Add s.aud.curAmp s.aud.ampStep
    let cf := f32Add s.aud.curFreq s.aud.freqStep
    let raw := tableRead s.cfg (floorModN s.cfg s.aud.phase)
    let p := f64Add s.aud.phase (f64Mul (f32ToF64 cf) (incrementK s.cfg))
    let n := uToF64 (2 ^ s.cfg.tableLog2)
    let last : Bool := s.aud.idx.toNat + 1 == s.aud.frames.toNat
    step s = .next { eventStart s rest with aud := { s.aud with
      outWord := f32Mul (f32Mul raw ca) s.aud.sGain
      outFull := true
      curAmp := if last then s.aud.sTamp else ca
      curFreq := if last then s.aud.sTfreq else cf
      phase := if f64Ge p n then f64Sub p n else p
      idx := s.aud.idx + 1 } }

/-- 40_oscillator.md R126: CONSUME appends the waiting word to the output stream; after the block's
last sample `blk_done` pulses and the block ends. -/
def Obligations.ConsumeSample : Prop :=
  ∀ (s : State) (rest : List Event), legalConfig s.cfg = true → s.schedule = .consume :: rest →
    s.aud.outFull = true →
    (s.aud.idx = s.aud.frames → step s = .next { eventStart s rest with
      stream := s.stream ++ [s.aud.outWord]
      aud := { s.aud with outFull := false, busy := false }
      ports := { Ports.quiet with blkDone := true } }) ∧
    (s.aud.idx ≠ s.aud.frames → step s = .next { eventStart s rest with
      stream := s.stream ++ [s.aud.outWord]
      aud := { s.aud with outFull := false } })

/-- 60_exceptions.md R205: in every state with a sound sequencer exactly one of acceptance, RENDER
and CONSUME (given a ready sink) is enabled. -/
def Obligations.ExactlyOneRenderStepIsEnabled : Prop :=
  ∀ a : Aud, SequencerSound a →
    (blkReady a = true ∧ renderEnabled a = false ∧ outValid a = false) ∨
    (blkReady a = false ∧ renderEnabled a = true ∧ outValid a = false) ∨
    (blkReady a = false ∧ renderEnabled a = false ∧ outValid a = true)

/-- 40_oscillator.md R126, R128: an accepted request of F >= 1 frames, its F RENDER steps and F
CONSUME steps append exactly F words to the stream, end the block and pulse `blk_done`, and no
earlier step of them ends it. -/
def Obligations.BlockEmitsExactlyItsFrames : Prop :=
  ∀ (f : BlkWord) (s : State), legalConfig s.cfg = true → s.aud.busy = false →
    s.aud.outFull = false → f ≠ 0 →
    (∃ t ws, runSchedule (.blkReq f :: sampleSteps f.toNat) s = .next t ∧
      t.stream = s.stream ++ ws ∧ ws.length = f.toNat ∧ t.aud.busy = false ∧
      t.aud.outFull = false ∧ t.ports.blkDone = true) ∧
    ∀ k < 2 * f.toNat, ∃ t,
      core.run (k + 1) { s with schedule := .blkReq f :: sampleSteps f.toNat } = .next t ∧
      t.aud.busy = true ∧ t.ports.blkDone = false

/-- 40_oscillator.md R113, R114, R117: every word of a block accepted while stopped is +0.0, and so
is every word of a fast-path block. -/
def Obligations.SilentAndStoppedBlocksEmitPlusZero : Prop :=
  ∀ (f : BlkWord) (s : State), legalConfig s.cfg = true → s.aud.busy = false →
    s.aud.outFull = false → f ≠ 0 →
    (s.aud.rRunstate.getLsbD 0 = false ∨
      (f32Le s.aud.rTamp s.cfg.eps = true ∧
        f32Le (if s.aud.rRunstate.extractLsb' 1 31 = s.aud.seenEpoch then s.aud.curAmp else 0)
          s.cfg.eps = true)) →
    ∃ t, runSchedule (.blkReq f :: sampleSteps f.toNat) s = .next t ∧
      t.stream = s.stream ++ List.replicate f.toNat 0x00000000

/-- 40_oscillator.md R125, R129: a block that ramps ends with the current amplitude and frequency
equal to the snapshot taken at its acceptance, exactly, whatever the rounding of the ramp. -/
def Obligations.RampBlockEndsOnItsTargets : Prop :=
  ∀ (f : BlkWord) (s u : State), legalConfig s.cfg = true → s.aud.busy = false →
    s.aud.outFull = false → f ≠ 0 → exec (.blk f) s = .next u → u.aud.mode = .ramp →
    ∃ t, runSchedule (.blkReq f :: sampleSteps f.toNat) s = .next t ∧
      t.aud.curAmp = s.aud.rTamp ∧ t.aud.curFreq = s.aud.rTfreq ∧ t.aud.isSilent = false

/-- 40_oscillator.md R129: a block accepted at its target amplitude, a finite nonzero one above
EPS, has an amplitude step of +0.0, and each of its samples uses that amplitude exactly. -/
def Obligations.SteadyBlockKeepsItsAmplitude : Prop :=
  (∀ (f : BlkWord) (s t : State), s.aud.busy = false → f ≠ 0 →
    s.aud.rRunstate.getLsbD 0 = true → s.aud.rRunstate.extractLsb' 1 31 = s.aud.seenEpoch →
    s.aud.curAmp = s.aud.rTamp → FiniteNonzero s.aud.rTamp →
    f32Le s.aud.rTamp s.cfg.eps = false → exec (.blk f) s = .next t →
    t.aud.mode = .ramp ∧ t.aud.ampStep = 0 ∧ t.aud.curAmp = t.aud.sTamp) ∧
  (∀ (s t : State) (rest : List Event), s.schedule = .render :: rest →
    renderEnabled s.aud = true → s.aud.mode = .ramp → s.aud.ampStep = 0 →
    s.aud.curAmp = s.aud.sTamp → FiniteNonzero s.aud.sTamp → step s = .next t →
    t.aud.curAmp = t.aud.sTamp ∧ t.aud.outWord =
      f32Mul (f32Mul (tableRead s.cfg (floorModN s.cfg s.aud.phase)) s.aud.sTamp) s.aud.sGain)

/-- 40_oscillator.md R123: if the phase is in [0, N) and the sample's increment is in [0, N/2]
(P_phase), the phase is in [0, N) after the sample. -/
def Obligations.PhaseStaysInTheTable : Prop :=
  ∀ (s t : State) (rest : List Event), s.schedule = .render :: rest →
    renderEnabled s.aud = true → s.aud.mode = .ramp → PhaseInTable s.cfg s.aud.phase →
    IncrementBounded s.cfg (f32Add s.aud.curFreq s.aud.freqStep) → step s = .next t →
    PhaseInTable t.cfg t.aud.phase

/-- 40_oscillator.md R116, 20_memory.md R52: the table index is floor(p) mod N for a finite phase
and 0 for NaN and the infinities, and it is always below N. -/
def Obligations.TableIndexIsFloorModN : Prop :=
  ∀ (c : Config) (p : DWord), floorModN c p < 2 ^ c.tableLog2 ∧
    (∀ neg num den, unpack64 p = .fin neg num den →
      ((floorModN c p : Nat) : Int) = ⌊(if neg then -1 else 1 : ℚ) * num / den⌋ % 2 ^ c.tableLog2) ∧
    ((∀ neg num den, unpack64 p ≠ .fin neg num den) → floorModN c p = 0)

/-- 00_scope.md R10, 40_oscillator.md R124: in a legal configuration every table entry a render
step can read lies in [-1.0, 1.0], and with amplitude and gain in that range so does the output
sample. -/
def Obligations.LegalTableGivesBoundedOutput : Prop :=
  (∀ c p, legalConfig c = true → legalEntry (tableRead c (floorModN c p)) = true) ∧
    ∀ raw ca gain : Word, legalEntry raw = true → legalEntry ca = true → legalEntry gain = true →
      legalEntry (outputSample raw ca gain) = true

/-! ### The handoff -/

/-- 20_memory.md R64, R65, R66: what each handoff step does, for each field, and that it does
nothing else. -/
def Obligations.HandoffSteps : Prop :=
  ∀ (s : State) (e : Event) (rest : List Event), legalConfig s.cfg = true →
    s.schedule = e :: rest →
    let s0 := eventStart s rest
    (e = .copy .tfreq → step s = .next { s0 with
      aud := { s.aud with rTfreq := s.ctl.tfreq }
      ctl := { s.ctl with syncTfreq := { s.ctl.syncTfreq with cp := true } } }) ∧
    (e = .copy .tamp → step s = .next { s0 with
      aud := { s.aud with rTamp := s.ctl.tamp }
      ctl := { s.ctl with syncTamp := { s.ctl.syncTamp with cp := true } } }) ∧
    (e = .copy .gain → step s = .next { s0 with
      aud := { s.aud with rGain := s.ctl.gain }
      ctl := { s.ctl with syncGain := { s.ctl.syncGain with cp := true } } }) ∧
    (e = .copy .runstate → step s = .next { s0 with
      aud := { s.aud with rRunstate := s.ctl.epoch ++ BitVec.ofBool s.ctl.run }
      ctl := { s.ctl with syncRunstate := { s.ctl.syncRunstate with cp := true } } }) ∧
    (e = .ack .tfreq → step s = .next { s0 with ctl := { s.ctl with syncTfreq :=
      { s.ctl.syncTfreq with pend := s.ctl.syncTfreq.pend && !s.ctl.syncTfreq.cp } } }) ∧
    (e = .ack .tamp → step s = .next { s0 with ctl := { s.ctl with syncTamp :=
      { s.ctl.syncTamp with pend := s.ctl.syncTamp.pend && !s.ctl.syncTamp.cp } } }) ∧
    (e = .ack .gain → step s = .next { s0 with ctl := { s.ctl with syncGain :=
      { s.ctl.syncGain with pend := s.ctl.syncGain.pend && !s.ctl.syncGain.cp } } }) ∧
    (e = .ack .runstate → step s = .next { s0 with ctl := { s.ctl with syncRunstate :=
      { s.ctl.syncRunstate with
        pend := s.ctl.syncRunstate.pend && !s.ctl.syncRunstate.cp } } }) ∧
    (e = .copyBlk → step s = .next { s0 with
      ctl := { s.ctl with blkSeen := s.aud.blkTotal } }) ∧
    (e = .copySilent → step s = .next { s0 with
      ctl := { s.ctl with silentSeen := s.aud.isSilent } })

/-- 20_memory.md R69: in every state with sound handoffs, STATUS.SYNC_PEND = 0 means that every
shadow equals its control value, so a block accepted then takes the host's values as its
snapshot. -/
def Obligations.NoPendingWriteMeansShadowsAreCurrent : Prop :=
  ∀ s : State, HandoffsSound s → (statusWord s.cfg s.ctl).getLsbD 3 = false →
    s.aud.rTfreq = s.ctl.tfreq ∧ s.aud.rTamp = s.ctl.tamp ∧ s.aud.rGain = s.ctl.gain ∧
    s.aud.rRunstate = s.ctl.epoch ++ BitVec.ofBool s.ctl.run ∧
    ∀ (f : BlkWord) (t : State), s.aud.busy = false → f ≠ 0 → exec (.blk f) s = .next t →
      t.aud.sTfreq = s.ctl.tfreq ∧ t.aud.sTamp = s.ctl.tamp ∧ t.aud.sGain = s.ctl.gain

/-- 20_memory.md R64, R65, R68: once the handoff agents have taken their steps, nothing is pending
and every shadow equals its control value, from any state. -/
def Obligations.HandoffStepsBringEveryFieldAcross : Prop :=
  ∀ s : State, legalConfig s.cfg = true →
    ∃ t, runSchedule handoffSteps s = .next t ∧ syncPend t.ctl = false ∧
      t.aud.rTfreq = s.ctl.tfreq ∧ t.aud.rTamp = s.ctl.tamp ∧ t.aud.rGain = s.ctl.gain ∧
      t.aud.rRunstate = s.ctl.epoch ++ BitVec.ofBool s.ctl.run ∧ t.ctl.tfreq = s.ctl.tfreq

/-- 20_memory.md R63: a shadow changes only by its own COPY step (or at reset), and then it takes
the whole control word. -/
def Obligations.ShadowsChangeOnlyByTheirCopy : Prop :=
  ∀ (s t : State) (e : Event) (rest : List Event), s.schedule = e :: rest → e ≠ .reset →
    step s = .next t →
    (t.aud.rTfreq = if e = .copy .tfreq then s.ctl.tfreq else s.aud.rTfreq) ∧
    (t.aud.rTamp = if e = .copy .tamp then s.ctl.tamp else s.aud.rTamp) ∧
    (t.aud.rGain = if e = .copy .gain then s.ctl.gain else s.aud.rGain) ∧
    (t.aud.rRunstate =
      if e = .copy .runstate then s.ctl.epoch ++ BitVec.ofBool s.ctl.run else s.aud.rRunstate)

/-- 40_oscillator.md R127: nothing that happens during a block changes its output words or its end
state. Two runs from machines with the same configuration, render engine and stream, whose events
have the same RENDER and CONSUME steps in the same order and neither begin a block nor reset, end
with the same render engine and the same stream, whatever the host, the sensor and the handoff
agents do in each. -/
def Obligations.BlockIsIndependentOfTheControlDomain : Prop :=
  ∀ (es fs : List Event) (s t s' t' : State), s.cfg = t.cfg → engineOf s.aud = engineOf t.aud →
    s.stream = t.stream → (∀ e ∈ es, keepsBlock e = true) → (∀ e ∈ fs, keepsBlock e = true) →
    es.filter isSampleStep = fs.filter isSampleStep →
    runSchedule es s = .next s' → runSchedule fs t = .next t' →
    engineOf s'.aud = engineOf t'.aud ∧ s'.stream = t'.stream

/-- 10_state.md R37, 93_implementation_defined.md I14: no register the spec leaves unspecified
after reset is read before it is written. States that agree on everything a rule can read keep
agreeing, outputs included, over every step. So the values log entry 4 chooses never show. -/
def Obligations.UnspecifiedRegistersNeverShow : Prop :=
  ∀ s t s' : State, SameReadable s t → step s = .next s' →
    ∃ t', step t = .next t' ∧ SameReadable s' t'

/-! ### Reset and the invariant -/

/-- 10_state.md R43: the reset value of every element the table lists. -/
def Obligations.ResetValues : Prop :=
  let c := State.reset.ctl
  let a := State.reset.aud
  c.tfreq = 0x42C80000 ∧ a.rTfreq = 0x42C80000 ∧ c.tamp = 0 ∧ a.rTamp = 0 ∧ c.gain = 0 ∧
    a.rGain = 0 ∧ c.run = false ∧ c.epoch = 0 ∧ a.rRunstate = 0 ∧ c.pause = false ∧
    c.smoothed = 0 ∧ c.stillCount = 0 ∧ c.sensCount = 0 ∧ c.blkSeen = 0 ∧ c.blkBase = 0 ∧
    c.cntRender = 0 ∧ c.cntSensor = 0 ∧ c.silentSeen = true ∧
    c.syncTfreq = ⟨false, true⟩ ∧ c.syncTamp = ⟨false, true⟩ ∧ c.syncGain = ⟨false, true⟩ ∧
    c.syncRunstate = ⟨false, true⟩ ∧ a.phase = 0 ∧ a.curFreq = 0 ∧ a.curAmp = 0 ∧
    a.isSilent = true ∧ a.seenEpoch = 0 ∧ a.blkTotal = 0 ∧ a.busy = false ∧ a.outFull = false

/-- 70_reset_and_hazards.md R220, R221, R222: a reset in any state, during a block too, gives every
element the spec lists its reset value, keeps the configuration, drives no pulse and leaves
`blk_ready` 1 and `out_valid` 0. That the stream so far and the further schedule stay is the
MODEL'S CHOICE (log entry 6). -/
def Obligations.ResetStep : Prop :=
  ∀ (s : State) (rest : List Event), legalConfig s.cfg = true → s.schedule = .reset :: rest →
    ∃ t, step s = .next t ∧ t.ctl = State.reset.ctl ∧ SameReadable t
        { State.resetWith s.cfg with stream := s.stream, schedule := rest } ∧
      blkReady t.aud = true ∧ outValid t.aud = false ∧ t.ports = Ports.quiet

/-- 10_state.md R41, 60_exceptions.md R205, 20_memory.md R69: the invariant holds after reset, in
every configuration and under every schedule. -/
def Obligations.InvariantHoldsAtReset : Prop :=
  Inv State.reset ∧ ∀ (c : Config) (es : List Event), Inv { State.resetWith c with schedule := es }

/-- 10_state.md R41, 60_exceptions.md R205, 20_memory.md R69: every step keeps the invariant (the
debounce counter is at most T; a block in progress has frames, its index is in it and it can go on;
a waiting sample belongs to a block; a shadow whose field is not pending is current). -/
def Obligations.EveryStepKeepsTheInvariant : Prop :=
  ∀ s t : State, Inv s → step s = .next t → Inv t

/-! ### Arithmetic -/

/-- 00_scope.md R13: in both formats the rounding of an exact ratio is to nearest, ties to the even
pattern, among all finite patterns, subnormals included. The clause on infinity (infinite exactly
when the ratio is at least half way from the largest finite value to the next power of two) is
PRESUMED from IEEE 754 and not spelled out by R13: log entry 11. -/
def Obligations.RoundingIsToNearestEven : Prop :=
  ∀ f : Fmt, f = binary32 ∨ f = binary64 → ∀ num den : Nat, 0 < den →
    let m := f.roundMag num den
    let err := fun p : Nat => |(num : Int) - den * f.quanta p|
    (m = f.infBits ↔ den * (f.quanta (f.infBits - 1) + f.quanta f.infBits) ≤ 2 * num) ∧
    m ≤ f.infBits ∧
    (m < f.infBits → ∀ p < f.infBits, err m ≤ err p ∧ (err p = err m → p ≠ m → m % 2 = 0))

/-- 00_scope.md R13: every NaN an operation answers is the canonical quiet NaN of its format. -/
def Obligations.NaNResultsAreCanonical : Prop :=
  (∀ a b : Word, ∀ r ∈ [f32Add a b, f32Sub a b, f32Mul a b, f32Div a b],
      IsNaN32 r → r = 0x7FC00000) ∧
    (∀ a b : DWord, ∀ r ∈ [f64Add a b, f64Sub a b, f64Mul a b],
      IsNaN64 r → r = 0x7FF8000000000000) ∧
    ∀ a : Word, IsNaN64 (f32ToF64 a) → f32ToF64 a = 0x7FF8000000000000

/-- 00_scope.md R13: packing the value of a pattern that is no NaN gives the pattern back, in both
formats, and the widening of a binary32 value, the conversion of a frame count to binary32 and the
conversion of a table size to binary64 are exact. -/
def Obligations.ConversionsAreExact : Prop :=
  (∀ a : Word, ¬ IsNaN32 a → pack32 (unpack32 a) = a) ∧
    (∀ a : DWord, ¬ IsNaN64 a → pack64 (unpack64 a) = a) ∧
    (∀ (a : Word) (neg : Bool) (n d : Nat), unpack32 a = .fin neg n d →
      ∃ m e, unpack64 (f32ToF64 a) = .fin neg m e ∧ n * e = m * d) ∧
    (∀ n < 2 ^ 24, ∃ m e, unpack32 (uToF32 n) = .fin false m e ∧ m = n * e) ∧
    ∀ n < 2 ^ 53, ∃ m e, unpack64 (uToF64 n) = .fin false m e ∧ m = n * e

/-- 00_scope.md R10: in the default sine table of every legal size of at least four entries,
WT[0] = WT[N/2] = +0.0, WT[N/4] = 1.0 and WT[3N/4] = -1.0. -/
def Obligations.SineTableQuarterPoints : Prop :=
  ∀ l : Nat, 2 ≤ l → l ≤ 16 →
    let c := { Config.default with tableLog2 := l }
    tableRead c 0 = 0x00000000 ∧ tableRead c (2 ^ (l - 1)) = 0x00000000 ∧
      tableRead c (2 ^ (l - 2)) = 0x3F800000 ∧ tableRead c (3 * 2 ^ (l - 2)) = 0xBF800000

/-! ### Fair runs -/

/-- 20_memory.md R68: what weak fairness of the handoff agents promises. In every fair run and for
every field, from any step on, some later COPY copies the field, and until the next write (or reset)
the shadow is the control value and every block accepted uses it; some later ACK leaves the field
not pending until the next write; the block count and the silence flag arrive and stay while they do
not change. That a run is a sequence of events beside the states is the MODEL'S CHOICE (log
entry 15). -/
def Obligations.FairRunsBringEveryWriteAcross : Prop :=
  ∀ (es : Nat → Event) (run : Nat → State), FairRun es run →
    (∀ (f : Field) (n : Nat), ∃ m ≥ n, es m = .copy f ∧ ∀ k > m,
      (∀ j, n ≤ j → j < k → eventWrites f (run j) (es j) = false ∧ es j ≠ .reset) →
      shadowWord f (run k).aud = controlWord f (run n).ctl ∧
        ∀ (w : BlkWord) (t : State), (run k).aud.busy = false → w ≠ 0 →
          exec (.blk w) (run k) = .next t →
          snapshotWord f t.aud = controlWord f (run n).ctl) ∧
    (∀ (f : Field) (n : Nat), ∃ m ≥ n, es m = .ack f ∧ ∀ k > m,
      (∀ j, n ≤ j → j < k → eventWrites f (run j) (es j) = false) →
      (fieldSync f (run k).ctl).pend = false) ∧
    (∀ n : Nat, ∃ m ≥ n, es m = .copyBlk ∧ ∀ k > m,
      (∀ j, n ≤ j → j ≤ k → (run j).aud.blkTotal = (run n).aud.blkTotal) →
      (run k).ctl.blkSeen = (run n).aud.blkTotal) ∧
    ∀ n : Nat, ∃ m ≥ n, es m = .copySilent ∧ ∀ k > m,
      (∀ j, n ≤ j → j ≤ k → (run j).aud.isSilent = (run n).aud.isSilent) →
      (run k).ctl.silentSeen = (run n).aud.isSilent
end

