-- ==== Sys2Proof/Laws/State.lean ====
section
/-! SUPPORT. One lemma per field per update of State, each true by definition, so that no later
proof unfolds a record update. The updates are the named ones of Machine/Ops.lean. -/

namespace Sys2Proof.Machine

/-! ### quiet -/

@[simp] theorem quiet_cfg (s : State) : (quiet s).cfg = s.cfg := rfl
@[simp] theorem quiet_ctl (s : State) : (quiet s).ctl = s.ctl := rfl
@[simp] theorem quiet_aud (s : State) : (quiet s).aud = s.aud := rfl
@[simp] theorem quiet_ports (s : State) : (quiet s).ports = Ports.quiet := rfl
@[simp] theorem quiet_stream (s : State) : (quiet s).stream = s.stream := rfl
@[simp] theorem quiet_schedule (s : State) : (quiet s).schedule = s.schedule := rfl

/-! ### driveRdata -/

@[simp] theorem driveRdata_cfg (v : Word) (s : State) : (driveRdata v s).cfg = s.cfg := rfl
@[simp] theorem driveRdata_ctl (v : Word) (s : State) : (driveRdata v s).ctl = s.ctl := rfl
@[simp] theorem driveRdata_aud (v : Word) (s : State) : (driveRdata v s).aud = s.aud := rfl
@[simp] theorem driveRdata_ports (v : Word) (s : State) :
    (driveRdata v s).ports = { s.ports with rdata := some v } := rfl
@[simp] theorem driveRdata_stream (v : Word) (s : State) :
    (driveRdata v s).stream = s.stream := rfl
@[simp] theorem driveRdata_schedule (v : Word) (s : State) :
    (driveRdata v s).schedule = s.schedule := rfl

/-! ### pulseSuspend -/

@[simp] theorem pulseSuspend_cfg (s : State) : (pulseSuspend s).cfg = s.cfg := rfl
@[simp] theorem pulseSuspend_ctl (s : State) : (pulseSuspend s).ctl = s.ctl := rfl
@[simp] theorem pulseSuspend_aud (s : State) : (pulseSuspend s).aud = s.aud := rfl
@[simp] theorem pulseSuspend_ports (s : State) :
    (pulseSuspend s).ports = { s.ports with hwSuspend := true } := rfl
@[simp] theorem pulseSuspend_stream (s : State) : (pulseSuspend s).stream = s.stream := rfl
@[simp] theorem pulseSuspend_schedule (s : State) : (pulseSuspend s).schedule = s.schedule := rfl

/-! ### pulseResume -/

@[simp] theorem pulseResume_cfg (s : State) : (pulseResume s).cfg = s.cfg := rfl
@[simp] theorem pulseResume_ctl (s : State) : (pulseResume s).ctl = s.ctl := rfl
@[simp] theorem pulseResume_aud (s : State) : (pulseResume s).aud = s.aud := rfl
@[simp] theorem pulseResume_ports (s : State) :
    (pulseResume s).ports = { s.ports with hwResume := true } := rfl
@[simp] theorem pulseResume_stream (s : State) : (pulseResume s).stream = s.stream := rfl
@[simp] theorem pulseResume_schedule (s : State) : (pulseResume s).schedule = s.schedule := rfl

/-! ### pulseDone -/

@[simp] theorem pulseDone_cfg (s : State) : (pulseDone s).cfg = s.cfg := rfl
@[simp] theorem pulseDone_ctl (s : State) : (pulseDone s).ctl = s.ctl := rfl
@[simp] theorem pulseDone_aud (s : State) : (pulseDone s).aud = s.aud := rfl
@[simp] theorem pulseDone_ports (s : State) :
    (pulseDone s).ports = { s.ports with blkDone := true } := rfl
@[simp] theorem pulseDone_stream (s : State) : (pulseDone s).stream = s.stream := rfl
@[simp] theorem pulseDone_schedule (s : State) : (pulseDone s).schedule = s.schedule := rfl

/-! ### writeTfreq -/

@[simp] theorem writeTfreq_cfg (v : Word) (s : State) : (writeTfreq v s).cfg = s.cfg := rfl
@[simp] theorem writeTfreq_ctl (v : Word) (s : State) :
    (writeTfreq v s).ctl = { s.ctl with tfreq := v, syncTfreq := Sync.written } := rfl
@[simp] theorem writeTfreq_aud (v : Word) (s : State) : (writeTfreq v s).aud = s.aud := rfl
@[simp] theorem writeTfreq_ports (v : Word) (s : State) : (writeTfreq v s).ports = s.ports := rfl
@[simp] theorem writeTfreq_stream (v : Word) (s : State) :
    (writeTfreq v s).stream = s.stream := rfl
@[simp] theorem writeTfreq_schedule (v : Word) (s : State) :
    (writeTfreq v s).schedule = s.schedule := rfl

/-! ### writeTamp -/

@[simp] theorem writeTamp_cfg (v : Word) (s : State) : (writeTamp v s).cfg = s.cfg := rfl
@[simp] theorem writeTamp_ctl (v : Word) (s : State) :
    (writeTamp v s).ctl = { s.ctl with tamp := v, syncTamp := Sync.written } := rfl
@[simp] theorem writeTamp_aud (v : Word) (s : State) : (writeTamp v s).aud = s.aud := rfl
@[simp] theorem writeTamp_ports (v : Word) (s : State) : (writeTamp v s).ports = s.ports := rfl
@[simp] theorem writeTamp_stream (v : Word) (s : State) : (writeTamp v s).stream = s.stream := rfl
@[simp] theorem writeTamp_schedule (v : Word) (s : State) :
    (writeTamp v s).schedule = s.schedule := rfl

/-! ### writeGain -/

@[simp] theorem writeGain_cfg (v : Word) (s : State) : (writeGain v s).cfg = s.cfg := rfl
@[simp] theorem writeGain_ctl (v : Word) (s : State) :
    (writeGain v s).ctl = { s.ctl with gain := v, syncGain := Sync.written } := rfl
@[simp] theorem writeGain_aud (v : Word) (s : State) : (writeGain v s).aud = s.aud := rfl
@[simp] theorem writeGain_ports (v : Word) (s : State) : (writeGain v s).ports = s.ports := rfl
@[simp] theorem writeGain_stream (v : Word) (s : State) : (writeGain v s).stream = s.stream := rfl
@[simp] theorem writeGain_schedule (v : Word) (s : State) :
    (writeGain v s).schedule = s.schedule := rfl

/-! ### writeRunstate -/

@[simp] theorem writeRunstate_cfg (b : Bool) (e : Epoch) (s : State) :
    (writeRunstate b e s).cfg = s.cfg := rfl
@[simp] theorem writeRunstate_ctl (b : Bool) (e : Epoch) (s : State) :
    (writeRunstate b e s).ctl =
      { s.ctl with run := b, epoch := e, syncRunstate := Sync.written } := rfl
@[simp] theorem writeRunstate_aud (b : Bool) (e : Epoch) (s : State) :
    (writeRunstate b e s).aud = s.aud := rfl
@[simp] theorem writeRunstate_ports (b : Bool) (e : Epoch) (s : State) :
    (writeRunstate b e s).ports = s.ports := rfl
@[simp] theorem writeRunstate_stream (b : Bool) (e : Epoch) (s : State) :
    (writeRunstate b e s).stream = s.stream := rfl
@[simp] theorem writeRunstate_schedule (b : Bool) (e : Epoch) (s : State) :
    (writeRunstate b e s).schedule = s.schedule := rfl

/-! ### copyBlkTotal -/

@[simp] theorem copyBlkTotal_cfg (s : State) : (copyBlkTotal s).cfg = s.cfg := rfl
@[simp] theorem copyBlkTotal_ctl (s : State) :
    (copyBlkTotal s).ctl = { s.ctl with blkSeen := s.aud.blkTotal } := rfl
@[simp] theorem copyBlkTotal_aud (s : State) : (copyBlkTotal s).aud = s.aud := rfl
@[simp] theorem copyBlkTotal_ports (s : State) : (copyBlkTotal s).ports = s.ports := rfl
@[simp] theorem copyBlkTotal_stream (s : State) : (copyBlkTotal s).stream = s.stream := rfl
@[simp] theorem copyBlkTotal_schedule (s : State) : (copyBlkTotal s).schedule = s.schedule := rfl

/-! ### copyIsSilent -/

@[simp] theorem copyIsSilent_cfg (s : State) : (copyIsSilent s).cfg = s.cfg := rfl
@[simp] theorem copyIsSilent_ctl (s : State) :
    (copyIsSilent s).ctl = { s.ctl with silentSeen := s.aud.isSilent } := rfl
@[simp] theorem copyIsSilent_aud (s : State) : (copyIsSilent s).aud = s.aud := rfl
@[simp] theorem copyIsSilent_ports (s : State) : (copyIsSilent s).ports = s.ports := rfl
@[simp] theorem copyIsSilent_stream (s : State) : (copyIsSilent s).stream = s.stream := rfl
@[simp] theorem copyIsSilent_schedule (s : State) : (copyIsSilent s).schedule = s.schedule := rfl

/-! ### snapCounters -/

@[simp] theorem snapCounters_cfg (s : State) : (snapCounters s).cfg = s.cfg := rfl
@[simp] theorem snapCounters_ctl (s : State) :
    (snapCounters s).ctl =
      { s.ctl with
        cntRender := s.ctl.blkSeen - s.ctl.blkBase, blkBase := s.ctl.blkSeen,
        cntSensor := s.ctl.sensCount, sensCount := 0 } := rfl
@[simp] theorem snapCounters_aud (s : State) : (snapCounters s).aud = s.aud := rfl
@[simp] theorem snapCounters_ports (s : State) : (snapCounters s).ports = s.ports := rfl
@[simp] theorem snapCounters_stream (s : State) : (snapCounters s).stream = s.stream := rfl
@[simp] theorem snapCounters_schedule (s : State) : (snapCounters s).schedule = s.schedule := rfl

/-! ### setStillCount -/

@[simp] theorem setStillCount_cfg (n : BitVec 16) (s : State) :
    (setStillCount n s).cfg = s.cfg := rfl
@[simp] theorem setStillCount_ctl (n : BitVec 16) (s : State) :
    (setStillCount n s).ctl = { s.ctl with stillCount := n } := rfl
@[simp] theorem setStillCount_aud (n : BitVec 16) (s : State) :
    (setStillCount n s).aud = s.aud := rfl
@[simp] theorem setStillCount_ports (n : BitVec 16) (s : State) :
    (setStillCount n s).ports = s.ports := rfl
@[simp] theorem setStillCount_stream (n : BitVec 16) (s : State) :
    (setStillCount n s).stream = s.stream := rfl
@[simp] theorem setStillCount_schedule (n : BitVec 16) (s : State) :
    (setStillCount n s).schedule = s.schedule := rfl

/-! ### ingestSample -/

@[simp] theorem ingestSample_cfg (m : Word) (s : State) : (ingestSample m s).cfg = s.cfg := rfl
@[simp] theorem ingestSample_ctl (m : Word) (s : State) :
    (ingestSample m s).ctl = { s.ctl with smoothed := m, sensCount := s.ctl.sensCount + 1 } := rfl
@[simp] theorem ingestSample_aud (m : Word) (s : State) : (ingestSample m s).aud = s.aud := rfl
@[simp] theorem ingestSample_ports (m : Word) (s : State) :
    (ingestSample m s).ports = s.ports := rfl
@[simp] theorem ingestSample_stream (m : Word) (s : State) :
    (ingestSample m s).stream = s.stream := rfl
@[simp] theorem ingestSample_schedule (m : Word) (s : State) :
    (ingestSample m s).schedule = s.schedule := rfl

/-! ### resetStep -/

@[simp] theorem resetStep_cfg (s : State) : (resetStep s).cfg = s.cfg := rfl
@[simp] theorem resetStep_ctl (s : State) : (resetStep s).ctl = Ctl.reset := rfl
@[simp] theorem resetStep_aud (s : State) : (resetStep s).aud = Aud.reset := rfl
@[simp] theorem resetStep_ports (s : State) : (resetStep s).ports = Ports.quiet := rfl
@[simp] theorem resetStep_stream (s : State) : (resetStep s).stream = s.stream := rfl
@[simp] theorem resetStep_schedule (s : State) : (resetStep s).schedule = s.schedule := rfl

/-! ### The handoff steps, for every field -/

@[simp] theorem copyField_cfg (f : Field) (s : State) :
    (copyField f s).cfg = s.cfg := by
  cases f <;> rfl
@[simp] theorem copyField_ports (f : Field) (s : State) :
    (copyField f s).ports = s.ports := by
  cases f <;> rfl
@[simp] theorem copyField_stream (f : Field) (s : State) :
    (copyField f s).stream = s.stream := by
  cases f <;> rfl
@[simp] theorem copyField_schedule (f : Field) (s : State) :
    (copyField f s).schedule = s.schedule := by
  cases f <;> rfl

@[simp] theorem ackField_cfg (f : Field) (s : State) :
    (ackField f s).cfg = s.cfg := by
  cases f <;> rfl
@[simp] theorem ackField_ports (f : Field) (s : State) :
    (ackField f s).ports = s.ports := by
  cases f <;> rfl
@[simp] theorem ackField_stream (f : Field) (s : State) :
    (ackField f s).stream = s.stream := by
  cases f <;> rfl
@[simp] theorem ackField_schedule (f : Field) (s : State) :
    (ackField f s).schedule = s.schedule := by
  cases f <;> rfl
@[simp] theorem ackField_aud (f : Field) (s : State) :
    (ackField f s).aud = s.aud := by
  cases f <;> rfl

end Sys2Proof.Machine
end

