-- ==== Sys2Proof/Laws/Ops.lean ====
section
/-! SUPPORT. For each composite operation of Machine/Ops.lean one lemma that says once everything
it can do, and its frame: the fields it leaves as they were. Later proofs cite these and do not
unfold the operation. -/

namespace Sys2Proof.Machine

/-! ### Commands -/

/-- START does one of two things. -/
theorem startEngine_cases (s : State) :
    (s.ctl.run = true ∧ startEngine s = s) ∨
    (s.ctl.run = false ∧ startEngine s =
      { s with ctl := { s.ctl with
        run := true, epoch := s.ctl.epoch + 1, syncRunstate := Sync.written,
        stillCount := 0, smoothed := 0 } }) := by
  cases h : s.ctl.run <;> simp [startEngine, h, writeRunstate]

/-- STOP does one of two things. -/
theorem stopEngine_cases (s : State) :
    (s.ctl.run = false ∧ stopEngine s = s) ∨
    (s.ctl.run = true ∧ stopEngine s =
      { s with ctl := { s.ctl with run := false, syncRunstate := Sync.written } }) := by
  cases h : s.ctl.run <;> simp [stopEngine, h, writeRunstate]

/-- What a command leaves as it was: all but the run state, the detector, the smoother and the
counters. -/
structure CommandFrame (s t : State) : Prop where
  cfg : t.cfg = s.cfg
  aud : t.aud = s.aud
  ports : t.ports = s.ports
  stream : t.stream = s.stream
  schedule : t.schedule = s.schedule
  tfreq : t.ctl.tfreq = s.ctl.tfreq
  tamp : t.ctl.tamp = s.ctl.tamp
  gain : t.ctl.gain = s.ctl.gain
  pause : t.ctl.pause = s.ctl.pause
  blkSeen : t.ctl.blkSeen = s.ctl.blkSeen
  silentSeen : t.ctl.silentSeen = s.ctl.silentSeen
  syncTfreq : t.ctl.syncTfreq = s.ctl.syncTfreq
  syncTamp : t.ctl.syncTamp = s.ctl.syncTamp
  syncGain : t.ctl.syncGain = s.ctl.syncGain

theorem CommandFrame.refl (s : State) : CommandFrame s s := by constructor <;> rfl

theorem CommandFrame.trans {s t u : State} (h : CommandFrame s t) (k : CommandFrame t u) :
    CommandFrame s u := by
  constructor
  · exact k.cfg.trans h.cfg
  · exact k.aud.trans h.aud
  · exact k.ports.trans h.ports
  · exact k.stream.trans h.stream
  · exact k.schedule.trans h.schedule
  · exact k.tfreq.trans h.tfreq
  · exact k.tamp.trans h.tamp
  · exact k.gain.trans h.gain
  · exact k.pause.trans h.pause
  · exact k.blkSeen.trans h.blkSeen
  · exact k.silentSeen.trans h.silentSeen
  · exact k.syncTfreq.trans h.syncTfreq
  · exact k.syncTamp.trans h.syncTamp
  · exact k.syncGain.trans h.syncGain

theorem startEngine_frame (s : State) : CommandFrame s (startEngine s) := by
  rcases startEngine_cases s with ⟨_, h⟩ | ⟨_, h⟩ <;> rw [h] <;> constructor <;> rfl

theorem stopEngine_frame (s : State) : CommandFrame s (stopEngine s) := by
  rcases stopEngine_cases s with ⟨_, h⟩ | ⟨_, h⟩ <;> rw [h] <;> constructor <;> rfl

theorem snapCounters_frame (s : State) : CommandFrame s (snapCounters s) := by
  constructor <;> rfl

/-- A command word is one of STOP, START or neither, and then SNAP or not. -/
theorem commandEffect_cases (d : Word) (s : State) :
    ∃ u, (cmdStop d = true ∧ u = stopEngine s ∨
        cmdStop d = false ∧ cmdStart d = true ∧ u = startEngine s ∨
        cmdStop d = false ∧ cmdStart d = false ∧ u = s) ∧
      (cmdSnap d = true ∧ commandEffect d s = snapCounters u ∨
        cmdSnap d = false ∧ commandEffect d s = u) := by
  refine ⟨if cmdStop d then stopEngine s else if cmdStart d then startEngine s else s, ?_, ?_⟩
  · cases cmdStop d <;> cases cmdStart d <;> simp
  · cases h : cmdSnap d <;> simp [commandEffect, h]

theorem commandEffect_frame (d : Word) (s : State) : CommandFrame s (commandEffect d s) := by
  obtain ⟨u, hu, h⟩ := commandEffect_cases d s
  have hf : CommandFrame s u := by
    rcases hu with ⟨_, hu⟩ | ⟨_, _, hu⟩ | ⟨_, _, hu⟩ <;> rw [hu]
    · exact stopEngine_frame s
    · exact startEngine_frame s
    · exact CommandFrame.refl s
  rcases h with ⟨_, h⟩ | ⟨_, h⟩ <;> rw [h]
  · exact hf.trans (snapCounters_frame u)
  · exact hf

/-- The effect depends on the three command bits only. -/
theorem commandEffect_bits (d e : Word) (s : State) (h0 : cmdStart d = cmdStart e)
    (h1 : cmdStop d = cmdStop e) (h2 : cmdSnap d = cmdSnap e) :
    commandEffect d s = commandEffect e s := by
  simp only [commandEffect, h0, h1, h2]

/-! ### The sensor path -/

/-- The detector does one of five things with a sample. -/
theorem stillnessStep_cases (m : Word) (s : State) :
    (f32Lt m s.cfg.cutoff = true ∧ s.ctl.stillCount.toNat + 1 = s.cfg.t ∧
      stillnessStep m s = pulseSuspend (setStillCount (s.ctl.stillCount + 1) s)) ∨
    (f32Lt m s.cfg.cutoff = true ∧ s.ctl.stillCount.toNat + 1 < s.cfg.t ∧
      stillnessStep m s = setStillCount (s.ctl.stillCount + 1) s) ∨
    (f32Lt m s.cfg.cutoff = true ∧ s.cfg.t ≤ s.ctl.stillCount.toNat ∧ stillnessStep m s = s) ∨
    (f32Lt m s.cfg.cutoff = false ∧ s.cfg.t ≤ s.ctl.stillCount.toNat ∧
      stillnessStep m s = pulseResume (setStillCount 0 s)) ∨
    (f32Lt m s.cfg.cutoff = false ∧ s.ctl.stillCount.toNat < s.cfg.t ∧
      stillnessStep m s = setStillCount 0 s) := by
  cases hm : f32Lt m s.cfg.cutoff
  · by_cases hc : s.cfg.t ≤ s.ctl.stillCount.toNat
    · exact .inr (.inr (.inr (.inl ⟨rfl, hc, by simp only [stillnessStep, hm, hc]; rfl⟩)))
    · exact .inr (.inr (.inr (.inr ⟨rfl, by omega, by simp only [stillnessStep, hm, hc]; rfl⟩)))
  · by_cases hc : s.ctl.stillCount.toNat < s.cfg.t
    · by_cases he : s.ctl.stillCount.toNat + 1 = s.cfg.t
      · exact .inl ⟨rfl, he, by simp only [stillnessStep, hm, hc, he]; rfl⟩
      · exact .inr (.inl ⟨rfl, by omega, by simp only [stillnessStep, hm, hc, he]; rfl⟩)
    · exact .inr (.inr (.inl ⟨rfl, by omega, by simp only [stillnessStep, hm, hc]; rfl⟩))

/-- The detector writes its counter and the two requests, nothing else. -/
theorem stillnessStep_frame (m : Word) (s : State) :
    ∃ n p q, stillnessStep m s =
      { s with ctl := { s.ctl with stillCount := n }
               ports := { s.ports with hwSuspend := p, hwResume := q } } := by
  rcases stillnessStep_cases m s with ⟨_, _, h⟩ | ⟨_, _, h⟩ | ⟨_, _, h⟩ | ⟨_, _, h⟩ | ⟨_, _, h⟩ <;>
    rw [h] <;> exact ⟨_, _, _, rfl⟩

/-- A sample is dropped, or it is smoothed, counted, detected and mapped. -/
theorem sensorSample_cases (r : Word) (s : State) :
    ((s.ctl.run = false ∨ s.ctl.pause = true) ∧ sensorSample r s = s) ∨
    (s.ctl.run = true ∧ s.ctl.pause = false ∧ sensorSample r s =
      writeTfreq (mapMagnitude s.cfg (smooth s.cfg s.ctl.smoothed r))
        (stillnessStep (smooth s.cfg s.ctl.smoothed r)
          (ingestSample (smooth s.cfg s.ctl.smoothed r) s))) := by
  cases hr : s.ctl.run <;> cases hp : s.ctl.pause <;> simp [sensorSample, hr, hp]

/-- What a sample can write: frequency and its flags, the smoother, the detector, the sample count
and the two requests. -/
theorem sensorSample_frame (r : Word) (s : State) :
    ∃ f y m n k p q, sensorSample r s =
      { s with
        ctl := { s.ctl with
          tfreq := f, syncTfreq := y, smoothed := m, stillCount := n, sensCount := k }
        ports := { s.ports with hwSuspend := p, hwResume := q } } := by
  rcases sensorSample_cases r s with ⟨_, h⟩ | ⟨_, _, h⟩
  · rw [h]; exact ⟨_, _, _, _, _, _, _, rfl⟩
  · obtain ⟨n, p, q, hs⟩ := stillnessStep_frame (smooth s.cfg s.ctl.smoothed r)
      (ingestSample (smooth s.cfg s.ctl.smoothed r) s)
    rw [h, hs]; exact ⟨_, _, _, _, _, _, _, rfl⟩

@[simp] theorem sensorSample_cfg (r : Word) (s : State) : (sensorSample r s).cfg = s.cfg := by
  obtain ⟨_, _, _, _, _, _, _, h⟩ := sensorSample_frame r s; rw [h]

@[simp] theorem sensorSample_aud (r : Word) (s : State) : (sensorSample r s).aud = s.aud := by
  obtain ⟨_, _, _, _, _, _, _, h⟩ := sensorSample_frame r s; rw [h]

@[simp] theorem sensorSample_stream (r : Word) (s : State) :
    (sensorSample r s).stream = s.stream := by
  obtain ⟨_, _, _, _, _, _, _, h⟩ := sensorSample_frame r s; rw [h]

@[simp] theorem sensorSample_schedule (r : Word) (s : State) :
    (sensorSample r s).schedule = s.schedule := by
  obtain ⟨_, _, _, _, _, _, _, h⟩ := sensorSample_frame r s; rw [h]

/-- The detector does not look at what `ctl_rdata` carries. -/
theorem stillnessStep_driveRdata (m v : Word) (s : State) :
    stillnessStep m (driveRdata v s) = driveRdata v (stillnessStep m s) := by
  by_cases hm : f32Lt m s.cfg.cutoff = true <;>
    by_cases hc : s.ctl.stillCount.toNat < s.cfg.t <;>
    by_cases hd : s.cfg.t ≤ s.ctl.stillCount.toNat <;>
    by_cases he : s.ctl.stillCount.toNat + 1 = s.cfg.t <;>
    simp only [stillnessStep, driveRdata_cfg, driveRdata_ctl, hm, hc, hd, he] <;> rfl

/-- A sample does not look at what `ctl_rdata` carries. -/
theorem sensorSample_driveRdata (r v : Word) (s : State) :
    sensorSample r (driveRdata v s) = driveRdata v (sensorSample r s) := by
  rcases sensorSample_cases r s with ⟨hd, h⟩ | ⟨hr, hp, h⟩
  · rcases sensorSample_cases r (driveRdata v s) with ⟨_, k⟩ | ⟨hr', hp', _⟩
    · rw [h, k]
    · simp only [driveRdata_ctl] at hr' hp'; simp [hr', hp'] at hd
  · rcases sensorSample_cases r (driveRdata v s) with ⟨hd', _⟩ | ⟨_, _, k⟩
    · simp [hr, hp] at hd'
    · rw [h, k]
      exact congrArg _ (stillnessStep_driveRdata _ v (ingestSample _ s))

/-! ### Block requests -/

/-- A request is ignored, completes at once, or begins a block. -/
theorem requestBlock_cases (f : BlkWord) (s : State) :
    (s.aud.busy = true ∧ requestBlock f s = s) ∨
    (s.aud.busy = false ∧ f = 0 ∧ requestBlock f s =
      pulseDone { s with aud := { s.aud with blkTotal := s.aud.blkTotal + 1 } }) ∨
    (s.aud.busy = false ∧ f ≠ 0 ∧ requestBlock f s =
      { s with aud := beginBlock s.cfg f { s.aud with blkTotal := s.aud.blkTotal + 1 } }) := by
  cases h : s.aud.busy
  · by_cases hf : f = 0
    · exact .inr (.inl ⟨rfl, hf, by simp only [requestBlock, h, hf, if_true]; rfl⟩)
    · exact .inr (.inr ⟨rfl, hf, by simp only [requestBlock, h, hf, if_false]; rfl⟩)
  · exact .inl ⟨rfl, by simp only [requestBlock, h, if_true]⟩

/-- The oscillator state goes on or starts fresh. -/
theorem freshOscillator_eq (a : Aud) :
    freshOscillator a =
      { a with
        seenEpoch := epochOf a.rRunstate
        phase := if epochOf a.rRunstate = a.seenEpoch then a.phase else 0
        curFreq := if epochOf a.rRunstate = a.seenEpoch then a.curFreq else 0
        curAmp := if epochOf a.rRunstate = a.seenEpoch then a.curAmp else 0
        isSilent := if epochOf a.rRunstate = a.seenEpoch then a.isSilent else true } := by
  by_cases h : epochOf a.rRunstate = a.seenEpoch <;> simp [freshOscillator, h]

/-- A block begins stopped, on the fast path, or with a ramp. -/
theorem beginBlock_cases (c : Config) (f : BlkWord) (a : Aud) :
    (runOf a.rRunstate = false ∧
      beginBlock c f a = { snapshotBlock f a with mode := .zero }) ∨
    (runOf a.rRunstate = true ∧
      takesFastPath c (freshOscillator (snapshotBlock f a)) = true ∧
      beginBlock c f a = fastPathBlock (freshOscillator (snapshotBlock f a))) ∨
    (runOf a.rRunstate = true ∧
      takesFastPath c (freshOscillator (snapshotBlock f a)) = false ∧
      beginBlock c f a = rampBlock (freshOscillator (snapshotBlock f a))) := by
  cases hr : runOf a.rRunstate
  · simp [beginBlock, snapshotBlock, hr]
  · cases hp : takesFastPath c (freshOscillator (snapshotBlock f a)) <;>
      simp [beginBlock, hp, show runOf (snapshotBlock f a).rRunstate = true from hr]

/-- What every block acceptance sets and leaves, whatever its mode. -/
structure Begun (f : BlkWord) (a b : Aud) : Prop where
  busy : b.busy = true
  frames : b.frames = f
  idx : b.idx = 0
  sTamp : b.sTamp = a.rTamp
  sTfreq : b.sTfreq = a.rTfreq
  sGain : b.sGain = a.rGain
  blkTotal : b.blkTotal = a.blkTotal
  outFull : b.outFull = a.outFull
  outWord : b.outWord = a.outWord
  rTfreq : b.rTfreq = a.rTfreq
  rTamp : b.rTamp = a.rTamp
  rGain : b.rGain = a.rGain
  rRunstate : b.rRunstate = a.rRunstate

theorem beginBlock_begun (c : Config) (f : BlkWord) (a : Aud) : Begun f a (beginBlock c f a) := by
  rcases beginBlock_cases c f a with ⟨_, h⟩ | ⟨_, _, h⟩ | ⟨_, _, h⟩ <;> rw [h] <;>
    simp only [freshOscillator_eq] <;> constructor <;> rfl

@[simp] theorem requestBlock_cfg (f : BlkWord) (s : State) : (requestBlock f s).cfg = s.cfg := by
  rcases requestBlock_cases f s with ⟨_, h⟩ | ⟨_, _, h⟩ | ⟨_, _, h⟩ <;>
    simp only [h, pulseDone_cfg]

@[simp] theorem requestBlock_ctl (f : BlkWord) (s : State) : (requestBlock f s).ctl = s.ctl := by
  rcases requestBlock_cases f s with ⟨_, h⟩ | ⟨_, _, h⟩ | ⟨_, _, h⟩ <;>
    simp only [h, pulseDone_ctl]

@[simp] theorem requestBlock_stream (f : BlkWord) (s : State) :
    (requestBlock f s).stream = s.stream := by
  rcases requestBlock_cases f s with ⟨_, h⟩ | ⟨_, _, h⟩ | ⟨_, _, h⟩ <;>
    simp only [h, pulseDone_stream]

@[simp] theorem requestBlock_schedule (f : BlkWord) (s : State) :
    (requestBlock f s).schedule = s.schedule := by
  rcases requestBlock_cases f s with ⟨_, h⟩ | ⟨_, _, h⟩ | ⟨_, _, h⟩ <;>
    simp only [h, pulseDone_schedule]

/-! ### Samples -/

/-- RENDER does one of three things. -/
theorem renderStep_cases (s : State) :
    (renderEnabled s.aud = false ∧ renderStep s = s) ∨
    (renderEnabled s.aud = true ∧ s.aud.mode = .zero ∧
      renderStep s = { s with aud := renderZero s.aud }) ∨
    (renderEnabled s.aud = true ∧ s.aud.mode = .ramp ∧
      renderStep s = { s with aud := renderRamp s.cfg s.aud }) := by
  cases h : renderEnabled s.aud
  · simp [renderStep, h]
  · cases hm : s.aud.mode <;> simp [renderStep, h, hm]

theorem renderEnabled_iff (a : Aud) :
    renderEnabled a = true ↔
      a.busy = true ∧ a.idx.toNat < a.frames.toNat ∧ a.outFull = false := by
  simp [renderEnabled, and_assoc]

/-- The next index is the old one plus one: an enabled RENDER cannot wrap it (10_state.md R39). -/
theorem idx_succ_toNat {a : Aud} (h : a.idx.toNat < a.frames.toNat) :
    (a.idx + 1).toNat = a.idx.toNat + 1 := by
  have := a.frames.isLt
  rw [BitVec.toNat_add, show (1 : BlkWord).toNat = 1 from rfl]
  omega

/-- What a sample in mode RAMP sets and leaves; the end-of-block snap is in the two `if`s. -/
theorem renderRamp_eq (c : Config) (a : Aud) :
    renderRamp c a =
      { a with
        outWord :=
          outputSample (tableRead c (floorModN c a.phase)) (f32Add a.curAmp a.ampStep) a.sGain
        outFull := true
        curAmp := if a.idx + 1 = a.frames then a.sTamp else f32Add a.curAmp a.ampStep
        curFreq := if a.idx + 1 = a.frames then a.sTfreq else f32Add a.curFreq a.freqStep
        phase := advancePhase c a.phase (f32Add a.curFreq a.freqStep)
        idx := a.idx + 1 } := by
  by_cases h : a.idx + 1 = a.frames <;>
    simp only [renderRamp, snapToTarget, h, if_true, if_false]

@[simp] theorem renderStep_cfg (s : State) : (renderStep s).cfg = s.cfg := by
  rcases renderStep_cases s with ⟨_, h⟩ | ⟨_, _, h⟩ | ⟨_, _, h⟩ <;> rw [h]

@[simp] theorem renderStep_ctl (s : State) : (renderStep s).ctl = s.ctl := by
  rcases renderStep_cases s with ⟨_, h⟩ | ⟨_, _, h⟩ | ⟨_, _, h⟩ <;> rw [h]

@[simp] theorem renderStep_ports (s : State) : (renderStep s).ports = s.ports := by
  rcases renderStep_cases s with ⟨_, h⟩ | ⟨_, _, h⟩ | ⟨_, _, h⟩ <;> rw [h]

@[simp] theorem renderStep_stream (s : State) : (renderStep s).stream = s.stream := by
  rcases renderStep_cases s with ⟨_, h⟩ | ⟨_, _, h⟩ | ⟨_, _, h⟩ <;> rw [h]

@[simp] theorem renderStep_schedule (s : State) : (renderStep s).schedule = s.schedule := by
  rcases renderStep_cases s with ⟨_, h⟩ | ⟨_, _, h⟩ | ⟨_, _, h⟩ <;> rw [h]

/-- CONSUME finds no sample, takes the block's last one, or takes an earlier one. -/
theorem consumeStep_cases (s : State) :
    (s.aud.outFull = false ∧ consumeStep s = s) ∨
    (s.aud.outFull = true ∧ s.aud.idx = s.aud.frames ∧ consumeStep s =
      pulseDone { s with stream := s.stream ++ [s.aud.outWord]
                         aud := { s.aud with outFull := false, busy := false } }) ∨
    (s.aud.outFull = true ∧ s.aud.idx ≠ s.aud.frames ∧ consumeStep s =
      { s with stream := s.stream ++ [s.aud.outWord]
               aud := { s.aud with outFull := false } }) := by
  cases h : s.aud.outFull
  · simp [consumeStep, h]
  · by_cases he : s.aud.idx = s.aud.frames <;> simp [consumeStep, h, he]

@[simp] theorem consumeStep_cfg (s : State) : (consumeStep s).cfg = s.cfg := by
  rcases consumeStep_cases s with ⟨_, h⟩ | ⟨_, _, h⟩ | ⟨_, _, h⟩ <;>
    simp only [h, pulseDone_cfg]

@[simp] theorem consumeStep_ctl (s : State) : (consumeStep s).ctl = s.ctl := by
  rcases consumeStep_cases s with ⟨_, h⟩ | ⟨_, _, h⟩ | ⟨_, _, h⟩ <;>
    simp only [h, pulseDone_ctl]

@[simp] theorem consumeStep_schedule (s : State) : (consumeStep s).schedule = s.schedule := by
  rcases consumeStep_cases s with ⟨_, h⟩ | ⟨_, _, h⟩ | ⟨_, _, h⟩ <;>
    simp only [h, pulseDone_schedule]

end Sys2Proof.Machine
end

