-- ==== Sys2Proof/Laws/Step.lean ====
section
/-! SUPPORT. No operation and no event stops, so `exec`, `takeEvent` and `step` are total functions
of the state in disguise. This file says which: `after`, `eventAfter`, and one inversion lemma for
`step`. -/

namespace Sys2Proof.Machine

/-! ### Operations -/

/-- The word a bus read drives, the reserved ones' 0 included. -/
def readValue (i : Instr) (s : State) : Word :=
  match i with
  | .rdId => 0x4F445331
  | .rdSensorPause => pauseWord s.ctl
  | .rdStatus => statusWord s.cfg s.ctl
  | .rdTargetFreq => s.ctl.tfreq
  | .rdTargetAmp => s.ctl.tamp
  | .rdMasterGain => s.ctl.gain
  | .rdMagnitude => s.ctl.smoothed
  | .rdCntRender => s.ctl.cntRender
  | .rdCntSensor => s.ctl.cntSensor
  | .rdConfig => configWord s.cfg
  | .rdSampleRate => sampleRateWord s.cfg
  | _ => 0

/-- The state after an operation. -/
def after (i : Instr) (s : State) : State :=
  match i with
  | .wrCmd d => commandEffect d s
  | .wrSensorPause d => { s with ctl := { s.ctl with pause := pauseBit d } }
  | .wrTargetFreq d => writeTfreq d s
  | .wrTargetAmp d => writeTamp d s
  | .wrVolume d => writeGain (f32Mul s.cfg.gainSafety d) s
  | .wrIgnored _ _ => s
  | .blk f => requestBlock f s
  | .sens r => sensorSample r s
  | _ => driveRdata (readValue i s) s

/-- Every operation goes on. -/
theorem exec_eq_after (i : Instr) (s : State) : exec i s = .next (after i s) := by
  cases i <;> rfl

/-- What a bus read does. -/
theorem after_of_isBusRead {i : Instr} (h : i.isBusRead = true) (s : State) :
    after i s = driveRdata (readValue i s) s := by
  cases i <;> first | rfl | cases h

@[simp] theorem after_cfg (i : Instr) (s : State) : (after i s).cfg = s.cfg := by
  cases i <;> simp [after, (commandEffect_frame _ s).cfg]

@[simp] theorem after_schedule (i : Instr) (s : State) : (after i s).schedule = s.schedule := by
  cases i <;> simp [after, (commandEffect_frame _ s).schedule]

@[simp] theorem after_stream (i : Instr) (s : State) : (after i s).stream = s.stream := by
  cases i <;> simp [after, (commandEffect_frame _ s).stream]

/-- Only a block request touches the render domain. -/
theorem after_aud {i : Instr} (h : ∀ f, i ≠ .blk f) (s : State) : (after i s).aud = s.aud := by
  cases i <;> first
    | exact absurd rfl (h _)
    | simp [after, (commandEffect_frame _ s).aud]

/-! ### Bus words -/

/-- A bus word is a read exactly if its WE bit is 0 (30_encoding.md R81). -/
theorem decodeRead_isBusRead (a : RegAddr) : (decodeRead a).isBusRead = true := by
  unfold decodeRead; split <;> rfl

theorem decodeWrite_isBusRead (a : RegAddr) (d : Word) :
    (decodeWrite a d).isBusRead = false := by
  unfold decodeWrite; split <;> rfl

theorem decode_ctlBus_isBusRead (w : BusWord) :
    (decode (.ctlBus w)).isBusRead = !BusWord.we w := by
  cases h : BusWord.we w <;>
    simp [decode, decodeBus, h, decodeRead_isBusRead, decodeWrite_isBusRead]

/-- No bus word is a block request or a sample. -/
theorem decode_ctlBus_ne_blk (w : BusWord) (f : BlkWord) : decode (.ctlBus w) ≠ .blk f := by
  simp only [decode, decodeBus]
  split
  · unfold decodeWrite; split <;> simp
  · unfold decodeRead; split <;> simp

theorem decode_ctlBus_ne_sens (w : BusWord) (r : Word) : decode (.ctlBus w) ≠ .sens r := by
  simp only [decode, decodeBus]
  split
  · unfold decodeWrite; split <;> simp
  · unfold decodeRead; split <;> simp

@[simp] theorem busWord_we (b : Bool) (a : RegAddr) (d : Word) :
    BusWord.we (busWord b a d) = b := by
  simp only [BusWord.we, busWord, BitVec.getLsbD_append]
  cases b <;> rfl

@[simp] theorem busWord_addr (b : Bool) (a : RegAddr) (d : Word) :
    BusWord.addr (busWord b a d) = a := by
  apply BitVec.eq_of_getLsbD_eq
  intro i hi
  simp only [BusWord.addr, busWord, BitVec.getLsbD_extractLsb', BitVec.getLsbD_append]
  have : ¬ (32 + i < 32) := by omega
  simp [hi]

@[simp] theorem busWord_data (b : Bool) (a : RegAddr) (d : Word) :
    BusWord.data (busWord b a d) = d := by
  apply BitVec.eq_of_getLsbD_eq
  intro i hi
  simp only [BusWord.data, busWord, BitVec.getLsbD_extractLsb', BitVec.getLsbD_append, Nat.zero_add,
    hi, decide_true, Bool.true_and, if_true]

/-! ### Events -/

/-- The state after a `clk_ctl` cycle (60_exceptions.md R204). -/
def cycleAfter (sample : Option Word) (bus : Option BusWord) (s : State) : State :=
  let t := match sample with
    | none => s
    | some r => sensorSample r s
  match bus with
  | none => t
  | some w =>
    if BusWord.we w then after (decode (.ctlBus w)) t
    else driveRdata (readValue (decode (.ctlBus w)) s) t

/-- The state after an event. -/
def eventAfter (e : Event) (s : State) : State :=
  match e with
  | .ctl sample bus => cycleAfter sample bus s
  | .blkReq w => requestBlock w s
  | .render => renderStep s
  | .consume => consumeStep s
  | .copy f => copyField f s
  | .ack f => ackField f s
  | .copyBlk => copyBlkTotal s
  | .copySilent => copyIsSilent s
  | .reset => resetStep s

/-- A cycle goes on: the read value is of the start of the cycle, the sample comes next, the write
is last. -/
theorem ctlCycle_eq (sample : Option Word) (bus : Option BusWord) (s : State) :
    ctlCycle sample bus s = .next (cycleAfter sample bus s) := by
  cases sample with
  | none =>
    cases bus with
    | none => rfl
    | some w =>
      cases h : BusWord.we w
      · have hr : (decode (.ctlBus w)).isBusRead = true := by rw [decode_ctlBus_isBusRead, h]; rfl
        simp [ctlCycle, cycleAfter, exec_eq_after, h, after_of_isBusRead hr]
      · simp [ctlCycle, cycleAfter, exec_eq_after, h]
  | some r =>
    cases bus with
    | none => rfl
    | some w =>
      cases h : BusWord.we w
      · have hr : (decode (.ctlBus w)).isBusRead = true := by rw [decode_ctlBus_isBusRead, h]; rfl
        simp [ctlCycle, cycleAfter, exec_eq_after, h, hr, after_of_isBusRead hr, andThen]
        simp [decode, after, sensorSample_driveRdata]
      · have hr : (decode (.ctlBus w)).isBusRead = false := by
          rw [decode_ctlBus_isBusRead, h]; rfl
        simp [ctlCycle, cycleAfter, exec_eq_after, h, hr, andThen]
        rfl

/-- Every event goes on. -/
theorem takeEvent_eq (e : Event) (s : State) : takeEvent e s = .next (eventAfter e s) := by
  cases e with
  | ctl sample bus => exact ctlCycle_eq sample bus s
  | _ => rfl

/-! ### The step -/

/-- The state after a step of a legal machine. -/
def stepAfter (s : State) : State :=
  match s.schedule with
  | [] => quiet s
  | e :: rest => eventAfter e (eventStart s rest)

theorem takeNext_eq (s : State) : takeNext s = .next (stepAfter s) := by
  unfold takeNext stepAfter
  cases s.schedule with
  | nil => rfl
  | cons e rest => exact takeEvent_eq e _

theorem step_of_legal {s : State} (h : legalConfig s.cfg = true) :
    step s = .next (stepAfter s) := by
  simp [step, h, takeNext_eq]

/-- Everything a step that goes on can be: the configuration is legal and the next state is
`stepAfter`. -/
theorem step_next_iff {s t : State} :
    step s = .next t ↔ legalConfig s.cfg = true ∧ t = stepAfter s := by
  cases h : legalConfig s.cfg
  · simp [step, h]
  · simp [step_of_legal h, eq_comm]

theorem step_of_schedule {s : State} {e : Event} {rest : List Event}
    (h : legalConfig s.cfg = true) (he : s.schedule = e :: rest) :
    step s = .next (eventAfter e (eventStart s rest)) := by
  rw [step_of_legal h, stepAfter, he]

/-! ### eventStart -/

@[simp] theorem eventStart_cfg (s : State) (l : List Event) : (eventStart s l).cfg = s.cfg := rfl
@[simp] theorem eventStart_ctl (s : State) (l : List Event) : (eventStart s l).ctl = s.ctl := rfl
@[simp] theorem eventStart_aud (s : State) (l : List Event) : (eventStart s l).aud = s.aud := rfl
@[simp] theorem eventStart_ports (s : State) (l : List Event) :
    (eventStart s l).ports = Ports.quiet := rfl
@[simp] theorem eventStart_stream (s : State) (l : List Event) :
    (eventStart s l).stream = s.stream := rfl
@[simp] theorem eventStart_schedule (s : State) (l : List Event) :
    (eventStart s l).schedule = l := rfl

/-! ### Runs -/

theorem runSchedule_nil (s : State) : runSchedule [] s = .next { s with schedule := [] } := rfl

/-- An event leaves the configuration. -/
@[simp] theorem eventAfter_cfg (e : Event) (s : State) : (eventAfter e s).cfg = s.cfg := by
  cases e with
  | ctl x w =>
    cases x <;> cases w <;> simp only [eventAfter, cycleAfter] <;> (try split) <;> simp
  | _ => simp [eventAfter]

/-- Only `step` takes events off the schedule. -/
@[simp] theorem eventAfter_schedule (e : Event) (s : State) :
    (eventAfter e s).schedule = s.schedule := by
  cases e with
  | ctl x w =>
    cases x <;> cases w <;> simp only [eventAfter, cycleAfter] <;> (try split) <;> simp
  | _ => simp [eventAfter]

theorem with_own_schedule {t : State} {es : List Event} (h : t.schedule = es) :
    { t with schedule := es } = t := by
  subst h; rfl

/-- A run takes its events one by one. -/
theorem runSchedule_cons {s : State} (h : legalConfig s.cfg = true) (e : Event)
    (es : List Event) :
    runSchedule (e :: es) s = runSchedule es (eventAfter e (eventStart s es)) := by
  have hs : core.step { s with schedule := e :: es } = .next (eventAfter e (eventStart s es)) :=
    step_of_schedule (s := { s with schedule := e :: es }) h rfl
  unfold runSchedule
  rw [with_own_schedule (t := eventAfter e (eventStart s es)) (by simp)]
  simp only [List.length_cons, Host.Core.run, hs]
  rfl

end Sys2Proof.Machine
end

