-- ==== Sys2Proof/Laws/Fairness.lean ====
section
/-! SUPPORT. What an event does to one handed-off field, how a run without end continues, and that
fair runs exist: every finite run goes on as a fair one, so fairness shuts no finite behaviour
out. -/

namespace Sys2Proof.Machine

/-! ### Handoff agents -/

/-- A handoff agent is never disabled (20_memory.md R64 to R66). -/
theorem handoffAgent_enabled {a : Event} (h : a ∈ handoffAgents) (s : State) :
    eventEnabled a s = true := by
  simp only [handoffAgents, List.mem_cons, List.not_mem_nil, or_false] at h
  rcases h with rfl | rfl | rfl | rfl | rfl | rfl | rfl | rfl | rfl | rfl <;> rfl

/-- So weak fairness says that every handoff agent steps again and again. -/
theorem weaklyFair_iff (es : Nat → Event) (run : Nat → State) :
    WeaklyFair es run ↔ ∀ a ∈ handoffAgents, ∀ n, ∃ k ≥ n, es k = a :=
  ⟨fun h a ha n => h a ha n (fun _ _ => handoffAgent_enabled ha _),
    fun h a ha n _ => h a ha n⟩

theorem copy_mem_handoffAgents (f : Field) : .copy f ∈ handoffAgents := by cases f <;> decide

theorem ack_mem_handoffAgents (f : Field) : .ack f ∈ handoffAgents := by cases f <;> decide

/-! ### Runs -/

/-- The next state of a run. -/
theorem IsRun.succ {es : Nat → Event} {run : Nat → State} (h : IsRun es run) (n : Nat) :
    run (n + 1) = eventAfter (es n) (eventStart (run n) []) :=
  (step_next_iff.1 (h n)).2

/-- A run has a legal configuration throughout. -/
theorem IsRun.legal {es : Nat → Event} {run : Nat → State} (h : IsRun es run) (n : Nat) :
    legalConfig (run n).cfg = true :=
  (step_next_iff.1 (h n)).1

/-- The run from `s` that takes the events `es`. -/
def runFrom (s : State) (es : Nat → Event) : Nat → State
  | 0 => s
  | n + 1 => eventAfter (es n) (eventStart (runFrom s es n) [])

theorem runFrom_cfg (s : State) (es : Nat → Event) (n : Nat) :
    (runFrom s es n).cfg = s.cfg := by
  induction n with
  | zero => rfl
  | succ n ih => simp [runFrom, ih]

/-- Every sequence of events is taken by a run from every legal state. -/
theorem isRun_runFrom {s : State} (h : legalConfig s.cfg = true) (es : Nat → Event) :
    IsRun es (runFrom s es) := by
  intro n
  have hl : legalConfig (runFrom s es n).cfg = true := by rw [runFrom_cfg, h]
  exact step_of_schedule (s := { runFrom s es n with schedule := [es n] }) hl rfl

/-- A finite list of events first, then the handoff agents in turn, for ever. -/
def fairEvents (es : List Event) (n : Nat) : Event :=
  es.getD n (handoffAgents.getD (n % 10) .copyBlk)

/-- Every finite list of events goes on as a fair run, from every legal state. -/
theorem exists_fairRun {s : State} (h : legalConfig s.cfg = true) (es : List Event) :
    ∃ run, run 0 = s ∧ FairRun (fairEvents es) run ∧
      ∀ n (hn : n < es.length), fairEvents es n = es[n] := by
  refine ⟨runFrom s (fairEvents es), rfl, ⟨isRun_runFrom h _, ?_⟩, fun n hn => ?_⟩
  · rw [weaklyFair_iff]
    intro a ha n
    obtain ⟨i, hi, rfl⟩ := List.getElem_of_mem ha
    have hi10 : i < 10 := hi
    refine ⟨10 * (n + es.length) + i, by omega, ?_⟩
    have hm : (10 * (n + es.length) + i) % 10 = i := by omega
    have hp : es.length ≤ 10 * (n + es.length) + i := by omega
    simp only [fairEvents, List.getD_eq_getElem?_getD, List.getElem?_eq_none hp, hm,
      List.getElem?_eq_getElem hi, Option.getD_none, Option.getD_some]
  · simp [fairEvents, List.getD_eq_getElem?_getD, List.getElem?_eq_getElem hn]

/-! ### One field -/

/-- The operation does not touch the field's control value and flags. -/
def KeepsField (f : Field) (s t : State) : Prop :=
  controlWord f t.ctl = controlWord f s.ctl ∧ fieldSync f t.ctl = fieldSync f s.ctl

theorem KeepsField.refl (f : Field) (s : State) : KeepsField f s s := ⟨rfl, rfl⟩

theorem KeepsField.of_ctl {f : Field} {s t : State} (h : t.ctl = s.ctl) : KeepsField f s t := by
  rw [KeepsField, h]; exact ⟨rfl, rfl⟩

/-- A sample keeps a field it does not write. -/
theorem sensorSample_keepsField {f : Field} {s : State} (r : Word)
    (h : operationWrites f s (.sens r) = false) : KeepsField f s (sensorSample r s) := by
  cases f with
  | tfreq =>
    rcases sensorSample_cases r s with ⟨_, hs⟩ | ⟨hr, hp, _⟩
    · rw [hs]; exact KeepsField.refl _ _
    · simp [operationWrites, hr, hp] at h
  | _ =>
    obtain ⟨_, _, _, hn, _, _, _, hs⟩ := sensorSample_frame r s
    rcases sensorSample_cases r s with ⟨_, hd⟩ | ⟨hr, hp, hd⟩
    · rw [hd]; exact KeepsField.refl _ _
    · rw [hs]; exact ⟨rfl, rfl⟩

/-- A command keeps the parameter fields, and runstate where it does not write it. -/
theorem commandEffect_keepsField {f : Field} {s : State} (d : Word)
    (h : operationWrites f s (.wrCmd d) = false) : KeepsField f s (commandEffect d s) := by
  have hf := commandEffect_frame d s
  cases f with
  | tfreq => exact ⟨hf.tfreq, hf.syncTfreq⟩
  | tamp => exact ⟨hf.tamp, hf.syncTamp⟩
  | gain => exact ⟨hf.gain, hf.syncGain⟩
  | runstate =>
    obtain ⟨u, hu, hc⟩ := commandEffect_cases d s
    have hus : u = s := by
      rcases hu with ⟨h1, rfl⟩ | ⟨h1, h2, rfl⟩ | ⟨_, _, rfl⟩
      · rcases stopEngine_cases s with ⟨_, k⟩ | ⟨k, _⟩
        · exact k
        · simp [operationWrites, h1, k] at h
      · rcases startEngine_cases s with ⟨_, k⟩ | ⟨k, _⟩
        · exact k
        · simp [operationWrites, h1, h2, k] at h
      · rfl
    rcases hc with ⟨_, hc⟩ | ⟨_, hc⟩ <;> rw [hc, hus] <;> exact ⟨rfl, rfl⟩

/-- An operation keeps a field it does not write. -/
theorem after_keepsField {f : Field} {i : Instr} {s : State}
    (h : operationWrites f s i = false) : KeepsField f s (after i s) := by
  cases i with
  | wrCmd d => exact commandEffect_keepsField d h
  | sens r => exact sensorSample_keepsField r h
  | blk w => exact KeepsField.of_ctl (by simp [after])
  | wrTargetFreq d => cases f <;> first | exact ⟨rfl, rfl⟩ | cases h
  | wrTargetAmp d => cases f <;> first | exact ⟨rfl, rfl⟩ | cases h
  | wrVolume d => cases f <;> first | exact ⟨rfl, rfl⟩ | cases h
  | wrSensorPause d => cases f <;> exact ⟨rfl, rfl⟩
  | _ => exact KeepsField.of_ctl rfl

/-- Whether an operation writes a field depends on the run and pause bits alone, and a sample
leaves both. -/
theorem operationWrites_sensorSample (f : Field) (s : State) (r : Word) (i : Instr) :
    operationWrites f (sensorSample r s) i = operationWrites f s i := by
  obtain ⟨_, _, _, _, _, _, _, h⟩ := sensorSample_frame r s
  rw [h]; cases f <;> cases i <;> rfl

theorem KeepsField.trans {f : Field} {s t u : State} (h : KeepsField f s t)
    (k : KeepsField f t u) : KeepsField f s u :=
  ⟨k.1.trans h.1, k.2.trans h.2⟩

/-- The bus part of a cycle keeps a field it does not write. -/
theorem busPart_keepsField {f : Field} {w : BusWord} {t : State} (v : Word)
    (h : operationWrites f t (decode (.ctlBus w)) = false) :
    KeepsField f t (if BusWord.we w then after (decode (.ctlBus w)) t else driveRdata v t) := by
  split
  · exact after_keepsField h
  · exact KeepsField.of_ctl rfl

/-- A `clk_ctl` cycle keeps a field it does not write. -/
theorem cycleAfter_keepsField {f : Field} {x : Option Word} {w : Option BusWord} {s : State}
    (h : eventWrites f s (.ctl x w) = false) : KeepsField f s (cycleAfter x w s) := by
  simp only [eventWrites, Bool.or_eq_false_iff] at h
  obtain ⟨hx, hw⟩ := h
  cases x with
  | none =>
    cases w with
    | none => exact KeepsField.refl _ _
    | some w => exact busPart_keepsField _ hw
  | some r =>
    have hs := sensorSample_keepsField r hx
    cases w with
    | none => exact hs
    | some w =>
      exact hs.trans (busPart_keepsField _ ((operationWrites_sensorSample f s r _).trans hw))

/-- Everything an event that is no write of a field and no reset can do to its control value and
flags: only the field's own COPY and ACK change a flag, and nothing changes the value. -/
theorem eventAfter_field {f : Field} {e : Event} {s : State} (hw : eventWrites f s e = false)
    (hr : e ≠ .reset) :
    controlWord f (eventAfter e s).ctl = controlWord f s.ctl ∧
      fieldSync f (eventAfter e s).ctl =
        if e = .copy f then (fieldSync f s.ctl).copied
        else if e = .ack f then (fieldSync f s.ctl).acked
        else fieldSync f s.ctl := by
  cases e with
  | ctl x w => exact cycleAfter_keepsField hw
  | copy g => cases f <;> cases g <;> exact ⟨rfl, rfl⟩
  | ack g => cases f <;> cases g <;> exact ⟨rfl, rfl⟩
  | blkReq w => exact KeepsField.of_ctl (requestBlock_ctl w s)
  | render => exact KeepsField.of_ctl (renderStep_ctl s)
  | consume => exact KeepsField.of_ctl (consumeStep_ctl s)
  | copyBlk => cases f <;> exact ⟨rfl, rfl⟩
  | copySilent => cases f <;> exact ⟨rfl, rfl⟩
  | reset => exact absurd rfl hr

end Sys2Proof.Machine
end

