-- ==== Sys2Proof/Laws/Float.lean ====
section
/-! SUPPORT. What the proofs about the floating-point primitives rest on: a pattern is at most the
one of infinity, a larger pattern is a larger value, and the unpacked forms are those three. -/

namespace Sys2Proof.Machine

/-- A rounded magnitude is a finite pattern or the one of infinity. -/
theorem Fmt.roundMag_le (f : Fmt) (num den : Nat) : f.roundMag num den ≤ f.infBits :=
  Nat.min_le_right _ _

/-- A subnormal pattern is its own value in quanta. -/
theorem Fmt.quanta_subnormal (f : Fmt) {p : Nat} (h : p < 2 ^ f.fracBits) : f.quanta p = p := by
  simp [Fmt.quanta, Nat.div_eq_of_lt h, Nat.mod_eq_of_lt h]

/-- A normal pattern with exponent field `e + 1` and fraction `m`. -/
theorem Fmt.quanta_normal (f : Fmt) (e : Nat) {m : Nat} (h : m < 2 ^ f.fracBits) :
    f.quanta ((e + 1) * 2 ^ f.fracBits + m) = (2 ^ f.fracBits + m) * 2 ^ e := by
  have hp : 0 < 2 ^ f.fracBits := by positivity
  have hd : ((e + 1) * 2 ^ f.fracBits + m) / 2 ^ f.fracBits = e + 1 := by
    rw [Nat.add_comm, Nat.add_mul_div_right _ _ hp, Nat.div_eq_of_lt h, Nat.zero_add]
  have hm : ((e + 1) * 2 ^ f.fracBits + m) % 2 ^ f.fracBits = m := by
    rw [Nat.add_comm, Nat.add_mul_mod_self_right, Nat.mod_eq_of_lt h]
  simp [Fmt.quanta, hd, hm]

/-- Every pattern is a subnormal or a normal one. -/
theorem Fmt.pattern_cases (f : Fmt) (p : Nat) :
    p < 2 ^ f.fracBits ∨ ∃ e m, m < 2 ^ f.fracBits ∧ p = (e + 1) * 2 ^ f.fracBits + m := by
  rcases Nat.lt_or_ge p (2 ^ f.fracBits) with h | h
  · exact .inl h
  · have hp : 0 < 2 ^ f.fracBits := by positivity
    refine .inr ⟨p / 2 ^ f.fracBits - 1, p % 2 ^ f.fracBits, Nat.mod_lt _ hp, ?_⟩
    rw [Nat.sub_add_cancel ((Nat.one_le_div_iff hp).2 h)]
    exact (Nat.div_add_mod' p (2 ^ f.fracBits)).symm

/-- The next pattern is a larger value. -/
theorem Fmt.quanta_lt_succ (f : Fmt) (p : Nat) : f.quanta p < f.quanta (p + 1) := by
  have hp : 0 < 2 ^ f.fracBits := by positivity
  rcases f.pattern_cases p with h | ⟨e, m, hm, rfl⟩
  · rw [f.quanta_subnormal h]
    rcases Nat.lt_or_ge (p + 1) (2 ^ f.fracBits) with h1 | h1
    · rw [f.quanta_subnormal h1]; omega
    · have hq := f.quanta_normal 0 (m := 0) hp
      have : p + 1 = (0 + 1) * 2 ^ f.fracBits + 0 := by omega
      rw [this, hq]
      simp; omega
  · rw [f.quanta_normal e hm]
    rcases Nat.lt_or_ge (m + 1) (2 ^ f.fracBits) with h1 | h1
    · rw [Nat.add_assoc, f.quanta_normal e h1]
      exact Nat.mul_lt_mul_of_pos_right (by omega) (by positivity)
    · have hm1 : m + 1 = 2 ^ f.fracBits := by omega
      have : (e + 1) * 2 ^ f.fracBits + m + 1 = (e + 1 + 1) * 2 ^ f.fracBits + 0 := by
        rw [Nat.add_assoc, hm1]; ring
      rw [this, f.quanta_normal (e + 1) hp, pow_succ 2 e, Nat.add_zero]
      have : 0 < 2 ^ e := by positivity
      calc (2 ^ f.fracBits + m) * 2 ^ e < (2 ^ f.fracBits * 2) * 2 ^ e :=
            Nat.mul_lt_mul_of_pos_right (by omega) this
        _ = 2 ^ f.fracBits * (2 ^ e * 2) := by ring

/-- Patterns without the sign bit are ordered as their values. -/
theorem Fmt.quanta_strictMono (f : Fmt) : StrictMono f.quanta :=
  strictMono_nat_of_lt_succ f.quanta_lt_succ

/-- What an unpacked pattern can be. -/
theorem Fmt.unpack_cases (f : Fmt) (bits : Nat) :
    (bits % f.signBit < f.infBits ∧ f.unpack bits =
      .fin (bits / f.signBit % 2 == 1) (f.quanta (bits % f.signBit)) (2 ^ f.quantumLog)) ∨
    (bits % f.signBit = f.infBits ∧ f.unpack bits = .inf (bits / f.signBit % 2 == 1)) ∨
    (f.infBits < bits % f.signBit ∧ f.unpack bits = .nan) := by
  rcases Nat.lt_trichotomy (bits % f.signBit) f.infBits with h | h | h
  · exact .inl ⟨h, by simp [Fmt.unpack, h]⟩
  · exact .inr (.inl ⟨h, by simp [Fmt.unpack, h]⟩)
  · exact .inr (.inr ⟨h, by simp [Fmt.unpack, Nat.not_lt.2 h.le, h.ne']⟩)

end Sys2Proof.Machine
end

