-- ==== Sys2Proof/Laws/PerInstr.lean ====
section
/-! SUPPORT. One lemma per operation: its word is a table word of its port, so that what the host
numbers is what the encoder writes. -/

/-- The number of an operation's word, read back at its bit count, is the operation's word. -/
def Sys2Proof.Laws.TableNumber.Statement (i : Sys2Proof.Instr) : Prop :=
  Sys2Proof.portWordOf (Sys2Proof.encode i).nbits (Sys2Proof.encode i).number =
    .ok (Sys2Proof.encode i)

namespace Sys2Proof.Laws.TableNumber

theorem of_bus (w : BusWord) :
    portWordOf (PortWord.ctlBus w).nbits (PortWord.ctlBus w).number = .ok (.ctlBus w) := by
  have h := w.isLt
  simp [portWordOf, PortWord.nbits, PortWord.number, h]

theorem of_blk (w : BlkWord) :
    portWordOf (PortWord.blkReq w).nbits (PortWord.blkReq w).number = .ok (.blkReq w) := by
  have h := w.isLt
  simp [portWordOf, PortWord.nbits, PortWord.number, h]

theorem of_sens (w : Word) :
    portWordOf (PortWord.sensor w).nbits (PortWord.sensor w).number = .ok (.sensor w) := by
  have h := w.isLt
  simp [portWordOf, PortWord.nbits, PortWord.number, h]

theorem rdId : Statement .rdId := of_bus _
theorem rdCmd : Statement .rdCmd := of_bus _
theorem rdSensorPause : Statement .rdSensorPause := of_bus _
theorem rdStatus : Statement .rdStatus := of_bus _
theorem rdTargetFreq : Statement .rdTargetFreq := of_bus _
theorem rdTargetAmp : Statement .rdTargetAmp := of_bus _
theorem rdVolume : Statement .rdVolume := of_bus _
theorem rdMasterGain : Statement .rdMasterGain := of_bus _
theorem rdMagnitude : Statement .rdMagnitude := of_bus _
theorem rdCntRender : Statement .rdCntRender := of_bus _
theorem rdCntSensor : Statement .rdCntSensor := of_bus _
theorem rdConfig : Statement .rdConfig := of_bus _
theorem rdSampleRate : Statement .rdSampleRate := of_bus _
theorem rdReserved (a : RegAddr) : Statement (.rdReserved a) := of_bus _
theorem wrCmd (d : Word) : Statement (.wrCmd d) := of_bus _
theorem wrSensorPause (d : Word) : Statement (.wrSensorPause d) := of_bus _
theorem wrTargetFreq (d : Word) : Statement (.wrTargetFreq d) := of_bus _
theorem wrTargetAmp (d : Word) : Statement (.wrTargetAmp d) := of_bus _
theorem wrVolume (d : Word) : Statement (.wrVolume d) := of_bus _
theorem wrIgnored (a : RegAddr) (d : Word) : Statement (.wrIgnored a d) := of_bus _
theorem blk (f : BlkWord) : Statement (.blk f) := of_blk _
theorem sens (r : Word) : Statement (.sens r) := of_sens _

end Sys2Proof.Laws.TableNumber
end

