-- ==== Sys2Proof/Tests/Slice0.lean ====
section
/-! SUPPORT. Tests of fixed values, each from the place of spec/ its docstring names, and for every
obligation with hypotheses a witness that meets them together. -/

namespace Sys2Proof.Tests

open Sys2Proof Sys2Proof.Machine

-- Many small kernel evaluations: one after another, so that few threads stand at a time.
set_option Elab.async false

/-! ### Well-formedness -/

/-- 30_encoding.md R103: 0x0C is SAMPLE_RATE, so no reserved address. -/
theorem test_wellFormed_refuses_reserved_below_0x0D :
    (Instr.rdReserved 0x0C).wellFormed = false := by decide

/-- 41_param_channel.md R163: a write to VOLUME, and to TARGET_FREQ, is not an ignored one. -/
theorem test_wellFormed_refuses_ignored_write_to_volume :
    (Instr.wrIgnored 0x06 1).wellFormed = false ∧ (Instr.wrIgnored 0x04 0).wellFormed = false := by
  decide

theorem test_wellFormed_admits_the_edges :
    (Instr.rdReserved 0x0D).wellFormed = true ∧ (Instr.rdReserved 0x3F).wellFormed = true ∧
      (Instr.wrIgnored 0x00 0).wellFormed = true ∧ (Instr.wrIgnored 0x3F 0).wellFormed = true := by
  decide

/-! ### Decoding: words written out from 30_encoding.md R81, R83, R85 and R105 -/

theorem test_decode_rdId : decodeTableWord 40 0x0000000000 = some .rdId := by decide
theorem test_decode_rdCmd : decodeTableWord 40 0x0100000000 = some .rdCmd := by decide
theorem test_decode_rdSensorPause : decodeTableWord 40 0x0200000000 = some .rdSensorPause := by
  decide
/-- WE = 0, A = 000011, D = 0, bit by bit. -/
theorem test_decode_rdStatus :
    decodeTableWord 40 0b000001100000000000000000000000000000000 = some .rdStatus := by decide
theorem test_decode_rdTargetFreq : decodeTableWord 40 0x0400000000 = some .rdTargetFreq := by decide
theorem test_decode_rdTargetAmp : decodeTableWord 40 0x0500000000 = some .rdTargetAmp := by decide
theorem test_decode_rdVolume : decodeTableWord 40 0x0600000000 = some .rdVolume := by decide
theorem test_decode_rdMasterGain : decodeTableWord 40 0x0700000000 = some .rdMasterGain := by decide
theorem test_decode_rdMagnitude : decodeTableWord 40 0x0800000000 = some .rdMagnitude := by decide
theorem test_decode_rdCntRender : decodeTableWord 40 0x0900000000 = some .rdCntRender := by decide
theorem test_decode_rdCntSensor : decodeTableWord 40 0x0A00000000 = some .rdCntSensor := by decide
theorem test_decode_rdConfig : decodeTableWord 40 0x0B00000000 = some .rdConfig := by decide
theorem test_decode_rdSampleRate : decodeTableWord 40 0x0C00000000 = some .rdSampleRate := by decide
theorem test_decode_rdReserved :
    decodeTableWord 40 0x0D00000000 = some (.rdReserved 0x0D) ∧
      decodeTableWord 40 0x3F00000000 = some (.rdReserved 0x3F) := by decide
/-- WE = 1, A = 000001, D with bits 2 and 0, bit by bit. -/
theorem test_decode_wrCmd :
    decodeTableWord 40 0b100000100000000000000000000000000000101 = some (.wrCmd 5) := by decide
theorem test_decode_wrSensorPause :
    decodeTableWord 40 0x4200000001 = some (.wrSensorPause 1) := by decide
theorem test_decode_wrTargetFreq :
    decodeTableWord 40 0x4443DC0000 = some (.wrTargetFreq 0x43DC0000) := by decide
theorem test_decode_wrTargetAmp :
    decodeTableWord 40 0x453F800000 = some (.wrTargetAmp 0x3F800000) := by decide
theorem test_decode_wrVolume :
    decodeTableWord 40 0x4640200000 = some (.wrVolume 0x40200000) := by decide
theorem test_decode_wrIgnored :
    decodeTableWord 40 0x4012345678 = some (.wrIgnored 0x00 0x12345678) ∧
      decodeTableWord 40 0x473F800000 = some (.wrIgnored 0x07 0x3F800000) ∧
      decodeTableWord 40 0x7FFFFFFFFF = some (.wrIgnored 0x3F 0xFFFFFFFF) := by decide
/-- F = 100, bit by bit. -/
theorem test_decode_blk : decodeTableWord 16 0b0000000001100100 = some (.blk 100) := by decide
/-- R = 0.5: sign 0, exponent 126, fraction 0, bit by bit. -/
theorem test_decode_sens :
    decodeTableWord 32 0b00111111000000000000000000000000 = some (.sens 0x3F000000) := by decide

/-- 30_encoding.md R81: D is masked out of a read. -/
theorem test_decode_ignores_data_of_a_read :
    decodeTableWord 40 0x03FFFFFFFF = some .rdStatus := by decide

/-- Log entry 13: bit 39 is no wire, and no format has 24 bits. -/
theorem test_decode_refuses_no_word :
    decodeTableWord 40 0x8000000000 = none ∧ decodeTableWord 24 0 = none := by decide

/-! ### Steps -/

/-- A value of the next state; none where the step does not go on. -/
def nextValue {α : Type} (o : Result) (f : State → α) : Option α :=
  match o with
  | .next t => some (f t)
  | .fault _ => none
  | .refused _ => none

/-- The step that presents a bus word in `s`. -/
def busStep (s : State) (w : Nat) : Result := step (s.withFetchWord 40 w)

/-- The read data of the step that presents a bus word in `s`. -/
def busRead (s : State) (w : Nat) : Option (Option Word) := nextValue (busStep s w) (·.ports.rdata)

/-- The machine right after reset, but for its control domain. -/
def withCtl (c : Ctl) : State := { State.reset with ctl := c }

/-- Running, unpaused, with a debounce count and a smoothed value. -/
def listening (count : BitVec 16) (smoothed : Word) : State :=
  withCtl { Ctl.reset with run := true, stillCount := count, smoothed := smoothed }

/-- `CFG-8`, idle, epoch 1 seen and running, with an oscillator and shadows. -/
def sounding (phase : DWord) (curFreq curAmp rTfreq rTamp : Word) : State :=
  { State.resetWith Config.cfg8 with
    aud := { Aud.reset with
      rRunstate := 3, seenEpoch := 1, rGain := 0x3F800000, rTfreq := rTfreq, rTamp := rTamp,
      phase := phase, curFreq := curFreq, curAmp := curAmp, isSilent := false } }

/-- 95_test_vectors.md section 2.2, the reads after reset. -/
theorem test_rdId : busRead State.reset 0x0000000000 = some (some 0x4F445331) := by decide +kernel
theorem test_rdCmd : busRead State.reset 0x0100000000 = some (some 0) := by decide +kernel
theorem test_rdSensorPause :
    busRead (withCtl { Ctl.reset with pause := true }) 0x0200000000 = some (some 1) := by
  decide +kernel
/-- V-BUS-14. -/
theorem test_rdStatus : busRead (listening 50 0) 0x0300000000 = some (some 0x00003207) := by
  decide +kernel
/-- V-BUS-13. -/
theorem test_rdStatus_awake : busRead (listening 49 0) 0x0300000000 = some (some 0x00003105) := by
  decide +kernel
theorem test_rdTargetFreq : busRead State.reset 0x0400000000 = some (some 0x42C80000) := by
  decide +kernel
/-- V-BUS-3. -/
theorem test_rdTargetAmp :
    busRead (withCtl { Ctl.reset with tamp := 0xBF800000 }) 0x0500000000 =
      some (some 0xBF800000) := by decide +kernel
theorem test_rdVolume : busRead State.reset 0x0600000000 = some (some 0) := by decide +kernel
theorem test_rdMasterGain :
    busRead (withCtl { Ctl.reset with gain := 0x3ECCCCCD }) 0x0700000000 =
      some (some 0x3ECCCCCD) := by decide +kernel
theorem test_rdMagnitude :
    busRead (listening 0 0x3E0F5C04) 0x0800000000 = some (some 0x3E0F5C04) := by decide +kernel
theorem test_rdCntRender :
    busRead (withCtl { Ctl.reset with cntRender := 3 }) 0x0900000000 = some (some 3) := by
  decide +kernel
theorem test_rdCntSensor :
    busRead (withCtl { Ctl.reset with cntSensor := 51 }) 0x0A00000000 = some (some 51) := by
  decide +kernel
theorem test_rdConfig : busRead State.reset 0x0B00000000 = some (some 0x0032000C) := by
  decide +kernel
/-- 95_test_vectors.md section 0, `CFG-8`. -/
theorem test_rdConfig_cfg8 :
    busRead (State.resetWith Config.cfg8) 0x0B00000000 = some (some 0x00320003) := by
  decide +kernel
theorem test_rdSampleRate : busRead State.reset 0x0C00000000 = some (some 0x0000BB80) := by
  decide +kernel
theorem test_rdReserved : busRead State.reset 0x3F00000000 = some (some 0) := by decide +kernel

/-- V-BUS-7: the new epoch, and STATUS 0x0000000D before the handoff. -/
theorem test_wrCmd_start :
    nextValue (busStep State.reset 0x4100000001)
      (fun t => (t.ctl.epoch, statusWord t.cfg t.ctl)) = some (1, 0x0000000D) := by decide +kernel
/-- V-BUS-9 and V-BUS-12: STOP wins over START, SNAP applies, the block difference wraps. -/
theorem test_wrCmd_all_bits :
    nextValue (busStep
        (withCtl { Ctl.reset with run := true, blkSeen := 1, blkBase := 0xFFFFFFFF, sensCount := 3 })
        0x41FFFFFFFF)
      (fun t => (t.ctl.run, t.ctl.cntRender, t.ctl.cntSensor, t.ctl.sensCount)) =
      some (false, 2, 3, 0) := by decide +kernel
/-- V-BUS-4. -/
theorem test_wrSensorPause :
    nextValue (busStep State.reset 0x42FFFFFFFE) (·.ctl.pause) = some false := by decide +kernel
/-- V-BUS-5. -/
theorem test_wrSensorPause_bit0 :
    nextValue (busStep State.reset 0x42FFFFFFFF) (·.ctl.pause) = some true := by decide +kernel
/-- V-BUS-2: a NaN payload is kept; section 2.3, step 1: the flags. -/
theorem test_wrTargetFreq :
    nextValue (busStep State.reset 0x447FC00001) (fun t => (t.ctl.tfreq, t.ctl.syncTfreq)) =
      some (0x7FC00001, ⟨true, false⟩) := by decide +kernel
theorem test_wrTargetAmp :
    nextValue (busStep State.reset 0x45BF800000) (fun t => (t.ctl.tamp, t.ctl.syncTamp)) =
      some (0xBF800000, ⟨true, false⟩) := by decide +kernel
/-- V-BUS-1, D = 2.5 and D = 1e38. -/
theorem test_wrVolume :
    nextValue (busStep State.reset 0x4640200000) (·.ctl.gain) = some 0x3F800000 ∧
      nextValue (busStep State.reset 0x467E967699) (·.ctl.gain) = some 0x7DF0BDC2 := by
  decide +kernel
/-- V-BUS-10: no SYNC_PEND. -/
theorem test_wrIgnored :
    nextValue (busStep State.reset 0x473F800000) (fun t => (t.ctl, t.aud)) =
      some (Ctl.reset, Aud.reset) := by decide +kernel

/-- V-ING-4 and V-FSM-5 with P2 lines 55 to 58: motion wakes the detector. -/
theorem test_sens_wakes :
    nextValue (step ((listening 50 0x3D4CCC11).withFetchWord 32 0x3F000000))
      (fun t => (t.ctl.smoothed, t.ctl.stillCount, t.ports.hwResume, t.ctl.tfreq)) =
      some (0x3E0F5C04, 0, true, 0x42FFFFF2) := by decide +kernel
/-- E3, the 50th sample: one suspend, and the mapper's write of P2 line 54. -/
theorem test_sens_suspends :
    nextValue (step ((listening 49 0x3D4CCBE1).withFetchWord 32 0x3D4CCCCD))
      (fun t => (t.ctl.smoothed, t.ctl.stillCount, t.ports.hwSuspend, t.ctl.tfreq)) =
      some (0x3D4CCC11, 50, true, 0x42DBFFEE) := by decide +kernel

/-- P1 line 6: a new epoch, and the two steps of the ramp. -/
theorem test_blk_ramp :
    nextValue (step (State.withFetchWord { State.resetWith Config.cfg8 with
        aud := { Aud.reset with rRunstate := 3, rTamp := 0x3F800000, rTfreq := 0x41000000 } }
        16 4))
      (fun t => (t.aud.mode, t.aud.ampStep, t.aud.freqStep, t.aud.seenEpoch)) =
      some (.ramp, 0x3E800000, 0x40000000, 1) := by decide +kernel
/-- V-OSC-4: the fast path keeps phase and frequency. -/
theorem test_blk_fastPath :
    nextValue (step ((sounding 0x4004000000000000 0x41000000 0x3A03126F 0x41000000 0).withFetchWord
        16 4))
      (fun t => (t.aud.mode, t.aud.curAmp, t.aud.isSilent, t.aud.curFreq, t.aud.phase)) =
      some (.zero, 0, true, 0x41000000, 0x4004000000000000) := by decide +kernel

/-! ### The other agents -/

/-- V-OSC-11 and V-OSC-8 shape the index; V-OSC-1. -/
theorem test_floorModN :
    [0x3FE8000000000000, 0x40B0008000000000, 0x40BFFF0000000000, 0xBFE0000000000000,
      0x8000000000000000, 0x7FF8000000000000, 0x7FF0000000000000, 0xFFF0000000000000].map
      (floorModN Config.default) = [0, 0, 4095, 4095, 0, 0, 0, 0] := by decide +kernel

/-- V-OSC-13, the -0.0 and the canonical NaN among them. -/
theorem test_outputSample :
    outputSample 0x3F000000 0x3F800000 0x3ECCCCCD = 0x3E4CCCCD ∧
      outputSample 0xBF000000 0 0x3F800000 = 0x80000000 ∧
      outputSample 0x3F800000 0x3F800000 0x7FC00000 = 0x7FC00000 := by decide +kernel

/-- A machine in the middle of a block of mode RAMP that sounds at full amplitude. -/
def midBlock (phase : DWord) (freq : Word) (idx frames : BlkWord) (rest : List Event) : State :=
  { sounding phase freq 0x3F800000 freq 0x3F800000 with
    aud := { (sounding phase freq 0x3F800000 freq 0x3F800000).aud with
      busy := true, mode := .ramp, frames := frames, idx := idx,
      sTamp := 0x3F800000, sTfreq := freq, sGain := 0x3F800000 }
    schedule := rest }

/-- P1 block 3, sample 1: the word of index 7, and the wrap of 8.5 to 0.5. -/
theorem test_render_wraps :
    nextValue (step (midBlock 0x401E000000000000 0x41000000 1 4 [.render]))
      (fun t => (t.aud.outWord, t.aud.phase, t.aud.idx)) =
      some (0xBF000000, 0x3FE0000000000000, 2) := by decide +kernel

/-- 20_memory.md R65 and section 2.3, steps 2 and 7. -/
theorem test_ack :
    nextValue (step { withCtl { Ctl.reset with syncTfreq := ⟨true, false⟩ } with
        schedule := [.ack .tfreq] }) (·.ctl.syncTfreq) = some ⟨true, false⟩ ∧
      nextValue (step { withCtl { Ctl.reset with syncTfreq := ⟨true, true⟩ } with
        schedule := [.ack .tfreq] }) (·.ctl.syncTfreq) = some ⟨false, true⟩ := by decide +kernel

/-- 00_scope.md R8: K of the default configuration, and of `CFG-8` (95_test_vectors.md section
0). -/
theorem test_incrementK :
    incrementK Config.default = 0x3FB5D867C3ECE2A5 ∧
      incrementK Config.cfg8 = 0x3FC0000000000000 := by decide +kernel

/-- 00_scope.md R10: a table entry above 1.0 makes a configuration illegal. -/
theorem test_illegal_configurations :
    legalConfig { Config.cfg8 with tableLog2 := 1, wt := .entries [0, 0x3F800001] } = false ∧
      legalConfig { Config.default with t := 0 } = false ∧
      legalConfig { Config.default with fs := 16777216 } = false := by decide +kernel

/-! ### Witnesses: the hypotheses of each obligation, met together -/

/-- A legal machine with a schedule. -/
def scheduled (es : List Event) : State := { State.reset with schedule := es }

theorem legal_default : legalConfig Config.default = true := by decide
theorem legal_cfg8 : legalConfig Config.cfg8 = true := by decide +kernel

theorem witness_decodeInvertsEncode :
    (Instr.rdReserved 0x0D).wellFormed = true ∧ (Instr.wrIgnored 0x03 7).wellFormed = true := by
  decide

theorem witness_stepRunsPresentedOperation :
    legalConfig (scheduled [presentWord (.ctlBus 0x4100000001), .render]).cfg = true ∧
      (scheduled [presentWord (.ctlBus 0x4100000001), .render]).schedule =
        presentWord (.ctlBus 0x4100000001) :: [.render] := ⟨legal_default, rfl⟩

theorem witness_cycleReadsThenSamplesThenWrites_read :
    legalConfig (scheduled [.ctl (some 0) (some 0x0300000000)]).cfg = true ∧
      (scheduled [.ctl (some 0) (some 0x0300000000)]).schedule =
        .ctl (some 0) (some 0x0300000000) :: [] ∧
      BusWord.we 0x0300000000 = false := ⟨legal_default, rfl, by decide⟩

theorem witness_cycleReadsThenSamplesThenWrites_write :
    legalConfig (scheduled [.ctl (some 0) (some 0x4443DC0000)]).cfg = true ∧
      (scheduled [.ctl (some 0) (some 0x4443DC0000)]).schedule =
        .ctl (some 0) (some 0x4443DC0000) :: [] ∧
      BusWord.we 0x4443DC0000 = true := ⟨legal_default, rfl, by decide⟩

/-- A running or stopped machine in whose next cycle a sample meets a bus word. -/
def sameCycle (run : Bool) (w : BusWord) : State :=
  { withCtl { Ctl.reset with run := run } with schedule := [.ctl (some 0x3F800000) (some w)] }

/-- V-SIM-1, V-SIM-2, V-SIM-3 and V-SIM-5. -/
theorem witness_sameCycle_running (w : BusWord)
    (_ : w = busWord true 0x04 0x43DC0000 ∨ w = busWord true 0x01 0x4 ∨
      w = busWord true 0x01 0x2 ∨ w = busWord true 0x02 0x1) :
    (sameCycle true w).ctl.run = true ∧ (sameCycle true w).ctl.pause = false ∧
      (sameCycle true w).schedule = .ctl (some 0x3F800000) (some w) :: [] ∧
      ∃ t, step (sameCycle true w) = .next t :=
  ⟨rfl, rfl, rfl, _, step_of_legal legal_default⟩

/-- V-SIM-4. -/
theorem witness_sameCycle_stopped :
    (sameCycle false (busWord true 0x01 0x1)).ctl.run = false ∧
      (sameCycle false (busWord true 0x01 0x1)).schedule =
        .ctl (some 0x3F800000) (some (busWord true 0x01 0x1)) :: [] ∧
      ∃ t, step (sameCycle false (busWord true 0x01 0x1)) = .next t :=
  ⟨rfl, rfl, _, step_of_legal legal_default⟩

theorem witness_noStepOfALegalMachineStops : legalConfig State.reset.cfg = true := legal_default

theorem witness_eventsWithNothingToDo_idle :
    legalConfig State.reset.cfg = true ∧ State.reset.schedule = [] := ⟨legal_default, rfl⟩

theorem witness_eventsWithNothingToDo_emptyCycle :
    legalConfig (scheduled [.ctl none none]).cfg = true ∧
      (scheduled [.ctl none none]).schedule = .ctl none none :: [] := ⟨legal_default, rfl⟩

theorem witness_eventsWithNothingToDo_render :
    legalConfig (scheduled [.render]).cfg = true ∧
      (scheduled [.render]).schedule = .render :: [] ∧
      (scheduled [.render]).aud.busy = false ∧
      (midBlock 0 0x41000000 4 4 [.render]).schedule = .render :: [] ∧
      legalConfig (midBlock 0 0x41000000 4 4 [.render]).cfg = true ∧
      (midBlock 0 0x41000000 4 4 [.render]).aud.frames.toNat ≤
        (midBlock 0 0x41000000 4 4 [.render]).aud.idx.toNat :=
  ⟨legal_default, rfl, rfl, rfl, legal_cfg8, by decide⟩

theorem witness_eventsWithNothingToDo_consume :
    legalConfig (scheduled [.consume]).cfg = true ∧
      (scheduled [.consume]).schedule = .consume :: [] ∧
      (scheduled [.consume]).aud.outFull = false := ⟨legal_default, rfl, rfl⟩

/-- A block in progress whose sample waits. -/
def waiting (idx frames : BlkWord) (es : List Event) : State :=
  { midBlock 0 0x41000000 idx frames es with
    aud := { (midBlock 0 0x41000000 idx frames es).aud with outFull := true } }

theorem witness_eventsWithNothingToDo_render_waiting :
    legalConfig (waiting 1 4 [.render]).cfg = true ∧
      (waiting 1 4 [.render]).schedule = .render :: [] ∧
      (waiting 1 4 [.render]).aud.outFull = true := ⟨legal_cfg8, rfl, rfl⟩

theorem witness_noStepWritesTheConfiguration : ∃ t, step (scheduled [.reset]) = .next t :=
  ⟨_, step_of_legal legal_default⟩

theorem witness_reservedAddresses :
    0x0D ≤ (0x0D : RegAddr).toNat ∧ 0x0D ≤ (0x3F : RegAddr).toNat := by decide

theorem witness_configurationRegistersRead :
    legalConfig { Config.default with t := 65535, tableLog2 := 16, fs := 16777215 } = true ∧
      legalConfig { Config.default with t := 1, tableLog2 := 1, fs := 1 } = true := by decide

theorem witness_everyBusRead : BusWord.we 0x3FFFFFFFFF = false := by decide

theorem witness_otherWritesAreIgnored :
    let ok := fun a : RegAddr => a ≠ 0x01 ∧ a ≠ 0x02 ∧ a ≠ 0x04 ∧ a ≠ 0x05 ∧ a ≠ 0x06
    ok 0x00 ∧ ok 0x03 ∧ ok 0x07 ∧ ok 0x3F := by decide

theorem witness_startAndStopCommands_start :
    (0x1 : Word).getLsbD 2 = false ∧ (0x1 : Word).getLsbD 0 = true ∧
      (0x1 : Word).getLsbD 1 = false ∧ State.reset.ctl.run = false ∧
      (listening 0 0).ctl.run = true := by decide

theorem witness_startAndStopCommands_stop :
    (0x3 : Word).getLsbD 2 = false ∧ (0x3 : Word).getLsbD 1 = true ∧
      State.reset.ctl.run = false ∧ (listening 0 0).ctl.run = true := by decide

theorem witness_snapCommand :
    ∃ t u, exec (.wrCmd 0x4) State.reset = .next t ∧ exec (.wrCmd 0x4) t = .next u :=
  ⟨_, _, rfl, rfl⟩

theorem witness_commandBits :
    (0xFFFFFFFF : Word).getLsbD 1 = true ∧ (0xFFFFFFFF : Word).getLsbD 2 = true ∧
      (0xFFFFFFF8 : Word) &&& 0x7 = 0 := by decide

theorem witness_onlyTheHostSets_amplitude :
    ∃ t, step (scheduled [.ctl none (some 0x453F800000)]) = .next t ∧
      t.ctl.tamp ≠ (scheduled [.ctl none (some 0x453F800000)]).ctl.tamp :=
  ⟨_, step_of_legal legal_default, by decide⟩

theorem witness_onlyTheHostSets_gain :
    ∃ t, step (scheduled [.ctl none (some 0x463F800000)]) = .next t ∧
      t.ctl.gain ≠ (scheduled [.ctl none (some 0x463F800000)]).ctl.gain :=
  ⟨_, step_of_legal legal_default, by decide +kernel⟩

theorem witness_sampleDropped :
    State.reset.ctl.run = false ∧ (withCtl { Ctl.reset with pause := true }).ctl.pause = true :=
  ⟨rfl, rfl⟩

theorem witness_processedSample :
    (listening 0 0).ctl.run = true ∧ (listening 0 0).ctl.pause = false := ⟨rfl, rfl⟩

/-- The next cycle of a listening machine brings one sample. -/
def sampled (count : BitVec 16) (smoothed raw : Word) : State :=
  { listening count smoothed with schedule := [.ctl (some raw) none] }

theorem witness_requestsMark_suspend :
    DebounceBounded (sampled 49 0 0) ∧
      ∃ t, step (sampled 49 0 0) = .next t ∧ t.ports.hwSuspend = true :=
  ⟨by unfold DebounceBounded; decide, _, step_of_legal legal_default, by decide +kernel⟩

theorem witness_requestsMark_resume :
    DebounceBounded (sampled 50 0 0x3F800000) ∧
      ∃ t, step (sampled 50 0 0x3F800000) = .next t ∧ t.ports.hwResume = true :=
  ⟨by unfold DebounceBounded; decide, _, step_of_legal legal_default, by decide +kernel⟩

theorem witness_requestsMark_none :
    DebounceBounded (sampled 48 0 0) ∧
      ∃ t, step (sampled 48 0 0) = .next t ∧ t.ports.hwSuspend = false ∧
        t.ports.hwResume = false :=
  ⟨by unfold DebounceBounded; decide, _, step_of_legal legal_default, by decide +kernel⟩

/-- 43_stillness_fsm.md R180: both requests occur in a run, so the statement is of something. -/
theorem witness_suspendAndResumeAlternate :
    DebounceBounded (listening 49 0) ∧
      (∀ e ∈ sampleCycles [0, 0x3F800000], restartsDetector e = false) ∧
      requestsOfRun 2 { listening 49 0 with schedule := sampleCycles [0, 0x3F800000] } =
        [.suspend, .resume] :=
  ⟨by unfold DebounceBounded; decide, by decide, by decide +kernel⟩

theorem witness_debounceTakesExactlyTSamples :
    legalConfig (listening 48 0).cfg = true ∧ (listening 48 0).ctl.run = true ∧
      (listening 48 0).ctl.pause = false ∧
      (listening 48 0).ctl.stillCount.toNat + [(0 : Word), 0x3D4CCCCD].length =
        (listening 48 0).cfg.t ∧
      allStill (listening 48 0).cfg (listening 48 0).ctl.smoothed [0, 0x3D4CCCCD] :=
  ⟨legal_default, rfl, rfl, by decide, by decide +kernel, by decide +kernel, trivial⟩

theorem witness_blockRequestAcceptance :
    (waiting 1 4 []).aud.busy = true ∧ State.reset.aud.busy = false := ⟨rfl, rfl⟩

theorem witness_blockWhileStopped :
    State.reset.aud.busy = false ∧ (3 : BlkWord) ≠ 0 ∧
      State.reset.aud.rRunstate.getLsbD 0 = false := by decide

/-- With a new epoch, and with the one already seen and an amplitude of EPS exactly (V-OSC-5). -/
theorem witness_silentBlock :
    (∃ s : State, s.aud.busy = false ∧ s.aud.rRunstate.getLsbD 0 = true ∧
      s.aud.rRunstate.extractLsb' 1 31 ≠ s.aud.seenEpoch ∧
      f32Le s.aud.rTamp s.cfg.eps = true ∧ f32Le 0 s.cfg.eps = true) ∧
    ∃ s : State, s.aud.busy = false ∧ s.aud.rRunstate.getLsbD 0 = true ∧
      s.aud.rRunstate.extractLsb' 1 31 = s.aud.seenEpoch ∧ s.aud.curAmp = s.cfg.eps ∧
      f32Le s.aud.rTamp s.cfg.eps = true ∧ f32Le s.aud.curAmp s.cfg.eps = true :=
  ⟨⟨{ State.reset with aud := { Aud.reset with rRunstate := 3 } }, by decide +kernel⟩,
    ⟨sounding 0 0x41000000 0x3A83126F 0x41000000 0x3A83126F, by decide +kernel⟩⟩

theorem witness_rampBlock :
    ∃ s : State, s.aud.busy = false ∧ s.aud.rRunstate.getLsbD 0 = true ∧
      s.aud.rRunstate.extractLsb' 1 31 = s.aud.seenEpoch ∧
      ¬ (f32Le s.aud.rTamp s.cfg.eps = true ∧ f32Le s.aud.curAmp s.cfg.eps = true) :=
  ⟨sounding 0 0x41000000 0 0x41000000 0x3A831270, by decide +kernel⟩

theorem witness_renderZeroSample :
    ∃ s : State, legalConfig s.cfg = true ∧ s.schedule = .render :: [] ∧ s.aud.busy = true ∧
      s.aud.mode = .zero ∧ s.aud.idx.toNat < s.aud.frames.toNat ∧ s.aud.outFull = false :=
  ⟨{ State.reset with aud := { Aud.reset with busy := true, frames := 1 }, schedule := [.render] },
    by decide +kernel⟩

/-- In the middle of a block and at its last sample. -/
theorem witness_renderRampSample :
    ∀ s ∈ [midBlock 0 0x41000000 0 4 [.render], midBlock 0 0x41000000 3 4 [.render]],
      legalConfig s.cfg = true ∧ s.schedule = .render :: [] ∧ s.aud.busy = true ∧
        s.aud.mode = .ramp ∧ s.aud.idx.toNat < s.aud.frames.toNat ∧ s.aud.outFull = false := by
  decide +kernel

theorem witness_consumeSample :
    (∀ s ∈ [waiting 1 4 [.consume], waiting 4 4 [.consume]],
      legalConfig s.cfg = true ∧ s.schedule = .consume :: [] ∧ s.aud.outFull = true) ∧
      (waiting 1 4 [.consume]).aud.idx ≠ (waiting 1 4 [.consume]).aud.frames ∧
      (waiting 4 4 [.consume]).aud.idx = (waiting 4 4 [.consume]).aud.frames := by
  decide +kernel

/-- Idle, rendering and waiting. -/
theorem witness_exactlyOneRenderStepIsEnabled :
    SequencerSound Aud.reset ∧ SequencerSound (midBlock 0 0 0 1 []).aud ∧
      SequencerSound (waiting 1 1 []).aud := by
  unfold SequencerSound; decide

theorem witness_blockEmitsExactlyItsFrames :
    legalConfig State.reset.cfg = true ∧ State.reset.aud.busy = false ∧
      State.reset.aud.outFull = false ∧ (0xFFFF : BlkWord) ≠ 0 := by decide

theorem witness_silentAndStoppedBlocks_stopped :
    legalConfig State.reset.cfg = true ∧ State.reset.aud.busy = false ∧
      State.reset.aud.outFull = false ∧ State.reset.aud.rRunstate.getLsbD 0 = false := by decide

theorem witness_silentAndStoppedBlocks_silent :
    ∃ s : State, legalConfig s.cfg = true ∧ s.aud.busy = false ∧ s.aud.outFull = false ∧
      s.aud.rRunstate.getLsbD 0 = true ∧ f32Le s.aud.rTamp s.cfg.eps = true ∧
      f32Le (if s.aud.rRunstate.extractLsb' 1 31 = s.aud.seenEpoch then s.aud.curAmp else 0)
        s.cfg.eps = true :=
  ⟨sounding 0 0x41000000 0x3A83126F 0x41000000 0, by decide +kernel⟩

theorem witness_rampBlockEndsOnItsTargets :
    ∃ s u : State, legalConfig s.cfg = true ∧ s.aud.busy = false ∧ s.aud.outFull = false ∧
      exec (.blk 100) s = .next u ∧ u.aud.mode = .ramp :=
  ⟨sounding 0 0x43DC0000 0x3F800000 0x445C0000 0x3F800000, _, legal_cfg8, rfl, rfl, rfl,
    by decide +kernel⟩

theorem finiteNonzero_one : FiniteNonzero 0x3F800000 :=
  ⟨false, 2 ^ 23 * 2 ^ 126, 2 ^ 149, by decide +kernel, by decide +kernel⟩

theorem witness_steadyBlock_request :
    ∃ s t : State, s.aud.busy = false ∧ s.aud.rRunstate.getLsbD 0 = true ∧
      s.aud.rRunstate.extractLsb' 1 31 = s.aud.seenEpoch ∧ s.aud.curAmp = s.aud.rTamp ∧
      FiniteNonzero s.aud.rTamp ∧ f32Le s.aud.rTamp s.cfg.eps = false ∧
      exec (.blk 4) s = .next t :=
  ⟨sounding 0 0x41000000 0x3F800000 0x41000000 0x3F800000, _, rfl, by decide, by decide, rfl,
    finiteNonzero_one, by decide +kernel, rfl⟩

theorem witness_steadyBlock_sample :
    ∃ s t : State, s.schedule = .render :: [] ∧ renderEnabled s.aud = true ∧
      s.aud.mode = .ramp ∧ s.aud.ampStep = 0 ∧ s.aud.curAmp = s.aud.sTamp ∧
      FiniteNonzero s.aud.sTamp ∧ step s = .next t :=
  ⟨midBlock 0 0x41000000 0 4 [.render], _, rfl, by decide, rfl, rfl, rfl, finiteNonzero_one,
    step_of_legal legal_cfg8⟩

/-- Just below N with the largest increment, N/2: frequency 32 in `CFG-8`. -/
theorem witness_phaseStaysInTheTable :
    ∃ s t : State, s.schedule = .render :: [] ∧ renderEnabled s.aud = true ∧
      s.aud.mode = .ramp ∧ PhaseInTable s.cfg s.aud.phase ∧
      IncrementBounded s.cfg (f32Add s.aud.curFreq s.aud.freqStep) ∧ step s = .next t :=
  ⟨midBlock 0x401FFFFFFFFFFFFF 0x42000000 0 4 [.render], _, rfl, by decide, rfl,
    by unfold PhaseInTable; decide +kernel, by unfold IncrementBounded; decide +kernel,
    step_of_legal legal_cfg8⟩

theorem witness_tableIndexIsFloorModN :
    (∃ neg num den, unpack64 0xBFE0000000000000 = .fin neg num den) ∧
      ∀ neg num den, unpack64 0x7FF0000000000000 ≠ .fin neg num den := by
  have h : unpack64 0x7FF0000000000000 = .inf false := by decide +kernel
  refine ⟨⟨true, 2 ^ 52 * 2 ^ 1021, 2 ^ 1074, by decide +kernel⟩, fun _ _ _ => ?_⟩
  rw [h]; simp

theorem witness_legalTableGivesBoundedOutput :
    legalConfig Config.cfg8 = true ∧ legalEntry 0xBF800000 = true ∧ legalEntry 0 = true ∧
      legalEntry 0x3F800000 = true := by decide +kernel

/-- Each of the ten handoff steps can be next. -/
theorem witness_handoffSteps (e : Event) :
    legalConfig (scheduled [e]).cfg = true ∧ (scheduled [e]).schedule = e :: [] :=
  ⟨legal_default, rfl⟩

theorem witness_noPendingWrite :
    HandoffsSound State.reset ∧ (statusWord State.reset.cfg State.reset.ctl).getLsbD 3 = false ∧
      State.reset.aud.busy = false ∧ ∃ t, exec (.blk 1) State.reset = .next t :=
  ⟨by unfold HandoffsSound SyncSound; decide, by decide, rfl, _, rfl⟩

theorem witness_handoffStepsBring : legalConfig (listening 0 0).cfg = true := legal_default

theorem witness_shadowsChangeOnlyByTheirCopy :
    (scheduled [.copy .tfreq]).schedule = .copy .tfreq :: [] ∧ Event.copy .tfreq ≠ .reset ∧
      ∃ t, step (scheduled [.copy .tfreq]) = .next t :=
  ⟨rfl, by decide, _, step_of_legal legal_default⟩

/-- The same block, once alone and once with a host write and its handoff between the samples. -/
theorem witness_blockIsIndependent :
    let es : List Event := [.render, .consume]
    let fs : List Event := [.render, .ctl none (some 0x4500000000), .copy .tamp, .consume]
    (∀ e ∈ es, keepsBlock e = true) ∧ (∀ e ∈ fs, keepsBlock e = true) ∧
      es.filter isSampleStep = fs.filter isSampleStep ∧
      (∃ s', runSchedule es (midBlock 0 0x41000000 0 4 []) = .next s') ∧
      ∃ t', runSchedule fs (midBlock 0 0x41000000 0 4 []) = .next t' := by
  refine ⟨by decide, by decide, by decide, ?_, ?_⟩ <;>
  · simp only [runSchedule_cons, legal_cfg8, midBlock, sounding, State.resetWith, eventAfter_cfg,
      eventStart_cfg, runSchedule_nil]
    exact ⟨_, rfl⟩

/-- Two states that differ, in a register the spec leaves unspecified. -/
theorem witness_unspecifiedRegistersNeverShow :
    let s := State.reset
    let t := { State.reset with aud := { Aud.reset with frames := 5, mode := .ramp, outWord := 1 } }
    s ≠ t ∧ SameReadable s t ∧ ∃ s', step s = .next s' :=
  ⟨by decide, by unfold SameReadable; decide, _, step_of_legal legal_default⟩

/-- A reset in the middle of a block (70_reset_and_hazards.md R222). -/
theorem witness_resetStep :
    legalConfig (midBlock 0 0x41000000 1 4 [.reset]).cfg = true ∧
      (midBlock 0 0x41000000 1 4 [.reset]).schedule = .reset :: [] := ⟨legal_cfg8, rfl⟩

theorem witness_everyStepKeepsTheInvariant :
    Machine.Inv (scheduled [.blkReq 4]) ∧ ∃ t, step (scheduled [.blkReq 4]) = .next t :=
  ⟨by unfold Machine.Inv DebounceBounded SequencerSound HandoffsSound SyncSound; decide, _,
    step_of_legal legal_default⟩

/-- A tie in binary32: 2^24 + 1 units of the last place of a 25-bit number goes to the even
pattern, and half way to the power above the largest finite value goes to infinity. -/
theorem witness_roundingIsToNearestEven :
    binary32.roundMag (2 ^ 24 + 1) 1 < binary32.infBits ∧
      binary32.quanta (binary32.roundMag (2 ^ 24 + 1) 1) = 2 ^ 24 ∧
      binary32.roundMag (2 ^ 277 - 2 ^ 252) 1 = binary32.infBits := by decide +kernel

theorem witness_nanResultsAreCanonical :
    IsNaN32 (f32Add 0x7F800000 0xFF800000) ∧ IsNaN32 (f32Mul 0 0x7F800000) ∧
      IsNaN64 (f64Sub 0x7FF0000000000000 0x7FF0000000000000) ∧ IsNaN64 (f32ToF64 0x7F800001) := by
  unfold IsNaN32 IsNaN64; decide +kernel

theorem witness_conversionsAreExact :
    ¬ IsNaN32 0x80000001 ∧ ¬ IsNaN64 0x8000000000000001 ∧
      ∃ neg n d, unpack32 0x80000001 = .fin neg n d := by
  refine ⟨?_, ?_, true, 1, 2 ^ 149, by decide +kernel⟩
  · unfold IsNaN32; decide +kernel
  · unfold IsNaN64; decide +kernel

/-- A fair run from reset that starts the engine, writes a frequency and asks for a block of
no frames. -/
theorem witness_fairRunsBringEveryWriteAcross :
    let es : List Event :=
      [.ctl none (some 0x4100000001), .ctl none (some 0x4443DC0000), .blkReq 0]
    ∃ run, run 0 = State.reset ∧ FairRun (fairEvents es) run ∧
      (∀ n (hn : n < es.length), fairEvents es n = es[n]) :=
  exists_fairRun legal_default _

/-- The premises of its clauses between the write of step 1 and step 15, past the COPY (step 10) and
the ACK (step 14) of the frequency, when a block can be accepted; the block count and the silence
flag stay from step 3 on. -/
theorem witness_fairRunsBringEveryWriteAcross_clauses :
    let es := fairEvents [.ctl none (some 0x4100000001), .ctl none (some 0x4443DC0000), .blkReq 0]
    let run := runFrom State.reset es
    es 10 = .copy .tfreq ∧ es 14 = .ack .tfreq ∧ es 8 = .copyBlk ∧ es 9 = .copySilent ∧
      (∀ j < 15, 2 ≤ j → eventWrites .tfreq (run j) (es j) = false ∧ es j ≠ .reset) ∧
      (∀ j < 16, 3 ≤ j → (run j).aud.blkTotal = (run 3).aud.blkTotal ∧
        (run j).aud.isSilent = (run 3).aud.isSilent) ∧
      (run 15).aud.busy = false ∧ eventWrites .tfreq (run 1) (es 1) = true ∧
      (run 1).ctl.tfreq ≠ (run 2).ctl.tfreq := by
  decide +kernel

/-- A schedule with no handoff step is not fair. -/
theorem test_notFair (run : Nat → State) : ¬ WeaklyFair (fun _ => .render) run := by
  rw [weaklyFair_iff]
  intro h
  obtain ⟨_, _, hk⟩ := h (.copy .tfreq) (copy_mem_handoffAgents _) 0
  cases hk

/-- 41_param_channel.md R148, R149: a START while running writes no runstate, one while stopped
does, and a STOP the other way round. -/
theorem test_operationWrites_runstate :
    operationWrites .runstate (listening 0 0) (.wrCmd 1) = false ∧
      operationWrites .runstate State.reset (.wrCmd 1) = true ∧
      operationWrites .runstate (listening 0 0) (.wrCmd 3) = true ∧
      operationWrites .runstate State.reset (.wrCmd 3) = false := by decide

end Sys2Proof.Tests
end

section
/-! SUPPORT. Rounding as a choice between the two neighbouring patterns that bracket a ratio, and
what packing and unpacking a pattern with its sign bit give. Every proof about a rounded result goes
through `Fmt.roundMag_cases` and `Fmt.unpack_withSign` and does not open `roundMag` or `unpack`. -/

namespace Sys2Proof.Machine

/-! ### The bracket of a ratio -/

/-- The value of the pattern `roundMag` reads off a shift and a significand, a carry out of the
significand included. -/
theorem Fmt.quanta_shifted (f : Fmt) {shift sig : Nat} (hle : sig ≤ 2 * 2 ^ f.fracBits)
    (hge : shift = 0 ∨ 2 ^ f.fracBits ≤ sig) :
    f.quanta (shift * 2 ^ f.fracBits + sig) = sig * 2 ^ shift := by
  have hp : 0 < 2 ^ f.fracBits := by positivity
  rcases Nat.lt_or_ge sig (2 ^ f.fracBits) with hsub | hnorm
  · obtain rfl : shift = 0 := by omega
    simp [f.quanta_subnormal hsub]
  · rcases Nat.lt_or_ge sig (2 * 2 ^ f.fracBits) with hlt | hcarry
    · have hsplit : shift * 2 ^ f.fracBits + sig =
          (shift + 1) * 2 ^ f.fracBits + (sig - 2 ^ f.fracBits) := by
        rw [Nat.add_mul]; omega
      rw [hsplit, f.quanta_normal shift (by omega), Nat.add_sub_cancel' hnorm]
    · obtain rfl : sig = 2 * 2 ^ f.fracBits := by omega
      have hsplit : shift * 2 ^ f.fracBits + 2 * 2 ^ f.fracBits =
          (shift + 1 + 1) * 2 ^ f.fracBits + 0 := by ring
      rw [hsplit, f.quanta_normal (shift + 1) hp]
      ring

/-- After the shift of `roundMag` at most `k + 1` bits are left, and exactly so many if bits were
lost. -/
theorem div_log2_shift (n k : Nat) :
    n / 2 ^ (Nat.log2 n - k) < 2 * 2 ^ k ∧
      (Nat.log2 n - k = 0 ∨ 2 ^ k ≤ n / 2 ^ (Nat.log2 n - k)) := by
  have hlt : n < 2 ^ (Nat.log2 n + 1) := Nat.lt_log2_self
  rcases Nat.le_total (Nat.log2 n) k with h | h
  · rw [Nat.sub_eq_zero_of_le h, pow_zero, Nat.div_one, ← pow_succ']
    exact ⟨hlt.trans_le (Nat.pow_le_pow_right (by decide) (by omega)), .inl rfl⟩
  · have hpos : 0 < 2 ^ (Nat.log2 n - k) := by positivity
    refine ⟨?_, ?_⟩
    · rw [Nat.div_lt_iff_lt_mul hpos, ← pow_succ', ← pow_add]
      exact hlt.trans_le (Nat.pow_le_pow_right (by decide) (by omega))
    · rcases Nat.eq_zero_or_pos n with rfl | hn
      · exact .inl (by simp)
      · rw [Nat.le_div_iff_mul_le hpos, ← pow_add, Nat.add_sub_cancel' h]
        exact .inr (Nat.log2_self_le hn.ne')

/-- The values of the patterns, scaled by a denominator, are ordered as the patterns. -/
theorem Fmt.scaled_strictMono (f : Fmt) {den : Nat} (hd : 0 < den) :
    StrictMono fun p => den * f.quanta p :=
  f.quanta_strictMono.const_mul hd

theorem roundsUp_iff (q r d : Nat) :
    roundsUp q r d = true ↔ d < 2 * r ∨ 2 * r = d ∧ q % 2 = 1 := by
  simp [roundsUp]

/-- Everything `roundMag` can do: of the neighbouring patterns `b` and `b + 1` that bracket the
ratio it takes the nearer one, and the even one at a tie; beyond the finite patterns it takes the
one of infinity. -/
theorem Fmt.roundMag_cases (f : Fmt) (hf : 0 < f.fracBits) (num : Nat) {den : Nat} (hd : 0 < den) :
    ∃ b, den * f.quanta b ≤ num ∧ num < den * f.quanta (b + 1) ∧
      (f.roundMag num den = min b f.infBits ∧
          (2 * num < den * f.quanta b + den * f.quanta (b + 1) ∨
            2 * num = den * f.quanta b + den * f.quanta (b + 1) ∧ b % 2 = 0) ∨
        f.roundMag num den = min (b + 1) f.infBits ∧
          (den * f.quanta b + den * f.quanta (b + 1) < 2 * num ∨
            2 * num = den * f.quanta b + den * f.quanta (b + 1) ∧ b % 2 = 1)) := by
  obtain ⟨hlt, hge⟩ := div_log2_shift (num / den) f.fracBits
  rw [Nat.div_div_eq_div_mul] at hlt hge
  unfold Fmt.roundMag
  dsimp only
  generalize Nat.log2 (num / den) - f.fracBits = shift at *
  have hrem := Nat.mod_lt num (show 0 < den * 2 ^ shift by positivity)
  have hdiv := Nat.div_add_mod num (den * 2 ^ shift)
  generalize num / (den * 2 ^ shift) = q at *
  generalize num % (den * 2 ^ shift) = r at *
  have hlo : den * f.quanta (shift * 2 ^ f.fracBits + q) = den * 2 ^ shift * q := by
    rw [f.quanta_shifted hlt.le hge]; ring
  have hhi : den * f.quanta (shift * 2 ^ f.fracBits + q + 1) =
      den * 2 ^ shift * q + den * 2 ^ shift := by
    rw [Nat.add_assoc, f.quanta_shifted (sig := q + 1) hlt (by omega)]; ring
  have hparity : (shift * 2 ^ f.fracBits + q) % 2 = q % 2 := by
    have h2 : 2 ∣ shift * 2 ^ f.fracBits := (dvd_pow_self 2 hf.ne').mul_left shift
    omega
  refine ⟨shift * 2 ^ f.fracBits + q, by omega, by omega, ?_⟩
  rw [hlo, hhi, hparity]
  by_cases hup : roundsUp q r (den * 2 ^ shift) = true
  · rw [if_pos hup]
    rw [roundsUp_iff] at hup
    exact .inr ⟨rfl, by omega⟩
  · rw [if_neg hup]
    rw [roundsUp_iff] at hup
    exact .inl ⟨rfl, by omega⟩

/-- A ratio that is the value of a pattern rounds to that pattern. -/
theorem Fmt.roundMag_exact (f : Fmt) (hf : 0 < f.fracBits) {num den p : Nat} (hd : 0 < den)
    (h : num = den * f.quanta p) : f.roundMag num den = min p f.infBits := by
  have hmono := f.scaled_strictMono hd
  obtain ⟨b, hlo, hhi, hround⟩ := f.roundMag_cases hf num hd
  obtain rfl : b = p := by
    have hle : b ≤ p := hmono.le_iff_le.1 (h ▸ hlo)
    have hlt : p < b + 1 := hmono.lt_iff_lt.1 (h ▸ hhi)
    omega
  rcases hround with ⟨hm, _⟩ | ⟨_, hup⟩
  · exact hm
  · omega

/-- Rounding never passes a pattern: what is at most its value rounds to at most it. -/
theorem Fmt.roundMag_le_of_le (f : Fmt) (hf : 0 < f.fracBits) {num den p : Nat} (hd : 0 < den)
    (h : num ≤ den * f.quanta p) : f.roundMag num den ≤ p := by
  have hmono := f.scaled_strictMono hd
  obtain ⟨b, hlo, hhi, hround⟩ := f.roundMag_cases hf num hd
  rcases Nat.lt_or_ge b p with hb | hb
  · omega
  · obtain rfl : b = p := le_antisymm (hmono.le_iff_le.1 (hlo.trans h)) hb
    omega

/-! ### The pattern of infinity -/

theorem Fmt.signBit_eq (f : Fmt) : f.signBit = f.infBits + 2 ^ f.fracBits := by
  have h : 0 < 2 ^ f.expBits := by positivity
  rw [Fmt.signBit, Fmt.infBits, pow_add, ← Nat.succ_mul, Nat.succ_eq_add_one,
    Nat.sub_add_cancel h]

theorem Fmt.infBits_lt_signBit (f : Fmt) : f.infBits < f.signBit := by
  rw [f.signBit_eq]
  exact Nat.lt_add_of_pos_right (by positivity)

theorem Fmt.nanBits_lt_signBit (f : Fmt) (hf : 0 < f.fracBits) : f.nanBits < f.signBit := by
  rw [f.signBit_eq, Fmt.nanBits]
  exact Nat.add_lt_add_left (Nat.pow_lt_pow_right (by decide) (by omega)) _

theorem Fmt.infBits_even (f : Fmt) (hf : 0 < f.fracBits) : f.infBits % 2 = 0 :=
  Nat.mod_eq_zero_of_dvd ((dvd_pow_self 2 hf.ne').mul_left _)

/-- Infinity's pattern, read as a finite one, is the next power of two. -/
theorem Fmt.quanta_infBits (f : Fmt) (hexp : 0 < f.expBits) :
    f.quanta f.infBits = 2 ^ (f.fracBits + (2 ^ f.expBits - 2)) := by
  have htwo : 2 ≤ 2 ^ f.expBits := Nat.le_self_pow hexp.ne' 2
  have hsplit : f.infBits = (2 ^ f.expBits - 2 + 1) * 2 ^ f.fracBits + 0 := by
    rw [Fmt.infBits, show 2 ^ f.expBits - 2 + 1 = 2 ^ f.expBits - 1 by omega, Nat.add_zero]
  rw [hsplit, f.quanta_normal _ (by positivity), Nat.add_zero, pow_add]

/-! ### Rounding to nearest -/

/-- Rounding gives infinity's pattern exactly from half way between the largest finite value and
the next power of two on. -/
theorem Fmt.roundMag_eq_infBits_iff (f : Fmt) (hf : 0 < f.fracBits) (hinf : 0 < f.infBits)
    (num : Nat) {den : Nat} (hd : 0 < den) :
    f.roundMag num den = f.infBits ↔
      den * (f.quanta (f.infBits - 1) + f.quanta f.infBits) ≤ 2 * num := by
  have hmono := (f.scaled_strictMono hd).monotone
  have heven := f.infBits_even hf
  obtain ⟨b, hlo, hhi, hround⟩ := f.roundMag_cases hf num hd
  rw [Nat.mul_add]
  rcases Nat.lt_trichotomy (b + 1) f.infBits with hb | hb | hb
  · have hlast := hmono (show b + 1 ≤ f.infBits - 1 by omega)
    have hnext := hmono hb.le
    simp only at hlast hnext
    omega
  · rw [← hb, Nat.add_sub_cancel]
    omega
  · have hlast := hmono (show f.infBits - 1 ≤ b by omega)
    have hnext := hmono (show f.infBits ≤ b by omega)
    simp only at hlast hnext
    omega

/-- How far a pattern's value is from a ratio, both scaled by the denominator. -/
def Fmt.distance (f : Fmt) (num den p : Nat) : Nat :=
  num - den * f.quanta p + (den * f.quanta p - num)

theorem Fmt.abs_eq_distance (f : Fmt) (num den p : Nat) :
    |(num : Int) - den * f.quanta p| = f.distance num den p := by
  rw [Int.abs_eq_natAbs, Fmt.distance, ← Nat.cast_mul]
  omega

/-- No pattern is nearer than a finite rounded one, and where another is as near, the rounded one is
even: patterns up to `b` lie no higher than `b`, the others no lower than `b + 1`. -/
theorem Fmt.roundMag_nearest (f : Fmt) (hf : 0 < f.fracBits) {num den : Nat} (hd : 0 < den)
    (hfin : f.roundMag num den < f.infBits) (p : Nat) :
    f.distance num den (f.roundMag num den) ≤ f.distance num den p ∧
      (f.distance num den p = f.distance num den (f.roundMag num den) →
        p ≠ f.roundMag num den → f.roundMag num den % 2 = 0) := by
  have hmono := f.scaled_strictMono hd
  obtain ⟨b, hlo, hhi, hround⟩ := f.roundMag_cases hf num hd
  have hp : p = b ∨ p = b + 1 ∨ den * f.quanta p < den * f.quanta b ∨
      den * f.quanta (b + 1) < den * f.quanta p := by
    rcases Nat.lt_trichotomy p b with h | h | h
    · exact .inr (.inr (.inl (hmono h)))
    · exact .inl h
    · rcases (Nat.succ_le_of_lt h).eq_or_lt with h | h
      · exact .inr (.inl h.symm)
      · exact .inr (.inr (.inr (hmono h)))
  unfold Fmt.distance
  rcases hround with ⟨hm, hnear⟩ | ⟨hm, hnear⟩
  · obtain hm : f.roundMag num den = b := by omega
    rw [hm]
    rcases hp with rfl | rfl | hp | hp <;> omega
  · obtain hm : f.roundMag num den = b + 1 := by omega
    rw [hm]
    rcases hp with rfl | rfl | hp | hp <;> omega

/-! ### Patterns with a sign bit -/

/-- A magnitude pattern with its sign bit. -/
def Fmt.withSign (f : Fmt) (neg : Bool) (mag : Nat) : Nat := (if neg then f.signBit else 0) + mag

@[simp] theorem Fmt.withSign_false (f : Fmt) (mag : Nat) : f.withSign false mag = mag :=
  Nat.zero_add mag

@[simp] theorem Fmt.withSign_true (f : Fmt) (mag : Nat) :
    f.withSign true mag = f.signBit + mag := rfl

theorem Fmt.pack_nan (f : Fmt) : f.pack .nan = f.nanBits := rfl

theorem Fmt.pack_inf (f : Fmt) (neg : Bool) : f.pack (.inf neg) = f.withSign neg f.infBits := rfl

theorem Fmt.pack_fin (f : Fmt) (neg : Bool) (num den : Nat) :
    f.pack (.fin neg num den) = f.withSign neg (f.roundMag (num * 2 ^ f.quantumLog) den) := rfl

theorem Fmt.withSign_lt (f : Fmt) (neg : Bool) {mag : Nat} (h : mag < f.signBit) :
    f.withSign neg mag < 2 * f.signBit := by
  cases neg
  · rw [f.withSign_false]; omega
  · rw [f.withSign_true]; omega

/-- A pattern is its sign bit and its magnitude. -/
theorem Fmt.withSign_parts (f : Fmt) {bits : Nat} (h : bits < 2 * f.signBit) :
    f.withSign (bits / f.signBit % 2 == 1) (bits % f.signBit) = bits := by
  have hpos : 0 < f.signBit := by unfold Fmt.signBit; positivity
  have hdiv := Nat.div_add_mod bits f.signBit
  rcases Nat.lt_or_ge bits f.signBit with hlt | hge
  · simp [Nat.div_eq_of_lt hlt, Nat.mod_eq_of_lt hlt]
  · have hone : bits / f.signBit = 1 := Nat.div_eq_of_lt_le (by omega) (by omega)
    rw [hone, Nat.mul_one] at hdiv
    simpa [hone] using hdiv

/-- The value of a pattern, from its sign and magnitude. -/
theorem Fmt.unpack_withSign (f : Fmt) (neg : Bool) {mag : Nat} (h : mag < f.signBit) :
    f.unpack (f.withSign neg mag) =
      if mag < f.infBits then .fin neg (f.quanta mag) (2 ^ f.quantumLog)
      else if mag = f.infBits then .inf neg else .nan := by
  have hmod : f.withSign neg mag % f.signBit = mag := by
    cases neg <;> simp [Nat.mod_eq_of_lt h]
  have hneg : (f.withSign neg mag / f.signBit % 2 == 1) = neg := by
    cases neg
    · simp [Nat.div_eq_of_lt h]
    · have hone : (f.signBit + mag) / f.signBit = 1 :=
        Nat.div_eq_of_lt_le (by omega) (by omega)
      simp [hone]
  simp only [Fmt.unpack, hmod, hneg]

/-! ### Packing and unpacking -/

theorem Fmt.roundMag_lt_signBit (f : Fmt) (num den : Nat) : f.roundMag num den < f.signBit :=
  (f.roundMag_le num den).trans_lt f.infBits_lt_signBit

/-- A packed value fits the word of its format. -/
theorem Fmt.pack_lt (f : Fmt) (hf : 0 < f.fracBits) (x : FP) : f.pack x < 2 * f.signBit := by
  cases x with
  | nan => have := f.nanBits_lt_signBit hf; rw [f.pack_nan]; omega
  | inf neg => rw [f.pack_inf]; exact f.withSign_lt neg f.infBits_lt_signBit
  | fin neg num den => rw [f.pack_fin]; exact f.withSign_lt neg (f.roundMag_lt_signBit _ _)

/-- Rounding a number or an infinity never makes a NaN. -/
theorem Fmt.eq_nan_of_unpack_pack (f : Fmt) {x : FP} (h : f.unpack (f.pack x) = .nan) :
    x = .nan := by
  cases x with
  | nan => rfl
  | inf neg =>
    rw [f.pack_inf, f.unpack_withSign neg f.infBits_lt_signBit] at h
    simp at h
  | fin neg num den =>
    rw [f.pack_fin, f.unpack_withSign neg (f.roundMag_lt_signBit _ _)] at h
    rcases (f.roundMag_le (num * 2 ^ f.quantumLog) den).lt_or_eq with hlt | heq
    · simp [hlt] at h
    · simp [heq] at h

/-- Every pattern but a NaN is packed back from its value. -/
theorem Fmt.pack_unpack (f : Fmt) (hf : 0 < f.fracBits) {bits : Nat} (hb : bits < 2 * f.signBit)
    (hn : f.unpack bits ≠ .nan) : f.pack (f.unpack bits) = bits := by
  rcases f.unpack_cases bits with ⟨hmag, hu⟩ | ⟨hmag, hu⟩ | ⟨_, hu⟩
  · rw [hu, f.pack_fin, f.roundMag_exact hf (by positivity) (Nat.mul_comm _ _),
      min_eq_left hmag.le, f.withSign_parts hb]
  · rw [hu, f.pack_inf, ← hmag, f.withSign_parts hb]
  · exact absurd hu hn

/-- A number that is the value of a finite pattern is packed without an error. -/
theorem Fmt.unpack_pack_exact (f : Fmt) (hf : 0 < f.fracBits) (neg : Bool) {num den p : Nat}
    (hd : 0 < den) (hp : p < f.infBits) (h : num * 2 ^ f.quantumLog = den * f.quanta p) :
    f.unpack (f.pack (.fin neg num den)) = .fin neg (f.quanta p) (2 ^ f.quantumLog) := by
  rw [f.pack_fin, f.roundMag_exact hf hd h, min_eq_left hp.le,
    f.unpack_withSign neg (hp.trans f.infBits_lt_signBit), if_pos hp]

/-- A significand that fits the format, times a power of two, is the value of a pattern. -/
theorem Fmt.exists_quanta_eq (f : Fmt) (k : Nat) :
    ∀ sig < 2 * 2 ^ f.fracBits, ∃ p, f.quanta p = sig * 2 ^ k := by
  induction k with
  | zero => exact fun sig h => ⟨sig, by simpa using f.quanta_shifted (shift := 0) h.le (.inl rfl)⟩
  | succ k ih =>
    intro sig h
    rcases Nat.lt_or_ge sig (2 ^ f.fracBits) with hsub | hnorm
    · obtain ⟨p, hp⟩ := ih (2 * sig) (by omega)
      exact ⟨p, by rw [hp]; ring⟩
    · exact ⟨_, f.quanta_shifted h.le (.inr hnorm)⟩

/-- A significand that fits the format times a power of two, below infinity's pattern, is the
value of a finite pattern. -/
theorem Fmt.exists_finite_quanta_eq (f : Fmt) (hexp : 0 < f.expBits) {sig k : Nat}
    (hsig : sig < 2 * 2 ^ f.fracBits) (hk : k + 1 ≤ 2 ^ f.expBits - 2) :
    ∃ p < f.infBits, f.quanta p = sig * 2 ^ k := by
  obtain ⟨p, hp⟩ := f.exists_quanta_eq k sig hsig
  refine ⟨p, f.quanta_strictMono.lt_iff_lt.1 ?_, hp⟩
  rw [hp, f.quanta_infBits hexp]
  calc sig * 2 ^ k < 2 * 2 ^ f.fracBits * 2 ^ k :=
        Nat.mul_lt_mul_of_pos_right hsig (Nat.two_pow_pos k)
    _ = 2 ^ (f.fracBits + (k + 1)) := by ring
    _ ≤ _ := Nat.pow_le_pow_right (by decide) (by omega)

/-- A natural number that fits the significand is packed without an error. -/
theorem Fmt.unpack_pack_natCast (f : Fmt) (hf : 0 < f.fracBits) (hexp : 0 < f.expBits)
    (hq : f.quantumLog + 1 ≤ 2 ^ f.expBits - 2) {n : Nat} (hn : n < 2 * 2 ^ f.fracBits) :
    f.unpack (f.pack (.fin false n 1)) =
      .fin false (n * 2 ^ f.quantumLog) (2 ^ f.quantumLog) := by
  obtain ⟨p, hp, hval⟩ := f.exists_finite_quanta_eq hexp hn hq
  rw [f.unpack_pack_exact hf false Nat.one_pos hp (by rw [hval, Nat.one_mul]), hval]

/-! ### The two formats -/

theorem binary32_fracBits_pos : 0 < binary32.fracBits := by decide

theorem binary64_fracBits_pos : 0 < binary64.fracBits := by decide

theorem binary32_quantumLog : binary32.quantumLog = 149 := by decide

theorem binary64_quantumLog : binary64.quantumLog = 1074 := by decide

/-- A binary32 word holds every packed pattern. -/
theorem pack32_toNat (x : FP) : (pack32 x).toNat = binary32.pack x :=
  (BitVec.toNat_ofNat _ _).trans (Nat.mod_eq_of_lt (binary32.pack_lt binary32_fracBits_pos x))

/-- A binary64 word holds every packed pattern. -/
theorem pack64_toNat (x : FP) : (pack64 x).toNat = binary64.pack x :=
  (BitVec.toNat_ofNat _ _).trans (Nat.mod_eq_of_lt (binary64.pack_lt binary64_fracBits_pos x))

theorem unpack32_pack32 (x : FP) : unpack32 (pack32 x) = binary32.unpack (binary32.pack x) := by
  rw [unpack32, pack32_toNat]

theorem unpack64_pack64 (x : FP) : unpack64 (pack64 x) = binary64.unpack (binary64.pack x) := by
  rw [unpack64, pack64_toNat]

/-- What the value of a binary32 word can be. -/
theorem unpack32_cases (v : Word) :
    (∃ neg, ∃ p < binary32.infBits, unpack32 v = .fin neg (binary32.quanta p) (2 ^ 149)) ∨
      (∃ neg, unpack32 v = .inf neg) ∨ unpack32 v = .nan := by
  rcases binary32.unpack_cases v.toNat with ⟨h, hu⟩ | ⟨_, hu⟩ | ⟨_, hu⟩
  · exact .inl ⟨_, _, h, hu⟩
  · exact .inr (.inl ⟨_, hu⟩)
  · exact .inr (.inr hu)

/-! ### NaN results and the widening -/

/-- The canonical quiet NaN is the only NaN a rounded binary32 result can be. -/
theorem pack32_of_isNaN {x : FP} (h : IsNaN32 (pack32 x)) : pack32 x = 0x7FC00000 := by
  rw [IsNaN32, unpack32_pack32] at h
  rw [binary32.eq_nan_of_unpack_pack h]
  decide

/-- The canonical quiet NaN is the only NaN a rounded binary64 result can be. -/
theorem pack64_of_isNaN {x : FP} (h : IsNaN64 (pack64 x)) : pack64 x = 0x7FF8000000000000 := by
  rw [IsNaN64, unpack64_pack64] at h
  rw [binary64.eq_nan_of_unpack_pack h]
  decide

/-- A finite binary32 pattern is a significand of 24 bits times a power of two below `2 ^ 254`. -/
theorem quanta32_eq_sig_mul {p : Nat} (h : p < binary32.infBits) :
    ∃ sig k, sig < 2 ^ 24 ∧ k < 254 ∧ binary32.quanta p = sig * 2 ^ k := by
  rcases binary32.pattern_cases p with hsub | ⟨e, m, hm, rfl⟩
  · exact ⟨p, 0, lt_trans hsub (by decide), by decide, by
      rw [binary32.quanta_subnormal hsub, pow_zero, Nat.mul_one]⟩
  · have hbelow : (e + 1) * 2 ^ 23 + m < 255 * 2 ^ 23 := h
    have hfrac : m < 2 ^ 23 := hm
    exact ⟨2 ^ 23 + m, e, by omega, by omega, binary32.quanta_normal e hm⟩

/-- Widening a finite binary32 value keeps its sign and its value: binary64 has a finite pattern
for it, of a quantum `2 ^ 925` times smaller. -/
theorem unpack64_f32ToF64 {a : Word} {neg : Bool} {n d : Nat} (h : unpack32 a = .fin neg n d) :
    ∃ m e, unpack64 (f32ToF64 a) = .fin neg m e ∧ n * e = m * d := by
  rcases unpack32_cases a with ⟨neg', p, hp, hu⟩ | ⟨_, hu⟩ | hu <;> rw [hu] at h <;> cases h
  obtain ⟨sig, k, hsig, hk, hval⟩ := quanta32_eq_sig_mul hp
  obtain ⟨p', hp', hval'⟩ := binary64.exists_finite_quanta_eq (by decide) (sig := sig)
    (k := k + 925) (hsig.trans (by decide)) (show k + 925 + 1 ≤ 2046 by omega)
  have heq : binary32.quanta p * 2 ^ binary64.quantumLog = 2 ^ 149 * binary64.quanta p' := by
    rw [hval, hval', binary64_quantumLog, Nat.mul_assoc, ← pow_add, Nat.mul_left_comm, ← pow_add,
      show k + 1074 = 149 + (k + 925) by omega]
  refine ⟨binary64.quanta p', 2 ^ binary64.quantumLog, ?_, heq.trans (Nat.mul_comm _ _)⟩
  rw [f32ToF64, unpack64_pack64, hu]
  exact binary64.unpack_pack_exact binary64_fracBits_pos neg (by positivity) hp' heq

end Sys2Proof.Machine
end

section
/-! SUPPORT. The binary32 values in [-1.0, 1.0]: the legal table entries of spec/00_scope.md R10. -/

namespace Sys2Proof.Machine

/-- 1.0 in smallest subnormals of binary32. -/
theorem quanta32_one : binary32.quanta 0x3F800000 = 2 ^ 149 := by decide +kernel

theorem unpack32_one : unpack32 0x3F800000 = .fin false (2 ^ 149) (2 ^ 149) := by decide +kernel

theorem unpack32_neg_one : unpack32 0xBF800000 = .fin true (2 ^ 149) (2 ^ 149) := by decide +kernel

/-- `-1 <= x <= 1` for an unpacked number with denominator `d`, the denominator of ±1 too. -/
theorem FP.between_ones_iff {d : Nat} (hd : 0 < d) (neg : Bool) (n : Nat) :
    (FP.le (.fin true d d) (.fin neg n d) && FP.le (.fin neg n d) (.fin false d d)) = true ↔
      n ≤ d := by
  have hcancel : n * d ≤ d * d ↔ n ≤ d := Nat.mul_le_mul_right_iff hd
  cases neg <;> simp [FP.le, signed] <;> omega

/-- A legal entry is a number of magnitude at most 1. -/
theorem legalEntry_iff (v : Word) :
    legalEntry v = true ↔ ∃ neg n, unpack32 v = .fin neg n (2 ^ 149) ∧ n ≤ 2 ^ 149 := by
  have hpos : 0 < 2 ^ 149 := by positivity
  rw [legalEntry, f32Le, f32Le, unpack32_one, unpack32_neg_one]
  rcases unpack32_cases v with ⟨neg, p, _, hu⟩ | ⟨neg, hu⟩ | hu
  · rw [hu, FP.between_ones_iff hpos]
    constructor
    · exact fun h => ⟨neg, _, rfl, h⟩
    · rintro ⟨_, _, heq, hn⟩
      cases heq
      exact hn
  · rw [hu]
    cases neg <;> simp [FP.le]
  · rw [hu]
    simp [FP.le]

/-- A number of magnitude at most 1 is rounded to a legal entry. -/
theorem legalEntry_pack32 (neg : Bool) {n d : Nat} (hd : 0 < d) (h : n ≤ d) :
    legalEntry (pack32 (.fin neg n d)) = true := by
  rw [legalEntry_iff, unpack32_pack32, Fmt.pack_fin,
    Fmt.unpack_withSign _ _ (Fmt.roundMag_lt_signBit _ _ _)]
  have hone : binary32.roundMag (n * 2 ^ binary32.quantumLog) d ≤ 0x3F800000 := by
    refine binary32.roundMag_le_of_le binary32_fracBits_pos hd ?_
    rw [quanta32_one, binary32_quantumLog]
    exact Nat.mul_le_mul_right _ h
  rw [if_pos (hone.trans_lt (by decide)), binary32_quantumLog]
  exact ⟨_, _, rfl, quanta32_one ▸ binary32.quanta_strictMono.monotone hone⟩

/-- The product of two legal entries is one. -/
theorem legalEntry_f32Mul {a b : Word} (ha : legalEntry a = true) (hb : legalEntry b = true) :
    legalEntry (f32Mul a b) = true := by
  obtain ⟨s, n, hua, hn⟩ := (legalEntry_iff a).1 ha
  obtain ⟨t, m, hub, hm⟩ := (legalEntry_iff b).1 hb
  rw [f32Mul, hua, hub]
  exact legalEntry_pack32 _ (by positivity) (Nat.mul_le_mul hn hm)

/-! ### The table -/

theorem sine128_le (r : Nat) : sine128 r ≤ 2 ^ 128 := Nat.min_le_left _ _

theorem legalEntry_sineQuarter (neg : Bool) (r : Nat) : legalEntry (sineQuarter neg r) = true :=
  legalEntry_pack32 _ (by positivity) (sine128_le r)

/-- Every entry of the default table of any size is legal (R10). -/
theorem legalEntry_sineEntry (log2 k : Nat) : legalEntry (sineEntry log2 k) = true := by
  unfold sineEntry
  dsimp only
  split <;> exact legalEntry_sineQuarter _ _

theorem tableSize_pos (c : Config) : 0 < tableSize c := Nat.two_pow_pos _

theorem floorModN_lt (c : Config) (p : DWord) : floorModN c p < tableSize c := by
  have hpos := tableSize_pos c
  unfold floorModN
  split
  · exact hpos
  · exact hpos
  · rename_i neg num den _
    have hlt := Int.emod_lt_of_pos (floorOf neg num den) (Int.natCast_pos.2 hpos)
    omega

/-- What makes a configuration legal, part by part (R8, R10). -/
theorem legalConfig_iff (c : Config) :
    legalConfig c = true ↔
      1 ≤ c.tableLog2 ∧ c.tableLog2 ≤ 16 ∧ 1 ≤ c.fs ∧ c.fs ≤ 16777215 ∧ 1 ≤ c.t ∧ c.t ≤ 65535 ∧
        legalTable c = true := by
  simp [legalConfig, and_assoc]

/-- A legal table is the default one, or `N` legal entries. -/
theorem legalTable_iff (c : Config) :
    legalTable c = true ↔
      ∀ ws, c.wt = .entries ws → ws.length = tableSize c ∧ ∀ v ∈ ws, legalEntry v = true := by
  unfold legalTable
  cases c.wt <;> simp

/-- Every entry of a legal table is legal. -/
theorem legalEntry_tableRead {c : Config} (h : legalTable c = true) {k : Nat}
    (hk : k < tableSize c) : legalEntry (tableRead c k) = true := by
  rw [legalTable_iff] at h
  unfold tableRead
  cases hwt : c.wt with
  | sine => exact legalEntry_sineEntry _ _
  | entries ws =>
    obtain ⟨hlen, hall⟩ := h ws hwt
    simp only [List.getD_eq_getElem ws 0 (hlen ▸ hk)]
    exact hall _ (List.getElem_mem _)

end Sys2Proof.Machine
end

section
/-! The obligations of spec/00_scope.md: the step and its ports, legality, the table, the
arithmetic. -/

namespace Sys2Proof.Machine

/-! ### The step -/

theorem decodeRead_wellFormed (a : RegAddr) : (decodeRead a).wellFormed = true := by
  unfold decodeRead
  split
  case h_14 =>
    simp only [imp_false] at *
    simp only [Instr.wellFormed, RegAddr.isReserved, decide_eq_true_eq]
    omega
  all_goals rfl

theorem decodeWrite_wellFormed (a : RegAddr) (d : Word) :
    (decodeWrite a d).wellFormed = true := by
  unfold decodeWrite
  split
  case h_6 =>
    simp only [imp_false] at *
    simp only [Instr.wellFormed, RegAddr.isWritable, Bool.not_eq_true', Bool.or_eq_false_iff,
      beq_eq_false_iff_ne]
    bv_omega
  all_goals rfl

/-- Every word of every port decodes to an operation the formats can express. -/
theorem decode_wellFormed (p : PortWord) : (decode p).wellFormed = true := by
  cases p with
  | ctlBus w =>
    rw [decode, decodeBus]
    split
    · exact decodeWrite_wellFormed _ _
    · exact decodeRead_wellFormed _
  | blkReq w => rfl
  | sensor w => rfl

/-- The event of a word alone in its cycle is the operation of that word. -/
theorem takeEvent_presentWord (p : PortWord) (s : State) :
    takeEvent (presentWord p) s = exec (decode p) s := by
  cases p <;> rfl

/-- Settles O5: the presented event is `exec` of its word, and every decoded word is well-formed. -/
theorem stepRunsPresentedOperation : Obligations.StepRunsPresentedOperation := by
  intro s p rest hlegal hsched
  refine ⟨decode_wellFormed p, ?_⟩
  rw [step_of_schedule hlegal hsched, ← takeEvent_eq, takeEvent_presentWord]

/-- A step is refused exactly if the configuration is illegal. -/
theorem step_refused_iff (s : State) :
    step s = .refused .illegalConfiguration ↔ ¬ legalConfig s.cfg = true := by
  by_cases h : legalConfig s.cfg = true
  · simp [step_of_legal h, h]
  · simp [step, h]

/-- Settles O8: a step refuses only an illegal configuration, and legality is R8 and R10. -/
theorem illegalConfigurationIsRefused : Obligations.IllegalConfigurationIsRefused := by
  intro s
  rw [step_refused_iff, legalConfig_iff, legalTable_iff]
  simp only [legalEntry, Bool.and_eq_true, tableSize]

/-- With nothing scheduled a step only releases the outputs. -/
theorem step_of_idle {s : State} (hlegal : legalConfig s.cfg = true) (hidle : s.schedule = []) :
    step s = .next (quiet s) := by
  simp only [step_of_legal hlegal, stepAfter, hidle]

theorem renderStep_of_disabled {s : State} (h : renderEnabled s.aud = false) :
    renderStep s = s := by
  rcases renderStep_cases s with ⟨_, hr⟩ | ⟨hr, _⟩ | ⟨hr, _⟩
  · exact hr
  all_goals simp [h] at hr

theorem consumeStep_of_empty {s : State} (h : s.aud.outFull = false) : consumeStep s = s := by
  rcases consumeStep_cases s with ⟨_, hc⟩ | ⟨hc, _⟩ | ⟨hc, _⟩
  · exact hc
  all_goals simp [h] at hc

/-- RENDER is disabled while idle, with no sample to come, or with a sample waiting. -/
theorem renderEnabled_eq_false_iff (a : Aud) :
    renderEnabled a = false ↔
      a.busy = false ∨ a.frames.toNat ≤ a.idx.toNat ∨ a.outFull = true := by
  rw [← Bool.not_eq_true, renderEnabled_iff]
  cases a.busy <;> cases a.outFull <;> simp

/-- Settles O10, case by case: each of the four events leaves the state it starts from. -/
theorem eventsWithNothingToDoChangeNothing : Obligations.EventsWithNothingToDoChangeNothing := by
  intro s hlegal
  refine ⟨fun hidle => ?_, fun rest => ⟨fun hcycle => ?_, fun hrender hdisabled => ?_,
    fun hconsume hempty => ?_⟩⟩
  · exact step_of_idle hlegal hidle
  · rw [step_of_schedule hlegal hcycle]
    rfl
  · rw [step_of_schedule hlegal hrender, eventAfter, renderStep_of_disabled]
    exact (renderEnabled_eq_false_iff s.aud).2 hdisabled
  · rw [step_of_schedule hlegal hconsume, eventAfter, consumeStep_of_empty]
    exact hempty

/-! ### The table -/

/-- Settles O45: the index is below `N`, and rounding a product of numbers of magnitude at most 1
does not pass 1. -/
theorem legalTableGivesBoundedOutput : Obligations.LegalTableGivesBoundedOutput := by
  refine ⟨fun c p hlegal => ?_, fun raw ca gain hraw hca hgain => ?_⟩
  · obtain ⟨_, _, _, _, _, _, htable⟩ := (legalConfig_iff c).1 hlegal
    exact legalEntry_tableRead htable (floorModN_lt c p)
  · exact legalEntry_f32Mul (legalEntry_f32Mul hraw hca) hgain

theorem sineQuarter_zero (neg : Bool) : sineQuarter neg 0 = 0x00000000 := by
  cases neg <;> decide +kernel

theorem sineQuarter_quarter (neg : Bool) :
    sineQuarter neg 16384 = if neg then 0xBF800000 else 0x3F800000 := by
  cases neg <;> decide +kernel

/-- The default table where the entry's angle is a multiple of a quarter turn. -/
theorem sineEntry_of_quadrant {l k : Nat} (q : Fin 4) (h : k * 2 ^ (16 - l) = q * 16384) :
    sineEntry l k = ![0x00000000, 0x3F800000, 0x00000000, 0xBF800000] q := by
  rw [sineEntry, h]
  fin_cases q
  · exact sineQuarter_zero _
  · exact sineQuarter_quarter _
  · exact sineQuarter_zero _
  · exact sineQuarter_quarter _

/-- Settles O59: the four points are the four quadrants' beginnings, whatever the size. -/
theorem sineTableQuarterPoints : Obligations.SineTableQuarterPoints := by
  intro l hge hle
  have hhalf : 2 ^ (l - 1) * 2 ^ (16 - l) = 2 * 16384 := by
    rw [← pow_add, show l - 1 + (16 - l) = 15 by omega]
    rfl
  have hquarter : 2 ^ (l - 2) * 2 ^ (16 - l) = 16384 := by
    rw [← pow_add, show l - 2 + (16 - l) = 14 by omega]
    rfl
  refine ⟨sineEntry_of_quadrant 0 (Nat.zero_mul _), sineEntry_of_quadrant 2 hhalf,
    sineEntry_of_quadrant 1 (hquarter.trans (Nat.one_mul _).symm), sineEntry_of_quadrant 3 ?_⟩
  rw [Nat.mul_assoc, hquarter]
  rfl

/-! ### Arithmetic -/

/-- Settles O56: both formats round as every format with a fraction and a finite pattern does. -/
theorem roundingIsToNearestEven : Obligations.RoundingIsToNearestEven := by
  intro f hfmt num den hd
  have hf : 0 < f.fracBits := by rcases hfmt with rfl | rfl <;> decide
  have hinf : 0 < f.infBits := by rcases hfmt with rfl | rfl <;> decide
  simp only [Fmt.abs_eq_distance, Nat.cast_le, Nat.cast_inj]
  exact ⟨f.roundMag_eq_infBits_iff hf hinf num hd, f.roundMag_le num den,
    fun hfin p _ => f.roundMag_nearest hf hd hfin p⟩

/-- Settles O57: every operation ends in one packing. -/
theorem naNResultsAreCanonical : Obligations.NaNResultsAreCanonical := by
  refine ⟨fun a b r hr => ?_, fun a b r hr => ?_, fun a => pack64_of_isNaN⟩
  · simp only [List.mem_cons, List.not_mem_nil, or_false] at hr
    rcases hr with rfl | rfl | rfl | rfl <;> exact pack32_of_isNaN
  · simp only [List.mem_cons, List.not_mem_nil, or_false] at hr
    rcases hr with rfl | rfl | rfl <;> exact pack64_of_isNaN

/-- Settles O58: each of these numbers is the value of a finite pattern, and rounding keeps it. -/
theorem conversionsAreExact : Obligations.ConversionsAreExact := by
  refine ⟨fun a hn => ?_, fun a hn => ?_, fun a neg n d h => unpack64_f32ToF64 h,
    fun n hn => ?_, fun n hn => ?_⟩
  · rw [pack32, unpack32, binary32.pack_unpack binary32_fracBits_pos a.isLt hn, BitVec.ofNat_toNat,
      BitVec.setWidth_eq]
  · rw [pack64, unpack64, binary64.pack_unpack binary64_fracBits_pos a.isLt hn, BitVec.ofNat_toNat,
      BitVec.setWidth_eq]
  · refine ⟨n * 2 ^ binary32.quantumLog, _, ?_, rfl⟩
    rw [uToF32, unpack32_pack32]
    exact binary32.unpack_pack_natCast (by decide) (by decide) (by decide) hn
  · refine ⟨n * 2 ^ binary64.quantumLog, _, ?_, rfl⟩
    rw [uToF64, unpack64_pack64]
    exact binary64.unpack_pack_natCast (by decide) (by decide) (by decide) hn

end Sys2Proof.Machine
end

section
/-! What a step does to the configuration, to a handed-off field and to the render domain, in the
form in which the statements of spec/10_state.md use it. -/

namespace Sys2Proof.Machine

/-! ### The step -/

/-- A step takes no event or the first one of the schedule. -/
theorem step_cases {s t : State} (h : step s = .next t) :
    (s.schedule = [] ∧ t = quiet s) ∨
      ∃ e rest, s.schedule = e :: rest ∧ t = eventAfter e (eventStart s rest) := by
  obtain ⟨_, rfl⟩ := step_next_iff.1 h
  unfold stepAfter
  cases hs : s.schedule with
  | nil => exact .inl ⟨rfl, rfl⟩
  | cons e rest => exact .inr ⟨e, rest, rfl, rfl⟩

/-! ### The `clk_ctl` cycle -/

/-- A cycle is made of operations other than a block request and of driven read data: what all of
these keep, a cycle keeps. -/
theorem cycleAfter_keeps {P : State → Prop}
    (hop : ∀ i t, (∀ f, i ≠ .blk f) → P t → P (after i t))
    (hdrive : ∀ v t, P t → P (driveRdata v t))
    (x : Option Word) (w : Option BusWord) {s : State} (h : P s) : P (cycleAfter x w s) := by
  have hsample (r : Word) : P (sensorSample r s) := hop (.sens r) s (fun _ => Instr.noConfusion) h
  have hbus (w : BusWord) (v : Word) {t : State} (ht : P t) :
      P (if BusWord.we w then after (decode (.ctlBus w)) t else driveRdata v t) := by
    split
    · exact hop _ _ (decode_ctlBus_ne_blk w) ht
    · exact hdrive _ _ ht
  cases x with
  | none =>
    cases w with
    | none => exact h
    | some w => exact hbus w _ h
  | some r =>
    cases w with
    | none => exact hsample r
    | some w => exact hbus w _ (hsample r)

/-- The control domain's cycle leaves the render domain. -/
@[simp] theorem cycleAfter_aud (x : Option Word) (w : Option BusWord) (s : State) :
    (cycleAfter x w s).aud = s.aud :=
  cycleAfter_keeps (P := fun t => t.aud = s.aud) (fun _ _ hi h => (after_aud hi _).trans h)
    (fun _ _ h => h) x w rfl

/-- A bus write is the last thing its cycle does. -/
theorem cycleAfter_write {w : BusWord} (hw : (decode (.ctlBus w)).isBusRead = false)
    (x : Option Word) (s : State) :
    ∃ u, u.cfg = s.cfg ∧ cycleAfter x (some w) s = after (decode (.ctlBus w)) u := by
  rw [decode_ctlBus_isBusRead, Bool.not_eq_false'] at hw
  cases x with
  | none => exact ⟨s, rfl, by simp only [cycleAfter, hw, if_true]⟩
  | some r => exact ⟨_, sensorSample_cfg r s, by simp only [cycleAfter, hw, if_true]⟩

/-! ### Writes of a handed-off field -/

theorem operationWrites_tamp_iff (s : State) (i : Instr) :
    operationWrites .tamp s i = true ↔ ∃ d, i = .wrTargetAmp d := by
  cases i <;> simp [operationWrites]

theorem operationWrites_gain_iff (s : State) (i : Instr) :
    operationWrites .gain s i = true ↔ ∃ d, i = .wrVolume d := by
  cases i <;> simp [operationWrites]

/-- A step that changes a control value takes an event that writes it, or a reset. -/
theorem step_changes_control {f : Field} {s t : State} (h : step s = .next t)
    (hne : controlWord f t.ctl ≠ controlWord f s.ctl) :
    ∃ e rest, s.schedule = e :: rest ∧ t = eventAfter e (eventStart s rest) ∧
      (eventWrites f (eventStart s rest) e = true ∨ e = .reset) := by
  rcases step_cases h with ⟨_, rfl⟩ | ⟨e, rest, hs, rfl⟩
  · exact absurd rfl hne
  · refine ⟨e, rest, hs, rfl, ?_⟩
    by_contra hkeep
    rw [not_or, Bool.not_eq_true] at hkeep
    exact hne (eventAfter_field hkeep.1 hkeep.2).1

/-- A field that no sample writes is written by a bus word alone. -/
theorem eventWrites_of_bus {f : Field} {s : State} {e : Event}
    (hsens : ∀ r, operationWrites f s (.sens r) = false) (h : eventWrites f s e = true) :
    ∃ x w, e = .ctl x (some w) ∧ operationWrites f s (decode (.ctlBus w)) = true := by
  cases e with
  | ctl x w =>
    have hx : x.any (fun r => operationWrites f s (decode (.sensor r))) = false := by
      cases x with
      | none => rfl
      | some r => exact hsens r
    cases w with
    | none => simp [eventWrites, hx] at h
    | some w => exact ⟨x, w, rfl, by simpa [eventWrites, hx] using h⟩
  | _ => simp [eventWrites] at h

/-- A step that changes the value of a field no sample writes is a reset, or a cycle that ends with
the bus operation that writes the field. -/
theorem step_changes_hostField {f : Field} {s t : State}
    (hsens : ∀ u r, operationWrites f u (.sens r) = false) (h : step s = .next t)
    (hne : controlWord f t.ctl ≠ controlWord f s.ctl) :
    (∃ x w rest, s.schedule = .ctl x (some w) :: rest ∧
      t = cycleAfter x (some w) (eventStart s rest) ∧
      operationWrites f (eventStart s rest) (decode (.ctlBus w)) = true) ∨
    ∃ rest, s.schedule = .reset :: rest := by
  obtain ⟨e, rest, hs, ht, hw | rfl⟩ := step_changes_control h hne
  · obtain ⟨x, w, rfl, hop⟩ := eventWrites_of_bus (hsens _) hw
    exact .inl ⟨x, w, rest, hs, ht, hop⟩
  · exact .inr ⟨rest, hs⟩

/-- An operation that writes a field leaves it pending and not copied. -/
theorem fieldSync_after_of_writes {f : Field} {i : Instr} {s : State}
    (h : operationWrites f s i = true) : fieldSync f (after i s).ctl = Sync.written := by
  cases f with
  | tfreq =>
    cases i with
    | wrTargetFreq d => rfl
    | sens r =>
      rcases sensorSample_cases r s with ⟨hd, _⟩ | ⟨_, _, hs⟩
      · simp only [operationWrites, Bool.and_eq_true, Bool.not_eq_true'] at h
        simp [h] at hd
      · simp only [after, hs, fieldSync, writeTfreq_ctl]
    | _ => simp [operationWrites] at h
  | tamp => obtain ⟨d, rfl⟩ := (operationWrites_tamp_iff s i).1 h; rfl
  | gain => obtain ⟨d, rfl⟩ := (operationWrites_gain_iff s i).1 h; rfl
  | runstate =>
    cases i with
    | wrCmd d =>
      obtain ⟨u, hu, hsnap⟩ := commandEffect_cases d s
      have hwritten : u.ctl.syncRunstate = Sync.written := by
        rcases hu with ⟨hstop, rfl⟩ | ⟨hstop, hstart, rfl⟩ | ⟨hstop, hstart, _⟩
        · have hrun : s.ctl.run = true := by simpa [operationWrites, hstop] using h
          simp [stopEngine, hrun]
        · have hrun : s.ctl.run = false := by simpa [operationWrites, hstop, hstart] using h
          simp [startEngine, hrun]
        · simp [operationWrites, hstop, hstart] at h
      rcases hsnap with ⟨_, hc⟩ | ⟨_, hc⟩ <;>
        simpa only [after, hc, fieldSync, snapCounters_ctl] using hwritten
    | _ => simp [operationWrites] at h

/-! ### Block requests -/

theorem requestBlock_of_busy {s : State} (hb : s.aud.busy = true) (f : BlkWord) :
    requestBlock f s = s := by
  rw [requestBlock, if_pos hb]

theorem requestBlock_zero {s : State} (hb : s.aud.busy = false) :
    requestBlock 0 s =
      pulseDone { s with aud := { s.aud with blkTotal := s.aud.blkTotal + 1 } } := by
  rw [requestBlock, if_neg (by simp [hb]), if_pos rfl]

theorem requestBlock_begin {f : BlkWord} {s : State} (hb : s.aud.busy = false) (hf : f ≠ 0) :
    requestBlock f s =
      { s with aud := beginBlock s.cfg f { s.aud with blkTotal := s.aud.blkTotal + 1 } } := by
  rw [requestBlock, if_neg (by simp [hb]), if_neg hf]

/-- A request leaves every shadow. -/
@[simp] theorem shadowWord_requestBlock (f : Field) (w : BlkWord) (s : State) :
    shadowWord f (requestBlock w s).aud = shadowWord f s.aud := by
  rcases requestBlock_cases w s with ⟨_, h⟩ | ⟨_, _, h⟩ | ⟨_, _, h⟩ <;> rw [h]
  · cases f <;> rfl
  · have hb := beginBlock_begun s.cfg w { s.aud with blkTotal := s.aud.blkTotal + 1 }
    cases f
    · exact hb.rTfreq
    · exact hb.rTamp
    · exact hb.rGain
    · exact hb.rRunstate

/-! ### Samples -/

theorem renderStep_of_zero {s : State} (hen : renderEnabled s.aud = true)
    (hm : s.aud.mode = .zero) :
    renderStep s = { s with aud := renderZero s.aud } := by
  simp only [renderStep, hen, hm, if_true]

theorem renderStep_of_ramp {s : State} (hen : renderEnabled s.aud = true)
    (hm : s.aud.mode = .ramp) :
    renderStep s = { s with aud := renderRamp s.cfg s.aud } := by
  simp only [renderStep, hen, hm, if_true]

theorem consumeStep_of_last {s : State} (hf : s.aud.outFull = true)
    (hi : s.aud.idx = s.aud.frames) :
    consumeStep s =
      pulseDone { s with stream := s.stream ++ [s.aud.outWord]
                         aud := { s.aud with outFull := false, busy := false } } := by
  rw [consumeStep, if_pos hf, if_pos hi]

theorem consumeStep_of_more {s : State} (hf : s.aud.outFull = true)
    (hi : s.aud.idx ≠ s.aud.frames) :
    consumeStep s =
      { s with stream := s.stream ++ [s.aud.outWord], aud := { s.aud with outFull := false } } := by
  rw [consumeStep, if_pos hf, if_neg hi]

/-- What every rendered sample sets and leaves, whatever the mode. -/
structure Rendered (a b : Aud) : Prop where
  busy : b.busy = a.busy
  frames : b.frames = a.frames
  idx : b.idx = a.idx + 1
  outFull : b.outFull = true
  shadows : ∀ f, shadowWord f b = shadowWord f a

theorem renderZero_rendered (a : Aud) : Rendered a (renderZero a) := by
  constructor
  case shadows => intro f; cases f <;> rfl
  all_goals rfl

theorem renderRamp_rendered (c : Config) (a : Aud) : Rendered a (renderRamp c a) := by
  constructor
  case shadows => intro f; cases f <;> simp only [renderRamp_eq, shadowWord]
  all_goals simp only [renderRamp_eq]

/-- RENDER is not enabled and does nothing, or it renders a sample. -/
theorem renderStep_rendered (s : State) :
    (renderEnabled s.aud = false ∧ renderStep s = s) ∨
      (renderEnabled s.aud = true ∧ Rendered s.aud (renderStep s).aud) := by
  rcases renderStep_cases s with ⟨hen, h⟩ | ⟨hen, _, h⟩ | ⟨hen, _, h⟩
  · exact .inl ⟨hen, h⟩
  · exact .inr ⟨hen, h ▸ renderZero_rendered s.aud⟩
  · exact .inr ⟨hen, h ▸ renderRamp_rendered s.cfg s.aud⟩

@[simp] theorem shadowWord_renderStep (f : Field) (s : State) :
    shadowWord f (renderStep s).aud = shadowWord f s.aud := by
  rcases renderStep_rendered s with ⟨_, h⟩ | ⟨_, h⟩
  · rw [h]
  · exact h.shadows f

@[simp] theorem shadowWord_consumeStep (f : Field) (s : State) :
    shadowWord f (consumeStep s).aud = shadowWord f s.aud := by
  rcases consumeStep_cases s with ⟨_, h⟩ | ⟨_, _, h⟩ | ⟨_, _, h⟩ <;> rw [h] <;> cases f <;> rfl

end Sys2Proof.Machine
end

section
/-! The invariant of spec/10_state.md R41, spec/60_exceptions.md R205 and spec/20_memory.md R69: it
holds after reset, and each event keeps each of its three parts. -/

namespace Sys2Proof.Machine

/-! ### The debounce count -/

theorem DebounceBounded.of_eq {s t : State} (h : DebounceBounded s)
    (hcount : t.ctl.stillCount = s.ctl.stillCount) (hcfg : t.cfg = s.cfg) : DebounceBounded t := by
  rw [DebounceBounded, hcount, hcfg]; exact h

theorem DebounceBounded.of_zero {s : State} (h : s.ctl.stillCount = 0) : DebounceBounded s := by
  rw [DebounceBounded, h]; exact Nat.zero_le _

/-- The detector counts up to `T` and not past it. -/
theorem DebounceBounded.stillnessStep {s : State} (h : DebounceBounded s) (m : Word) :
    DebounceBounded (stillnessStep m s) := by
  have hsucc : (s.ctl.stillCount + 1).toNat ≤ s.ctl.stillCount.toNat + 1 := by
    rw [BitVec.toNat_add]; exact Nat.mod_le _ _
  rcases stillnessStep_cases m s with ⟨_, hc, hs⟩ | ⟨_, hc, hs⟩ | ⟨_, _, hs⟩ | ⟨_, _, hs⟩ |
    ⟨_, _, hs⟩ <;> rw [hs]
  · exact hsucc.trans hc.le
  · exact hsucc.trans hc.le
  · exact h
  · exact of_zero rfl
  · exact of_zero rfl

theorem DebounceBounded.sensorSample {s : State} (h : DebounceBounded s) (r : Word) :
    DebounceBounded (sensorSample r s) := by
  rcases sensorSample_cases r s with ⟨_, hs⟩ | ⟨_, _, hs⟩ <;> rw [hs]
  · exact h
  · have hingest : DebounceBounded (ingestSample (smooth s.cfg s.ctl.smoothed r) s) :=
      h.of_eq rfl rfl
    exact (hingest.stillnessStep _).of_eq rfl rfl

/-- A command leaves the count, or clears it with a START. -/
theorem DebounceBounded.commandEffect {s : State} (h : DebounceBounded s) (d : Word) :
    DebounceBounded (commandEffect d s) := by
  obtain ⟨u, hu, hsnap⟩ := commandEffect_cases d s
  have hbound : DebounceBounded u := by
    rcases hu with ⟨_, rfl⟩ | ⟨_, _, rfl⟩ | ⟨_, _, rfl⟩
    · rcases stopEngine_cases s with ⟨_, hs⟩ | ⟨_, hs⟩ <;> rw [hs] <;> exact h.of_eq rfl rfl
    · rcases startEngine_cases s with ⟨_, hs⟩ | ⟨_, hs⟩ <;> rw [hs]
      · exact h
      · exact of_zero rfl
    · exact h
  rcases hsnap with ⟨_, hc⟩ | ⟨_, hc⟩ <;> rw [hc] <;> exact hbound.of_eq rfl rfl

theorem DebounceBounded.after {s : State} (h : DebounceBounded s) (i : Instr) :
    DebounceBounded (after i s) := by
  cases i with
  | wrCmd d => exact h.commandEffect d
  | sens r => exact h.sensorSample r
  | blk f => exact h.of_eq (by simp [Machine.after]) (by simp)
  | _ => exact h.of_eq rfl rfl

theorem DebounceBounded.eventAfter {s : State} (h : DebounceBounded s) (e : Event) :
    DebounceBounded (eventAfter e s) := by
  cases e with
  | ctl x w => exact cycleAfter_keeps (fun i _ _ ht => ht.after i) (fun _ _ ht => ht) x w h
  | blkReq w => exact h.of_eq (by simp [Machine.eventAfter]) (by simp)
  | render => exact h.of_eq (by simp [Machine.eventAfter]) (by simp)
  | consume => exact h.of_eq (by simp [Machine.eventAfter]) (by simp)
  | copy f => cases f <;> exact h.of_eq rfl rfl
  | ack f => cases f <;> exact h.of_eq rfl rfl
  | copyBlk => exact h.of_eq rfl rfl
  | copySilent => exact h.of_eq rfl rfl
  | reset => exact of_zero rfl

/-! ### The sequencer -/

theorem sequencerSound_of_idle {a : Aud} (hbusy : a.busy = false) (hfull : a.outFull = false) :
    SequencerSound a := by
  simp [SequencerSound, hbusy, hfull]

/-- A block just accepted has all its samples to come. -/
theorem sequencerSound_of_begun {f : BlkWord} {a b : Aud} (h : Begun f a b) (hf : f ≠ 0) :
    SequencerSound b := by
  have hpos : 0 < f.toNat := by bv_omega
  simp [SequencerSound, h.busy, h.frames, h.idx, hpos, Nat.one_le_iff_ne_zero, hpos.ne']

/-- A block with a sample waiting: its index may have reached the end. -/
theorem sequencerSound_of_waiting {a : Aud} (hbusy : a.busy = true) (hfull : a.outFull = true)
    (hpos : 1 ≤ a.frames.toNat) (hidx : a.idx.toNat ≤ a.frames.toNat) : SequencerSound a := by
  simp [SequencerSound, hbusy, hfull, hpos, hidx]

theorem SequencerSound.requestBlock {s : State} (h : SequencerSound s.aud) (f : BlkWord) :
    SequencerSound (requestBlock f s).aud := by
  rcases requestBlock_cases f s with ⟨_, hr⟩ | ⟨_, _, hr⟩ | ⟨_, hf, hr⟩ <;> rw [hr]
  · exact h
  · exact h
  · exact sequencerSound_of_begun (beginBlock_begun _ _ _) hf

/-- A sample that is rendered advances the index by one within the block. -/
theorem SequencerSound.renderStep {s : State} (h : SequencerSound s.aud) :
    SequencerSound (renderStep s).aud := by
  rcases renderStep_rendered s with ⟨_, hr⟩ | ⟨hen, hr⟩
  · rw [hr]; exact h
  · obtain ⟨hbusy, hlt, _⟩ := (renderEnabled_iff s.aud).1 hen
    have hidx := idx_succ_toNat hlt
    refine sequencerSound_of_waiting (hr.busy.trans hbusy) hr.outFull ?_ ?_
    · rw [hr.frames]; omega
    · rw [hr.frames, hr.idx]; omega

/-- The sample taken was the block's last one, or there is one more to come. -/
theorem SequencerSound.consumeStep {s : State} (h : SequencerSound s.aud) :
    SequencerSound (consumeStep s).aud := by
  rcases consumeStep_cases s with ⟨_, hc⟩ | ⟨_, _, hc⟩ | ⟨hfull, hne, hc⟩ <;> rw [hc]
  · exact h
  · exact sequencerSound_of_idle rfl rfl
  · obtain ⟨hblock, hbusy, _⟩ := h
    obtain ⟨hpos, hle⟩ := hblock (hbusy hfull)
    have hlt : s.aud.idx.toNat < s.aud.frames.toNat :=
      lt_of_le_of_ne hle fun he => hne (BitVec.eq_of_toNat_eq he)
    exact ⟨fun _ => ⟨hpos, hle⟩, fun hf => absurd hf Bool.false_ne_true, fun _ _ => hlt⟩

theorem SequencerSound.eventAfter {s : State} (h : SequencerSound s.aud) (e : Event) :
    SequencerSound (eventAfter e s).aud := by
  cases e with
  | ctl x w => rw [Machine.eventAfter, cycleAfter_aud]; exact h
  | blkReq w => exact h.requestBlock w
  | render => exact h.renderStep
  | consume => exact h.consumeStep
  | copy f => cases f <;> exact h
  | ack f => rw [Machine.eventAfter, ackField_aud]; exact h
  | copyBlk => exact h
  | copySilent => exact h
  | reset => exact sequencerSound_of_idle rfl rfl

/-! ### The handoff -/

/-- The handoff bookkeeping of one field is sound. -/
def FieldSound (f : Field) (s : State) : Prop :=
  SyncSound (fieldSync f s.ctl) (controlWord f s.ctl) (shadowWord f s.aud)

theorem handoffsSound_iff (s : State) : HandoffsSound s ↔ ∀ f, FieldSound f s := by
  refine ⟨fun ⟨htfreq, htamp, hgain, hrun⟩ f => ?_,
    fun h => ⟨h .tfreq, h .tamp, h .gain, h .runstate⟩⟩
  cases f
  · exact htfreq
  · exact htamp
  · exact hgain
  · exact hrun

theorem syncSound_written (control shadow : Word) : SyncSound Sync.written control shadow := by
  simp [SyncSound, Sync.written]

theorem syncSound_copied (y : Sync) (control : Word) : SyncSound y.copied control control := by
  simp [SyncSound, Sync.copied]

/-- An acknowledged field had been copied. -/
theorem SyncSound.acked {y : Sync} {control shadow : Word} (h : SyncSound y control shadow) :
    SyncSound y.acked control shadow := by
  cases hcp : y.cp
  · simpa [Sync.acked, hcp] using h
  · simpa [SyncSound, Sync.acked, hcp] using h.2 hcp

theorem FieldSound.of_keeps {f : Field} {s t : State} (h : FieldSound f s) (hk : KeepsField f s t)
    (hshadow : shadowWord f t.aud = shadowWord f s.aud) : FieldSound f t := by
  obtain ⟨hcontrol, hsync⟩ := hk
  rw [FieldSound, hcontrol, hsync, hshadow]; exact h

/-- An operation of the control domain writes the field, which is then pending, or keeps it. -/
theorem FieldSound.after {f : Field} {s : State} (h : FieldSound f s) {i : Instr}
    (hi : ∀ w, i ≠ .blk w) : FieldSound f (after i s) := by
  cases hw : operationWrites f s i
  · exact h.of_keeps (after_keepsField hw) (by rw [after_aud hi])
  · rw [FieldSound, fieldSync_after_of_writes hw]
    exact syncSound_written _ _

theorem fieldSound_reset (f : Field) (s : State) : FieldSound f (resetStep s) := by
  rw [FieldSound, resetStep_ctl, resetStep_aud]
  cases f <;> exact ⟨fun _ => rfl, fun _ => by decide⟩

theorem FieldSound.eventAfter {f : Field} {s : State} (h : FieldSound f s) (e : Event) :
    FieldSound f (eventAfter e s) := by
  cases e with
  | ctl x w => exact cycleAfter_keeps (fun _ _ hi ht => ht.after hi) (fun _ _ ht => ht) x w h
  | blkReq w => exact h.of_keeps (.of_ctl (requestBlock_ctl w s)) (shadowWord_requestBlock f w s)
  | render => exact h.of_keeps (.of_ctl (renderStep_ctl s)) (shadowWord_renderStep f s)
  | consume => exact h.of_keeps (.of_ctl (consumeStep_ctl s)) (shadowWord_consumeStep f s)
  | copy g =>
    by_cases hg : g = f
    · subst hg; cases g <;> exact syncSound_copied _ _
    · cases f <;> cases g <;> first | exact absurd rfl hg | exact h
  | ack g =>
    by_cases hg : g = f
    · subst hg; cases g <;> exact SyncSound.acked h
    · cases f <;> cases g <;> first | exact absurd rfl hg | exact h
  | copyBlk => cases f <;> exact h
  | copySilent => cases f <;> exact h
  | reset => exact fieldSound_reset f s

/-! ### The invariant -/

theorem Inv.eventAfter {s : State} (h : Inv s) (e : Event) : Inv (eventAfter e s) := by
  obtain ⟨hcount, hseq, hsync⟩ := h
  exact ⟨hcount.eventAfter e, hseq.eventAfter e,
    (handoffsSound_iff _).2 fun f => ((handoffsSound_iff s).1 hsync f).eventAfter e⟩

theorem inv_resetStep (s : State) : Inv (resetStep s) :=
  ⟨.of_zero rfl, sequencerSound_of_idle rfl rfl,
    (handoffsSound_iff _).2 fun f => fieldSound_reset f s⟩

end Sys2Proof.Machine
end

section
/-! Hiding the registers no rule can read. Two states agree on what a rule can read exactly if
hiding makes them equal; so that an event keeps the agreement is one fact about one state: hiding
before the event is not seen after it. -/

namespace Sys2Proof.Machine

/-! ### The readable part of the render domain -/

/-- What is hidden, and when, in one record. -/
theorem readableOf_eq (a : Aud) :
    readableOf a =
      { a with
        frames := if a.busy || a.outFull then a.frames else 0
        idx := if a.busy || a.outFull then a.idx else 0
        mode := if a.busy || a.outFull then a.mode else .zero
        sTamp := if a.busy || a.outFull then a.sTamp else 0
        sTfreq := if a.busy || a.outFull then a.sTfreq else 0
        sGain := if a.busy || a.outFull then a.sGain else 0
        ampStep := if (a.busy || a.outFull) && a.mode == .ramp then a.ampStep else 0
        freqStep := if (a.busy || a.outFull) && a.mode == .ramp then a.freqStep else 0
        outWord := if a.outFull then a.outWord else 0 } := by
  rcases a with ⟨_, _, _, _, _, _, _, _, _, _, busy, _, _, mode, _, _, _, _, _, outFull, _⟩
  cases busy <;> cases outFull <;> cases mode <;> rfl

theorem readableOf_idem (a : Aud) : readableOf (readableOf a) = readableOf a := by
  cases hb : a.busy <;> cases hf : a.outFull <;> cases hm : a.mode <;>
    simp [readableOf_eq, hb, hf, hm]

theorem renderEnabled_readableOf (a : Aud) : renderEnabled (readableOf a) = renderEnabled a := by
  cases hb : a.busy <;> simp [renderEnabled, readableOf_eq, hb]

@[simp] theorem readableOf_busy (a : Aud) : (readableOf a).busy = a.busy := by
  rw [readableOf_eq]

@[simp] theorem readableOf_outFull (a : Aud) : (readableOf a).outFull = a.outFull := by
  rw [readableOf_eq]

@[simp] theorem readableOf_rRunstate (a : Aud) : (readableOf a).rRunstate = a.rRunstate := by
  rw [readableOf_eq]

@[simp] theorem readableOf_blkTotal (a : Aud) : (readableOf a).blkTotal = a.blkTotal := by
  rw [readableOf_eq]

@[simp] theorem readableOf_isSilent (a : Aud) : (readableOf a).isSilent = a.isSilent := by
  rw [readableOf_eq]

/-- A block that has a sample to render shows its mode. -/
theorem readableOf_mode {a : Aud} (hen : renderEnabled a = true) :
    (readableOf a).mode = a.mode := by
  obtain ⟨hb, _, _⟩ := (renderEnabled_iff a).1 hen
  simp [readableOf_eq, hb]

theorem takesFastPath_readableOf (c : Config) (f : BlkWord) (a : Aud) :
    takesFastPath c (freshOscillator (snapshotBlock f (readableOf a))) =
      takesFastPath c (freshOscillator (snapshotBlock f a)) := by
  simp only [takesFastPath, freshOscillator_eq, snapshotBlock, readableOf_eq]

/-- Acceptance writes the sequencer, and the steps too if the mode becomes RAMP. -/
theorem readableOf_beginBlock (c : Config) (f : BlkWord) (a : Aud) :
    readableOf (beginBlock c f (readableOf a)) = readableOf (beginBlock c f a) := by
  have hrun : ∀ b : Aud, runOf (snapshotBlock f b).rRunstate = runOf b.rRunstate := fun _ => rfl
  simp only [beginBlock, hrun, readableOf_rRunstate, takesFastPath_readableOf]
  split_ifs
  · simp +contextual [fastPathBlock, freshOscillator_eq, snapshotBlock, readableOf_eq]
  · simp +contextual [rampBlock, freshOscillator_eq, snapshotBlock, readableOf_eq]
  · simp +contextual [snapshotBlock, readableOf_eq]

/-- Counting a request and hiding commute. -/
theorem counted_readableOf (a : Aud) :
    { readableOf a with blkTotal := (readableOf a).blkTotal + 1 } =
      readableOf { a with blkTotal := a.blkTotal + 1 } := by
  simp only [readableOf_eq]

theorem readableOf_counted (a : Aud) :
    readableOf { readableOf a with blkTotal := (readableOf a).blkTotal + 1 } =
      readableOf { a with blkTotal := a.blkTotal + 1 } := by
  rw [counted_readableOf, readableOf_idem]

theorem readableOf_beginBlock_counted (c : Config) (f : BlkWord) (a : Aud) :
    readableOf (beginBlock c f { readableOf a with blkTotal := (readableOf a).blkTotal + 1 }) =
      readableOf (beginBlock c f { a with blkTotal := a.blkTotal + 1 }) := by
  rw [counted_readableOf, readableOf_beginBlock]

theorem readableOf_renderZero {a : Aud} (hen : renderEnabled a = true) (hm : a.mode = .zero) :
    readableOf (renderZero (readableOf a)) = readableOf (renderZero a) := by
  obtain ⟨hb, _, hf⟩ := (renderEnabled_iff a).1 hen
  simp [renderZero, readableOf_eq, hb, hf, hm]

theorem readableOf_renderRamp {a : Aud} (c : Config) (hen : renderEnabled a = true)
    (hm : a.mode = .ramp) :
    readableOf (renderRamp c (readableOf a)) = readableOf (renderRamp c a) := by
  obtain ⟨hb, _, hf⟩ := (renderEnabled_iff a).1 hen
  simp [renderRamp_eq, readableOf_eq, hb, hf, hm]

/-- A waiting sample, and whether it is the block's last one, is readable. -/
theorem readableOf_waiting {a : Aud} (hf : a.outFull = true) :
    (readableOf a).idx = a.idx ∧ (readableOf a).frames = a.frames ∧
      (readableOf a).outWord = a.outWord := by
  simp [readableOf_eq, hf]

/-- Once the sample is taken, its word is hidden. -/
theorem readableOf_taken {a : Aud} (hf : a.outFull = true) :
    readableOf { readableOf a with outFull := false } = readableOf { a with outFull := false } := by
  cases hb : a.busy <;> cases hm : a.mode <;> simp [readableOf_eq, hf, hb, hm]

/-- Once the block has ended, its sequencer is hidden. -/
theorem readableOf_ended (a : Aud) :
    readableOf { readableOf a with outFull := false, busy := false } =
      readableOf { a with outFull := false, busy := false } := by
  simp [readableOf_eq]

/-! ### Operations of the control domain -/

/-- The state with another render domain. -/
def State.withAud (s : State) (a : Aud) : State := { s with aud := a }

@[simp] theorem withAud_cfg (s : State) (a : Aud) : (s.withAud a).cfg = s.cfg := rfl
@[simp] theorem withAud_ctl (s : State) (a : Aud) : (s.withAud a).ctl = s.ctl := rfl
@[simp] theorem withAud_aud (s : State) (a : Aud) : (s.withAud a).aud = a := rfl

theorem withAud_ite (c : Prop) [Decidable c] (s t : State) (a : Aud) :
    (if c then s else t).withAud a = if c then s.withAud a else t.withAud a :=
  apply_ite (State.withAud · a) c s t

theorem startEngine_withAud (s : State) (a : Aud) :
    startEngine (s.withAud a) = (startEngine s).withAud a := by
  rw [startEngine, startEngine, withAud_ite]
  rfl

theorem stopEngine_withAud (s : State) (a : Aud) :
    stopEngine (s.withAud a) = (stopEngine s).withAud a := by
  rw [stopEngine, stopEngine, withAud_ite]
  rfl

theorem snapCounters_withAud (s : State) (a : Aud) :
    snapCounters (s.withAud a) = (snapCounters s).withAud a := rfl

theorem ingestSample_withAud (m : Word) (s : State) (a : Aud) :
    ingestSample m (s.withAud a) = (ingestSample m s).withAud a := rfl

theorem writeTfreq_withAud (v : Word) (s : State) (a : Aud) :
    writeTfreq v (s.withAud a) = (writeTfreq v s).withAud a := rfl

theorem commandEffect_withAud (d : Word) (s : State) (a : Aud) :
    commandEffect d (s.withAud a) = (commandEffect d s).withAud a := by
  simp only [commandEffect, startEngine_withAud, stopEngine_withAud, snapCounters_withAud,
    ← withAud_ite]

theorem stillnessStep_withAud (m : Word) (s : State) (a : Aud) :
    stillnessStep m (s.withAud a) = (stillnessStep m s).withAud a := by
  simp only [stillnessStep, withAud_ite]
  rfl

theorem sensorSample_withAud (r : Word) (s : State) (a : Aud) :
    sensorSample r (s.withAud a) = (sensorSample r s).withAud a := by
  simp only [sensorSample, withAud_cfg, withAud_ctl, ingestSample_withAud, stillnessStep_withAud,
    writeTfreq_withAud, ← withAud_ite]

/-- The control domain's operations neither read nor write the render domain. -/
theorem after_withAud {i : Instr} (hi : ∀ f, i ≠ .blk f) (s : State) (a : Aud) :
    after i (s.withAud a) = (after i s).withAud a := by
  cases i with
  | blk f => exact absurd rfl (hi f)
  | wrCmd d => exact commandEffect_withAud d s a
  | sens r => exact sensorSample_withAud r s a
  | _ => rfl

theorem readValue_withAud (i : Instr) (s : State) (a : Aud) :
    readValue i (s.withAud a) = readValue i s := by
  cases i <;> rfl

theorem cycleAfter_withAud (x : Option Word) (w : Option BusWord) (s : State) (a : Aud) :
    cycleAfter x w (s.withAud a) = (cycleAfter x w s).withAud a := by
  cases w with
  | none => cases x <;> simp only [cycleAfter, sensorSample_withAud]
  | some w =>
    have hbus := after_withAud (decode_ctlBus_ne_blk w)
    cases x <;> simp only [cycleAfter, sensorSample_withAud, hbus, readValue_withAud] <;>
      split <;> rfl

/-! ### Events -/

/-- The state without the registers no rule can read. -/
def readableState (s : State) : State := s.withAud (readableOf s.aud)

theorem readableState_idem (s : State) : readableState (readableState s) = readableState s :=
  congrArg s.withAud (readableOf_idem s.aud)

/-- Agreement on what a rule can read is equality after hiding. -/
theorem sameReadable_iff (s t : State) :
    SameReadable s t ↔ readableState s = readableState t := by
  refine ⟨fun ⟨hcfg, hctl, haud, hports, hstream, hschedule⟩ => ?_, fun h => ?_⟩
  · rw [readableState, readableState, State.withAud, State.withAud, hcfg, hctl, haud, hports,
      hstream, hschedule]
  · exact ⟨(congrArg State.cfg h :), (congrArg State.ctl h :), (congrArg State.aud h :),
      (congrArg State.ports h :), (congrArg State.stream h :), (congrArg State.schedule h :)⟩

/-- A request reads nothing of the sequencer but `busy`. -/
theorem readableState_requestBlock (f : BlkWord) (s : State) :
    readableState (requestBlock f (readableState s)) = readableState (requestBlock f s) := by
  have hbusy : (readableState s).aud.busy = s.aud.busy := readableOf_busy s.aud
  rcases requestBlock_cases f s with ⟨hb, h⟩ | ⟨hb, rfl, h⟩ | ⟨hb, hf, h⟩ <;> rw [h]
  · rw [requestBlock_of_busy (hbusy.trans hb), readableState_idem]
  · rw [requestBlock_zero (hbusy.trans hb)]
    exact congrArg (fun a => pulseDone (s.withAud a)) (readableOf_counted s.aud)
  · rw [requestBlock_begin (hbusy.trans hb) hf]
    exact congrArg s.withAud (readableOf_beginBlock_counted s.cfg f s.aud)

/-- RENDER reads the sequencer of a block in progress only, and the steps in mode RAMP only. -/
theorem readableState_renderStep (s : State) :
    readableState (renderStep (readableState s)) = readableState (renderStep s) := by
  have hen' : renderEnabled (readableState s).aud = renderEnabled s.aud :=
    renderEnabled_readableOf s.aud
  rcases renderStep_cases s with ⟨hen, h⟩ | ⟨hen, hm, h⟩ | ⟨hen, hm, h⟩ <;> rw [h]
  · rw [renderStep_of_disabled (hen'.trans hen), readableState_idem]
  · rw [renderStep_of_zero (hen'.trans hen) ((readableOf_mode hen).trans hm)]
    exact congrArg s.withAud (readableOf_renderZero hen hm)
  · rw [renderStep_of_ramp (hen'.trans hen) ((readableOf_mode hen).trans hm)]
    exact congrArg s.withAud (readableOf_renderRamp s.cfg hen hm)

/-- A waiting sample is readable, and so is whether it is the block's last one. -/
theorem readableState_consumeStep (s : State) :
    readableState (consumeStep (readableState s)) = readableState (consumeStep s) := by
  have hfull : (readableState s).aud.outFull = s.aud.outFull := readableOf_outFull s.aud
  rcases consumeStep_cases s with ⟨hf, h⟩ | ⟨hf, hi, h⟩ | ⟨hf, hi, h⟩ <;> rw [h]
  · rw [consumeStep_of_empty (hfull.trans hf), readableState_idem]
  · obtain ⟨hidx, hframes, hword⟩ := readableOf_waiting hf
    rw [consumeStep_of_last (hfull.trans hf) (hidx.trans (hi.trans hframes.symm))]
    exact congrArg₂ (fun l a => pulseDone { s with stream := s.stream ++ [l], aud := a }) hword
      (readableOf_ended s.aud)
  · obtain ⟨hidx, hframes, hword⟩ := readableOf_waiting hf
    rw [consumeStep_of_more (hfull.trans hf) (hidx.trans_ne (hi.trans_eq hframes.symm))]
    exact congrArg₂ (fun l a => { s with stream := s.stream ++ [l], aud := a }) hword
      (readableOf_taken hf)

/-- The control domain's cycle and hiding commute. -/
theorem cycleAfter_readableState (x : Option Word) (w : Option BusWord) (s : State) :
    cycleAfter x w (readableState s) = readableState (cycleAfter x w s) := by
  rw [readableState, cycleAfter_withAud, readableState, cycleAfter_aud]

/-- What crosses between the domains is readable. -/
theorem copyField_readableState (f : Field) (s : State) :
    copyField f (readableState s) = readableState (copyField f s) := by
  cases f <;> simp only [copyField, readableState, State.withAud, readableOf_eq]

theorem ackField_readableState (f : Field) (s : State) :
    ackField f (readableState s) = readableState (ackField f s) := by
  cases f <;> rfl

theorem copyBlkTotal_readableState (s : State) :
    copyBlkTotal (readableState s) = readableState (copyBlkTotal s) := by
  simp only [copyBlkTotal, readableState, State.withAud, readableOf_blkTotal]

theorem copyIsSilent_readableState (s : State) :
    copyIsSilent (readableState s) = readableState (copyIsSilent s) := by
  simp only [copyIsSilent, readableState, State.withAud, readableOf_isSilent]

/-- No event shows whether the registers no rule can read were hidden before it. -/
theorem readableState_eventAfter (e : Event) (s : State) :
    readableState (eventAfter e (readableState s)) = readableState (eventAfter e s) := by
  cases e with
  | ctl x w => simp only [eventAfter, cycleAfter_readableState, readableState_idem]
  | blkReq w => exact readableState_requestBlock w s
  | render => exact readableState_renderStep s
  | consume => exact readableState_consumeStep s
  | copy f => simp only [eventAfter, copyField_readableState, readableState_idem]
  | ack f => simp only [eventAfter, ackField_readableState, readableState_idem]
  | copyBlk => simp only [eventAfter, copyBlkTotal_readableState, readableState_idem]
  | copySilent => simp only [eventAfter, copyIsSilent_readableState, readableState_idem]
  | reset => rfl

/-- No step does, either. -/
theorem readableState_stepAfter (s : State) :
    readableState (stepAfter (readableState s)) = readableState (stepAfter s) := by
  have hschedule : (readableState s).schedule = s.schedule := rfl
  unfold stepAfter
  rw [hschedule]
  cases s.schedule with
  | nil => exact readableState_idem (quiet s)
  | cons e rest => exact readableState_eventAfter e (eventStart s rest)

end Sys2Proof.Machine
end

section
/-! The obligations of spec/10_state.md: what hidden registers show, the invariant, the
configuration, the host's two parameters, the reset values. -/

namespace Sys2Proof.Machine

/-- Settles O51: both steps take the same event, and hiding before it is not seen after it. -/
theorem unspecifiedRegistersNeverShow : Obligations.UnspecifiedRegistersNeverShow := by
  intro s t s' hst hstep
  obtain ⟨hlegal, rfl⟩ := step_next_iff.1 hstep
  refine ⟨stepAfter t, step_of_legal (hst.1 ▸ hlegal), ?_⟩
  rw [sameReadable_iff] at hst ⊢
  rw [← readableState_stepAfter, hst, readableState_stepAfter]

/-- Settles O55: releasing the outputs touches nothing the invariant speaks of, and every event
keeps each of its three parts. -/
theorem everyStepKeepsTheInvariant : Obligations.EveryStepKeepsTheInvariant := by
  intro s t hinv hstep
  rcases step_cases hstep with ⟨_, rfl⟩ | ⟨e, rest, _, rfl⟩
  · exact hinv
  · exact Inv.eventAfter (s := eventStart s rest) hinv e

/-- Settles O11: no event writes the configuration. -/
theorem noStepWritesTheConfiguration : Obligations.NoStepWritesTheConfiguration := by
  intro s t hstep
  rcases step_cases hstep with ⟨_, rfl⟩ | ⟨e, rest, _, rfl⟩
  · exact quiet_cfg s
  · exact eventAfter_cfg e (eventStart s rest)

/-- Settles O24: the event that writes the field is the host's, and the write ends the cycle. -/
theorem onlyTheHostSetsAmplitudeAndGain : Obligations.OnlyTheHostSetsAmplitudeAndGain := by
  intro s t hstep
  refine ⟨fun hne => ?_, fun hne => ?_⟩
  · refine (step_changes_hostField (f := .tamp) (fun _ _ => rfl) hstep hne).imp_left ?_
    rintro ⟨x, w, rest, hs, rfl, hw⟩
    obtain ⟨d, hd⟩ := (operationWrites_tamp_iff _ _).1 hw
    obtain ⟨u, _, hu⟩ := cycleAfter_write (w := w) (by rw [hd]; rfl) x (eventStart s rest)
    exact ⟨x, w, rest, hs, by rw [hu, hd]; rfl⟩
  · refine (step_changes_hostField (f := .gain) (fun _ _ => rfl) hstep hne).imp_left ?_
    rintro ⟨x, w, rest, hs, rfl, hw⟩
    obtain ⟨v, hv⟩ := (operationWrites_gain_iff _ _).1 hw
    obtain ⟨u, hcfg, hu⟩ := cycleAfter_write (w := w) (by rw [hv]; rfl) x (eventStart s rest)
    refine ⟨x, w, rest, v, hs, hv, ?_⟩
    rw [hu, hv, ← eventStart_cfg s rest, ← hcfg]
    rfl

/-- Settles O52: each listed element by evaluation. -/
theorem resetValues : Obligations.ResetValues := by
  unfold Obligations.ResetValues
  and_intros <;> rfl

/-- Settles O54: a state just after reset is the result of the reset step, which has the invariant
from wherever it is taken. -/
theorem invariantHoldsAtReset : Obligations.InvariantHoldsAtReset :=
  ⟨inv_resetStep State.reset,
    fun c es => inv_resetStep { State.resetWith c with schedule := es }⟩

end Sys2Proof.Machine
end

section
/-! What crosses between the two clock domains, event by event and along a run (spec/20_memory.md
R62 to R69): a shadow follows its own COPY, a field's flags lead to an acknowledgement, the telemetry
follows the render domain. -/

namespace Sys2Proof.Machine

/-! ### Field by field -/

/-- SYNC_PEND is the disjunction over the fields. -/
theorem syncPend_eq_false_iff (c : Ctl) :
    syncPend c = false ↔ ∀ f, (fieldSync f c).pend = false := by
  simp only [syncPend, Bool.or_eq_false_iff]
  exact ⟨fun ⟨⟨⟨htfreq, htamp⟩, hgain⟩, hrun⟩ f => by cases f <;> assumption,
    fun h => ⟨⟨⟨h .tfreq, h .tamp⟩, h .gain⟩, h .runstate⟩⟩

/-- SYNC_PEND is bit 3 of STATUS (30_encoding.md R93). -/
theorem statusWord_syncPend (cfg : Config) (c : Ctl) :
    (statusWord cfg c).getLsbD 3 = syncPend c := by
  simp only [statusWord, BitVec.getLsbD_append]
  simp

/-- A field with no write pending has a current shadow. -/
theorem FieldSound.shadow_eq {f : Field} {s : State} (h : FieldSound f s)
    (hpend : (fieldSync f s.ctl).pend = false) : shadowWord f s.aud = controlWord f s.ctl := by
  obtain ⟨hcopied, hcurrent⟩ := h
  exact hcurrent (hcopied hpend)

/-- A block that begins uses the shadow of every field (40_oscillator.md R112). -/
theorem snapshotWord_of_accepted (f : Field) {w : BlkWord} {s t : State}
    (hidle : s.aud.busy = false) (hw : w ≠ 0) (h : exec (.blk w) s = .next t) :
    snapshotWord f t.aud = shadowWord f s.aud := by
  obtain rfl : requestBlock w s = t := Host.Outcome.next.inj h
  rw [requestBlock_begin hidle hw]
  have hb := beginBlock_begun s.cfg w { s.aud with blkTotal := s.aud.blkTotal + 1 }
  cases f
  · exact hb.sTfreq
  · exact hb.sTamp
  · exact hb.sGain
  · exact hb.rRunstate

/-- ACK keeps a field pending that has not been copied (20_memory.md R65). -/
theorem Sync.acked_eq (y : Sync) : y.acked = { y with pend := y.pend && !y.cp } := by
  obtain ⟨pend, cp⟩ := y
  cases cp <;> simp [Sync.acked]

/-! ### The handoff steps -/

@[simp] theorem shadowWord_copyField (f g : Field) (s : State) :
    shadowWord f (copyField g s).aud =
      if g = f then controlWord f s.ctl else shadowWord f s.aud := by
  cases f <;> cases g <;> rfl

@[simp] theorem controlWord_copyField (f g : Field) (s : State) :
    controlWord f (copyField g s).ctl = controlWord f s.ctl := by
  cases f <;> cases g <;> rfl

@[simp] theorem fieldSync_copyField (f g : Field) (s : State) :
    fieldSync f (copyField g s).ctl =
      if g = f then (fieldSync f s.ctl).copied else fieldSync f s.ctl := by
  cases f <;> cases g <;> rfl

@[simp] theorem controlWord_ackField (f g : Field) (s : State) :
    controlWord f (ackField g s).ctl = controlWord f s.ctl := by
  cases f <;> cases g <;> rfl

@[simp] theorem fieldSync_ackField (f g : Field) (s : State) :
    fieldSync f (ackField g s).ctl =
      if g = f then (fieldSync f s.ctl).acked else fieldSync f s.ctl := by
  cases f <;> cases g <;> rfl

/-! ### Event by event -/

/-- Everything an event other than a reset can do to a shadow: its own COPY brings the whole control
word, nothing else touches it (20_memory.md R63). -/
theorem shadowWord_eventAfter {f : Field} {e : Event} {s : State} (hr : e ≠ .reset) :
    shadowWord f (eventAfter e s).aud =
      if e = .copy f then controlWord f s.ctl else shadowWord f s.aud := by
  cases e with
  | ctl x w => simp [eventAfter]
  | blkReq w => simp [eventAfter]
  | render => simp [eventAfter]
  | consume => simp [eventAfter]
  | copy g => simp only [eventAfter, shadowWord_copyField, Event.copy.injEq]
  | ack g => simp [eventAfter]
  | copyBlk => rfl
  | copySilent => rfl
  | reset => exact absurd rfl hr

/-- What the flags of a field have after a reset, and what COPY and ACK keep of them, stays until
the field is written. -/
theorem fieldSync_eventAfter_keeps {P : Sync → Prop} (hreset : P Sync.reset)
    (hcopied : ∀ y, P y → P y.copied) (hacked : ∀ y, P y → P y.acked) {f : Field} {e : Event}
    {s : State} (hw : eventWrites f s e = false) (h : P (fieldSync f s.ctl)) :
    P (fieldSync f (eventAfter e s).ctl) := by
  by_cases hr : e = .reset
  · subst hr
    cases f <;> exact hreset
  · rw [(eventAfter_field hw hr).2]
    split_ifs
    · exact hcopied _ h
    · exact hacked _ h
    · exact h

/-- No operation touches what the render domain has reported. -/
theorem after_telemetry (i : Instr) (s : State) :
    (after i s).ctl.blkSeen = s.ctl.blkSeen ∧ (after i s).ctl.silentSeen = s.ctl.silentSeen := by
  cases i with
  | wrCmd d => exact ⟨(commandEffect_frame d s).blkSeen, (commandEffect_frame d s).silentSeen⟩
  | sens r =>
    obtain ⟨_, _, _, _, _, _, _, hs⟩ := sensorSample_frame r s
    simp [after, hs]
  | blk w => simp [after]
  | _ => exact ⟨rfl, rfl⟩

/-- Everything an event can do to the two reports: their own COPY brings the value of the render
domain, and a reset gives both sides the same value. -/
theorem eventAfter_telemetry (e : Event) (s : State) :
    ((eventAfter e s).ctl.blkSeen =
      if e = .copyBlk then s.aud.blkTotal
      else if e = .reset then (eventAfter e s).aud.blkTotal else s.ctl.blkSeen) ∧
    ((eventAfter e s).ctl.silentSeen =
      if e = .copySilent then s.aud.isSilent
      else if e = .reset then (eventAfter e s).aud.isSilent else s.ctl.silentSeen) := by
  cases e with
  | ctl x w =>
    exact cycleAfter_keeps
      (P := fun t => t.ctl.blkSeen = s.ctl.blkSeen ∧ t.ctl.silentSeen = s.ctl.silentSeen)
      (fun i t _ ⟨hblk, hsilent⟩ => (after_telemetry i t).imp (·.trans hblk) (·.trans hsilent))
      (fun _ _ ht => ht) x w ⟨rfl, rfl⟩
  | copy f => cases f <;> exact ⟨rfl, rfl⟩
  | ack f => cases f <;> exact ⟨rfl, rfl⟩
  | reset => exact ⟨rfl, rfl⟩
  | _ => simp [eventAfter]

/-! ### Along a run -/

/-- What holds at step `m` of a run and is kept by every event up to step `k` holds there. -/
theorem IsRun.keeps {es : Nat → Event} {run : Nat → State} (h : IsRun es run) {P : State → Prop}
    {m k : Nat} (hmk : m ≤ k) (hm : P (run m))
    (hstep : ∀ j, m ≤ j → j < k → P (run j) → P (eventAfter (es j) (eventStart (run j) []))) :
    P (run k) := by
  induction k, hmk using Nat.le_induction with
  | base => exact hm
  | succ k hmk ih =>
    rw [h.succ]
    exact hstep k hmk k.lt_succ_self
      (ih fun j hj hjk => hstep j hj (hjk.trans k.lt_succ_self))

/-- A control value stays while nothing writes it. -/
theorem IsRun.controlWord_eq {es : Nat → Event} {run : Nat → State} (h : IsRun es run) {f : Field}
    {n k : Nat} (hnk : n ≤ k)
    (hkeep : ∀ j, n ≤ j → j < k → eventWrites f (run j) (es j) = false ∧ es j ≠ .reset) :
    controlWord f (run k).ctl = controlWord f (run n).ctl := by
  refine h.keeps (P := fun s => controlWord f s.ctl = controlWord f (run n).ctl) hnk rfl
    fun j hj hjk hP => ?_
  obtain ⟨hwrite, hreset⟩ := hkeep j hj hjk
  exact (eventAfter_field (s := eventStart (run j) []) hwrite hreset).1.trans hP

/-- After a COPY of a field the shadow is the control value, while nothing writes that. -/
theorem IsRun.shadowWord_eq_of_copy {es : Nat → Event} {run : Nat → State} (h : IsRun es run)
    {f : Field} {n m k : Nat} (hnm : n ≤ m) (hcopy : es m = .copy f) (hmk : m < k)
    (hkeep : ∀ j, n ≤ j → j < k → eventWrites f (run j) (es j) = false ∧ es j ≠ .reset) :
    shadowWord f (run k).aud = controlWord f (run n).ctl := by
  have hcontrol (j : Nat) (hj : n ≤ j) (hjk : j < k) :
      controlWord f (run j).ctl = controlWord f (run n).ctl :=
    h.controlWord_eq hj fun i hi hij => hkeep i hi (hij.trans hjk)
  refine h.keeps (P := fun s => shadowWord f s.aud = controlWord f (run n).ctl) hmk ?_
    fun j hj hjk hP => ?_
  · rw [h.succ, shadowWord_eventAfter (hkeep m hnm hmk).2, if_pos hcopy]
    exact hcontrol m hnm hmk
  · rw [shadowWord_eventAfter (hkeep j (by omega) hjk).2]
    split_ifs
    · exact hcontrol j (by omega) hjk
    · exact hP

/-- What the flags of a field have after a reset, and what COPY and ACK keep of them, stays along a
run until the field is written. -/
theorem IsRun.fieldSync_keeps {es : Nat → Event} {run : Nat → State} (h : IsRun es run)
    {P : Sync → Prop} (hreset : P Sync.reset) (hcopied : ∀ y, P y → P y.copied)
    (hacked : ∀ y, P y → P y.acked) {f : Field} {m k : Nat} (hmk : m ≤ k)
    (hm : P (fieldSync f (run m).ctl))
    (hkeep : ∀ j, m ≤ j → j < k → eventWrites f (run j) (es j) = false) :
    P (fieldSync f (run k).ctl) :=
  h.keeps (P := fun s => P (fieldSync f s.ctl)) hmk hm fun j hj hjk hP =>
    fieldSync_eventAfter_keeps hreset hcopied hacked (hkeep j hj hjk) hP

/-- A COPY and then an ACK of a field leave it not pending until the next write. -/
theorem IsRun.not_pend_of_copy_ack {es : Nat → Event} {run : Nat → State} (h : IsRun es run)
    {f : Field} {c m k : Nat} (hcopy : es c = .copy f) (hcm : c < m) (hack : es m = .ack f)
    (hmk : m < k) (hkeep : ∀ j, c ≤ j → j < k → eventWrites f (run j) (es j) = false) :
    (fieldSync f (run k).ctl).pend = false := by
  have hcp : (fieldSync f (run m).ctl).cp = true := by
    refine h.fieldSync_keeps (P := fun y => y.cp = true) rfl (fun _ _ => rfl) ?_ hcm ?_
      fun j hj hjm => hkeep j (by omega) (by omega)
    · intro y hy
      rw [Sync.acked_eq]
      exact hy
    · rw [h.succ, hcopy, eventAfter, fieldSync_copyField, if_pos rfl]
      rfl
  refine h.fieldSync_keeps (P := fun y => y.pend = false) rfl (fun _ hy => hy) ?_ hmk ?_
    fun j hj hjk => hkeep j (by omega) hjk
  · intro y hy
    rw [Sync.acked_eq, hy]
    rfl
  · rw [h.succ, hack, eventAfter, fieldSync_ackField, if_pos rfl, Sync.acked_eq]
    simp [hcp]

/-- A register of the control domain that the agent `a` copies from the render domain, with nothing
else touching it but a reset, which gives both sides the same value. -/
def Reports {α : Type} (a : Event) (source : Aud → α) (copy : Ctl → α) : Prop :=
  ∀ e s, copy (eventAfter e s).ctl =
    if e = a then source s.aud
    else if e = .reset then source (eventAfter e s).aud else copy s.ctl

theorem reports_blkSeen : Reports .copyBlk Aud.blkTotal Ctl.blkSeen :=
  fun e s => (eventAfter_telemetry e s).1

theorem reports_silentSeen : Reports .copySilent Aud.isSilent Ctl.silentSeen :=
  fun e s => (eventAfter_telemetry e s).2

/-- After its copy a report is the value of the render domain, while that does not change. -/
theorem IsRun.report_eq {es : Nat → Event} {run : Nat → State} (h : IsRun es run) {α : Type}
    {a : Event} {source : Aud → α} {copy : Ctl → α} (hrep : Reports a source copy) {n m k : Nat}
    (hnm : n ≤ m) (hcopy : es m = a) (hmk : m < k)
    (hconst : ∀ j, n ≤ j → j ≤ k → source (run j).aud = source (run n).aud) :
    copy (run k).ctl = source (run n).aud := by
  refine h.keeps (P := fun s => copy s.ctl = source (run n).aud) hmk ?_ fun j hj hjk hP => ?_
  · rw [h.succ, hrep, if_pos hcopy]
    exact hconst m hnm hmk.le
  · rw [hrep]
    split_ifs
    · exact hconst j (by omega) hjk.le
    · rw [← h.succ]
      exact hconst (j + 1) (by omega) hjk
    · exact hP

/-! ### A finite run -/

/-- The state after a list of events. -/
def runAfter : List Event → State → State
  | [], s => { s with schedule := [] }
  | e :: es, s => runAfter es (eventAfter e (eventStart s es))

/-- A run of a legal machine goes on to its end. -/
theorem runSchedule_eq_runAfter {s : State} (h : legalConfig s.cfg = true) (es : List Event) :
    runSchedule es s = .next (runAfter es s) := by
  induction es generalizing s with
  | nil => exact runSchedule_nil s
  | cons e es ih =>
    rw [runSchedule_cons h]
    exact ih (by simpa using h)

/-- The eight handoff steps leave every control value and bring it to its shadow, and every field
has been copied and then acknowledged. -/
theorem runAfter_handoffSteps (f : Field) (s : State) :
    shadowWord f (runAfter handoffSteps s).aud = controlWord f s.ctl ∧
      controlWord f (runAfter handoffSteps s).ctl = controlWord f s.ctl ∧
      fieldSync f (runAfter handoffSteps s).ctl = (fieldSync f s.ctl).copied.acked := by
  cases f <;> simp [handoffSteps, runAfter, eventAfter]

end Sys2Proof.Machine
end

section
/-! The obligations of spec/20_memory.md: the handoff steps, what SYNC_PEND promises, what only a
COPY changes, and what fair runs bring across. -/

namespace Sys2Proof.Machine

/-- Settles O60: fairness gives the later COPY, and the ACK after it; what each brings across stays
along the run. -/
theorem fairRunsBringEveryWriteAcross : Obligations.FairRunsBringEveryWriteAcross := by
  intro es run ⟨hrun, hfair⟩
  rw [weaklyFair_iff] at hfair
  refine ⟨fun f n => ?_, fun f n => ?_, fun n => ?_, fun n => ?_⟩
  · obtain ⟨m, hnm, hcopy⟩ := hfair _ (copy_mem_handoffAgents f) n
    refine ⟨m, hnm, hcopy, fun k hmk hkeep => ?_⟩
    have hshadow := hrun.shadowWord_eq_of_copy hnm hcopy hmk hkeep
    exact ⟨hshadow, fun w t hidle hw ht =>
      (snapshotWord_of_accepted f hidle hw ht).trans hshadow⟩
  · obtain ⟨c, hnc, hcopy⟩ := hfair _ (copy_mem_handoffAgents f) n
    obtain ⟨m, hcm, hack⟩ := hfair _ (ack_mem_handoffAgents f) (c + 1)
    exact ⟨m, by omega, hack, fun k hmk hkeep =>
      hrun.not_pend_of_copy_ack hcopy hcm hack hmk fun j hj => hkeep j (by omega)⟩
  · obtain ⟨m, hnm, hcopy⟩ := hfair .copyBlk (by decide) n
    exact ⟨m, hnm, hcopy, fun k hmk hconst => hrun.report_eq reports_blkSeen hnm hcopy hmk hconst⟩
  · obtain ⟨m, hnm, hcopy⟩ := hfair .copySilent (by decide) n
    exact ⟨m, hnm, hcopy,
      fun k hmk hconst => hrun.report_eq reports_silentSeen hnm hcopy hmk hconst⟩

/-- Settles O46: one case per agent, ACK in the form of `Sync.acked_eq`. (The name `handoffSteps` is
the model's list of these steps.) -/
theorem handoffSteps_holds : Obligations.HandoffSteps := by
  intro s e rest hlegal hsched
  have hstep := step_of_schedule hlegal hsched
  simp only [← Sync.acked_eq]
  and_intros <;> rintro rfl <;> exact hstep

/-- Settles O47: no field is pending, so every shadow is current, and a block takes the shadows. -/
theorem noPendingWriteMeansShadowsAreCurrent :
    Obligations.NoPendingWriteMeansShadowsAreCurrent := by
  intro s hsound hstatus
  rw [statusWord_syncPend, syncPend_eq_false_iff] at hstatus
  have hcurrent (f : Field) : shadowWord f s.aud = controlWord f s.ctl :=
    ((handoffsSound_iff s).1 hsound f).shadow_eq (hstatus f)
  refine ⟨hcurrent .tfreq, hcurrent .tamp, hcurrent .gain, hcurrent .runstate,
    fun w t hidle hw ht => ?_⟩
  have hsnapshot (f : Field) : snapshotWord f t.aud = controlWord f s.ctl :=
    (snapshotWord_of_accepted f hidle hw ht).trans (hcurrent f)
  exact ⟨hsnapshot .tfreq, hsnapshot .tamp, hsnapshot .gain⟩

/-- Settles O48: the run is its state after the eight events, and there every field has been copied
and then acknowledged. -/
theorem handoffStepsBringEveryFieldAcross : Obligations.HandoffStepsBringEveryFieldAcross := by
  intro s hlegal
  choose hshadow hcontrol hsync using (runAfter_handoffSteps · s)
  refine ⟨_, runSchedule_eq_runAfter hlegal handoffSteps, (syncPend_eq_false_iff _).2 fun f => ?_,
    hshadow .tfreq, hshadow .tamp, hshadow .gain, hshadow .runstate, hcontrol .tfreq⟩
  rw [hsync]
  rfl

/-- Settles O49: a shadow's four cases are one law. -/
theorem shadowsChangeOnlyByTheirCopy : Obligations.ShadowsChangeOnlyByTheirCopy := by
  intro s t e rest hsched hreset hstep
  obtain ⟨_, rfl⟩ := step_next_iff.1 hstep
  rw [stepAfter, hsched]
  have hshadow (f : Field) := shadowWord_eventAfter (f := f) (s := eventStart s rest) hreset
  exact ⟨hshadow .tfreq, hshadow .tamp, hshadow .gain, hshadow .runstate⟩

end Sys2Proof.Machine
end

section
/-! The decoder and the encoder on bus words in their fields (spec/30_encoding.md R81, R105). -/

namespace Sys2Proof

/-! ### A bus word is its three fields -/

/-- Cutting a bus word into WE, A and D loses nothing. -/
theorem busWord_fields (w : BusWord) :
    busWord (BusWord.we w) (BusWord.addr w) (BusWord.data w) = w := by
  apply BitVec.eq_of_getLsbD_eq
  intro i hi
  simp only [busWord, BusWord.we, BusWord.addr, BusWord.data, BitVec.getLsbD_append,
    BitVec.getLsbD_extractLsb', BitVec.getLsbD_ofBool]
  by_cases hd : i < 32
  · simp [hd]
  · by_cases ha : i - 32 < 6
    · simp [hd, ha, show 32 + (i - 32) = i by omega]
    · obtain rfl : i = 38 := by omega
      rfl

theorem RegAddr.eq_of_toNat {a : RegAddr} {k : Nat} (h : a.toNat = k) : a = BitVec.ofNat 6 k := by
  rw [← h, BitVec.ofNat_toNat, BitVec.setWidth_eq]

/-! ### The decoder, field by field -/

theorem decode_busWord_read (a : RegAddr) (d : Word) :
    decode (.ctlBus (busWord false a d)) = decodeRead a := by
  simp [decode, decodeBus]

theorem decode_busWord_write (a : RegAddr) (d : Word) :
    decode (.ctlBus (busWord true a d)) = decodeWrite a d := by
  simp [decode, decodeBus]

theorem decodeRead_reserved {a : RegAddr} (h : RegAddr.isReserved a = true) :
    decodeRead a = .rdReserved a := by
  simp only [RegAddr.isReserved, decide_eq_true_eq] at h
  unfold decodeRead
  split
  case h_14 => rfl
  all_goals omega

theorem decodeWrite_ignored {a : RegAddr} (h : RegAddr.isWritable a = false) (d : Word) :
    decodeWrite a d = .wrIgnored a d := by
  unfold decodeWrite
  split
  case h_6 => rfl
  all_goals
    next ha =>
      rw [RegAddr.eq_of_toNat ha] at h
      exact absurd h (by decide)

/-! ### The encoder after the decoder -/

/-- The row of a read determines its address; D is not there to be given back (R81). -/
theorem encode_decodeRead (a : RegAddr) :
    encode (decodeRead a) = .ctlBus (busWord false a 0) := by
  unfold decodeRead
  split
  case h_14 => rfl
  all_goals
    next ha =>
      rw [RegAddr.eq_of_toNat ha]
      rfl

/-- The row of a write determines its address, and D is its operand. -/
theorem encode_decodeWrite (a : RegAddr) (d : Word) :
    encode (decodeWrite a d) = .ctlBus (busWord true a d) := by
  unfold decodeWrite
  split
  case h_6 => rfl
  all_goals
    next ha =>
      rw [RegAddr.eq_of_toNat ha]
      rfl

/-! ### The opcode table -/

/-- A row whose mask has no bit in D cannot tell two words that differ in D alone. -/
theorem BusRow.hits_busWord {r : BusRow} (hmask : BusWord.data r.mask = 0) (b : Bool) (a : RegAddr)
    (d : Word) : r.hits (busWord b a d) = r.hits (busWord b a 0) := by
  have hmasked : busWord b a d &&& r.mask = busWord b a 0 &&& r.mask := by
    apply BitVec.eq_of_getLsbD_eq
    intro i _
    simp only [BitVec.getLsbD_and, busWord, BitVec.getLsbD_append]
    by_cases hi : i < 32
    · have hbit : r.mask.getLsbD i = false := by
        simpa [BusWord.data, hi] using congrArg (·.getLsbD i) hmask
      simp only [hbit, Bool.and_false]
    · simp only [hi, if_false]
  rw [BusRow.hits, BusRow.hits, hmasked]

theorem busRows_mask_data : ∀ r ∈ busRows, BusWord.data r.mask = 0 := by decide

theorem findIdx_hits_congr {rows : List BusRow} {v w : BusWord}
    (h : ∀ r ∈ rows, r.hits v = r.hits w) :
    rows.findIdx (·.hits v) = rows.findIdx (·.hits w) := by
  induction rows with
  | nil => rfl
  | cons r rows ih =>
    rw [List.forall_mem_cons] at h
    rw [List.findIdx_cons, List.findIdx_cons, h.1, ih h.2]

/-- The first row that matches a word is the first that matches it with D cleared. -/
theorem busRows_findIdx_busWord (b : Bool) (a : RegAddr) (d : Word) :
    busRows.findIdx (·.hits (busWord b a d)) = busRows.findIdx (·.hits (busWord b a 0)) :=
  findIdx_hits_congr fun r hr => BusRow.hits_busWord (busRows_mask_data r hr) b a d

/-- The row of a decoded write does not depend on D. -/
theorem decodeWrite_row (a : RegAddr) (d : Word) :
    (decodeWrite a d).row = (decodeWrite a 0).row := by
  unfold decodeWrite
  split <;> rfl

/-- The read half of the table, address by address. -/
theorem busRows_findIdx_read (a : RegAddr) :
    busRows.findIdx (·.hits (busWord false a 0)) = (decodeRead a).row := by
  revert a
  decide

/-- The write half of the table, address by address. -/
theorem busRows_findIdx_write (a : RegAddr) :
    busRows.findIdx (·.hits (busWord true a 0)) = (decodeWrite a 0).row := by
  revert a
  decide

end Sys2Proof
end

section
/-! Bus operations as the register map has them (spec/30_encoding.md R90 to R103): what a read
drives, what a write makes of the state. -/

namespace Sys2Proof.Machine

/-! ### Register words -/

/-- SENSOR_PAUSE is 1 or 0 (R92). -/
theorem pauseWord_eq_ite (c : Ctl) : pauseWord c = if c.pause then 1 else 0 := by
  rw [pauseWord]
  cases c.pause <;> rfl

/-- CONFIG as a number: T in the upper half, TABLE_LOG2 in the low five bits (R101). -/
theorem configWord_eq_ofNat (c : Config) :
    configWord c = BitVec.ofNat 32 (c.t % 65536 * 65536 + c.tableLog2 % 32) := by
  apply BitVec.eq_of_toNat_eq
  rw [configWord, BitVec.toNat_append, BitVec.toNat_append,
    ← Nat.shiftLeft_add_eq_or_of_lt (by omega), ← Nat.shiftLeft_add_eq_or_of_lt (by omega)]
  simp [Nat.shiftLeft_eq]
  omega

/-- SAMPLE_RATE as a number: FS in the low 24 bits (R102). -/
theorem sampleRateWord_eq_ofNat (c : Config) :
    sampleRateWord c = BitVec.ofNat 32 (c.fs % 16777216) := by
  apply BitVec.eq_of_toNat_eq
  rw [sampleRateWord, BitVec.toNat_append]
  simp
  omega

/-- STATUS bits 2..0 (R93); bit 3 is in `statusWord_syncPend`. -/
theorem statusWord_flags (cfg : Config) (c : Ctl) :
    (statusWord cfg c).getLsbD 0 = c.run ∧ (statusWord cfg c).getLsbD 1 = sleeping cfg c ∧
      (statusWord cfg c).getLsbD 2 = c.silentSeen := by
  simp only [statusWord, BitVec.getLsbD_append]
  simp

/-- STATUS from bit 4 up is the debounce count between two fields of zeros (R93). -/
theorem statusWord_extract_above_flags (cfg : Config) (c : Ctl) (k len : Nat) :
    (statusWord cfg c).extractLsb' (k + 4) len =
      ((0 : BitVec 8) ++ c.stillCount ++ (0 : BitVec 4)).extractLsb' k len := by
  rw [statusWord, BitVec.extractLsb'_append_eq_of_le (by omega),
    BitVec.extractLsb'_append_eq_of_le (by omega), BitVec.extractLsb'_append_eq_of_le (by omega),
    BitVec.extractLsb'_append_eq_of_le (by omega)]
  rfl

theorem statusWord_low_zeros (cfg : Config) (c : Ctl) :
    (statusWord cfg c).extractLsb' 4 4 = 0 := by
  rw [statusWord_extract_above_flags cfg c 0, BitVec.extractLsb'_append_eq_of_add_le (by decide)]
  rfl

theorem statusWord_stillCount (cfg : Config) (c : Ctl) :
    (statusWord cfg c).extractLsb' 8 16 = c.stillCount := by
  rw [statusWord_extract_above_flags cfg c 4, BitVec.extractLsb'_append_eq_of_le (by decide),
    BitVec.extractLsb'_append_eq_of_add_le (by decide), BitVec.extractLsb'_eq_self]

theorem statusWord_high_zeros (cfg : Config) (c : Ctl) :
    (statusWord cfg c).extractLsb' 24 8 = 0 := by
  rw [statusWord_extract_above_flags cfg c 20, BitVec.extractLsb'_append_eq_of_le (by decide),
    BitVec.extractLsb'_append_eq_of_le (by decide), BitVec.extractLsb'_eq_self]

/-! ### Reads -/

/-- What the operation of a read drives is what the register map has at its address. -/
theorem readValue_decodeRead (a : RegAddr) (s : State) :
    readValue (decodeRead a) s = registerValue a s := by
  unfold decodeRead
  split
  case h_14 =>
    simp only [registerValue, *]
    rfl
  all_goals
    next ha =>
      simp only [registerValue, ha, readValue, pauseWord_eq_ite, configWord_eq_ofNat,
        sampleRateWord_eq_ofNat]

/-- The operation of a read, from any state. -/
theorem exec_decodeRead (a : RegAddr) (s : State) :
    exec (decodeRead a) s = .next (driveRdata (readValue (decodeRead a) s) s) := by
  rw [exec_eq_after, after_of_isBusRead (decodeRead_isBusRead a)]

/-- To know a register's read, know the row of its address and the word it drives. -/
theorem readsAs_of_readValue {a : RegAddr} {i : Instr} {v : State → Word} (hrow : decodeRead a = i)
    (hv : ∀ s, readValue i s = v s) : ReadsAs a i v := by
  subst hrow
  exact ⟨decode_busWord_read a, fun s => by rw [exec_decodeRead, hv]; rfl⟩

/-- To know a register's write, know the row of its address and what that operation does. -/
theorem writesAs_of_after {a : RegAddr} {i : Word → Instr} {t : Word → State → State}
    (hrow : ∀ d, decodeWrite a d = i d) (ht : ∀ d s, after (i d) s = t d s) : WritesAs a i t :=
  fun d => ⟨(decode_busWord_write a d).trans (hrow d), fun s => by rw [exec_eq_after, ht]⟩

end Sys2Proof.Machine
end

section
/-! The obligations of spec/30_encoding.md: the decoder and the encoder, the registers, the block
request. -/

namespace Sys2Proof.Machine

/-! ### Encoding -/

/-- Settles O1: a row with a fixed address decodes by its fields; the two rows that keep their
address need it to be one that selects them. -/
theorem decodeInvertsEncode : Obligations.DecodeInvertsEncode := by
  intro i hwf
  cases i with
  | rdReserved a => exact (decode_busWord_read a 0).trans (decodeRead_reserved hwf)
  | wrIgnored a d =>
    have hsel : RegAddr.isWritable a = false := by
      simpa only [Instr.wellFormed, Bool.not_eq_true'] using hwf
    exact (decode_busWord_write a d).trans (decodeWrite_ignored hsel d)
  | wrCmd d => exact decode_busWord_write 0x01 d
  | wrSensorPause d => exact decode_busWord_write 0x02 d
  | wrTargetFreq d => exact decode_busWord_write 0x04 d
  | wrTargetAmp d => exact decode_busWord_write 0x05 d
  | wrVolume d => exact decode_busWord_write 0x06 d
  | blk f => rfl
  | sens r => rfl
  | _ => exact decode_busWord_read _ 0

/-- Settles O2: a bus word is a read or a write by its WE bit, and the encoder gives back every
field the row keeps. -/
theorem encodeInvertsDecode : Obligations.EncodeInvertsDecode := by
  intro p
  refine ⟨decode_wellFormed p, ?_⟩
  cases p with
  | ctlBus w =>
    cases hwe : BusWord.we w
    · simp [decode, decodeBus, hwe, encode_decodeRead]
    · simp only [decode, decodeBus, hwe, if_true, encode_decodeWrite]
      rw [← hwe, busWord_fields]
  | blkReq w => rfl
  | sensor w => rfl

/-- Settles O3: no row looks at D, so the table is a table of WE and A, as the decoder is. -/
theorem decoderFollowsOpcodeTable : Obligations.DecoderFollowsOpcodeTable := by
  refine ⟨fun w => ?_, fun _ => rfl, fun _ => rfl⟩
  rw [← busWord_fields w, busRows_findIdx_busWord]
  cases BusWord.we w
  · rw [decode_busWord_read, busRows_findIdx_read]
  · rw [decode_busWord_write, busRows_findIdx_write,
      ← decodeWrite_row _ (BusWord.data w)]

/-- Settles O4: seven closed words, decoded. -/
theorem writtenOutWordsDecode : Obligations.WrittenOutWordsDecode := by
  unfold Obligations.WrittenOutWordsDecode
  decide

/-! ### Registers -/

/-- Settles O16: a word with WE = 0 is a read of its address, and the register map has its value. -/
theorem everyBusReadFollowsTheRegisterMap : Obligations.EveryBusReadFollowsTheRegisterMap := by
  intro w s hwe
  rw [← busWord_fields w, hwe, decode_busWord_read, busWord_addr, exec_decodeRead,
    readValue_decodeRead]
  rfl

/-- Settles O15: the register is `statusWord`, which R93 gives bit by bit. -/
theorem statusRegisterReads : Obligations.StatusRegisterReads := by
  refine ⟨fun s => statusWord s.cfg s.ctl, readsAs_of_readValue rfl fun _ => rfl, by decide,
    writesAs_of_after (fun _ => rfl) fun _ _ => rfl, fun s => ?_⟩
  obtain ⟨hrun, hsleeping, hsilent⟩ := statusWord_flags s.cfg s.ctl
  refine ⟨hrun, ?_, hsilent, ?_, statusWord_low_zeros _ _, statusWord_stillCount _ _,
    statusWord_high_zeros _ _⟩
  · rw [hsleeping, sleeping, beq_iff_eq]
  · rw [statusWord_syncPend, syncPend]
    simp only [Bool.or_eq_true, or_assoc]

/-- Settles O17: the two writes store D and mark the field as written. -/
theorem targetRegisters : Obligations.TargetRegisters :=
  ⟨writesAs_of_after (fun _ => rfl) fun _ _ => rfl, readsAs_of_readValue rfl fun _ => rfl, rfl,
    writesAs_of_after (fun _ => rfl) fun _ _ => rfl, readsAs_of_readValue rfl fun _ => rfl, rfl⟩

/-- Settles O18: VOLUME has no register of its own, and MASTER_GAIN is read-only. -/
theorem volumeAndMasterGainRegisters : Obligations.VolumeAndMasterGainRegisters :=
  ⟨writesAs_of_after (fun _ => rfl) fun _ _ => rfl, readsAs_of_readValue rfl fun _ => rfl,
    readsAs_of_readValue rfl fun _ => rfl, writesAs_of_after (fun _ => rfl) fun _ _ => rfl, rfl⟩

/-- Settles O19: one bit is stored, and it is read back under zeros. -/
theorem sensorPauseRegister : Obligations.SensorPauseRegister :=
  ⟨writesAs_of_after (fun _ => rfl) fun _ _ => rfl,
    readsAs_of_readValue rfl fun s => pauseWord_eq_ite s.ctl, rfl⟩

/-! ### The block request -/

/-- Settles O31: a request is ignored, completes at once, or begins a block, which leaves the count
that acceptance has made. -/
theorem blockRequestAcceptance : Obligations.BlockRequestAcceptance := by
  intro f s
  simp only [exec_eq_after, after]
  refine ⟨fun hbusy => by rw [requestBlock_of_busy hbusy], fun hidle => ⟨_, rfl, ?_⟩,
    fun hidle hzero => ?_⟩
  · by_cases hf : f = 0
    · rw [hf, requestBlock_zero hidle, pulseDone_aud]
    · rw [requestBlock_begin hidle hf]
      exact (beginBlock_begun _ _ _).blkTotal
  · rw [hzero, requestBlock_zero hidle]
    rfl

end Sys2Proof.Machine
end

section
/-! SUPPORT. The block engine of spec/40_oscillator.md: what acceptance sets up, what RENDER makes
of the render domain, and the run of a whole block, whose induction stands here once. -/

namespace Sys2Proof.Machine

/-! ### Runs as iterated steps -/

@[simp] theorem stepAfter_cfg (s : State) : (stepAfter s).cfg = s.cfg := by
  unfold stepAfter
  split
  · exact quiet_cfg s
  · exact eventAfter_cfg _ _

theorem stepAfter_of_schedule {s : State} {e : Event} {rest : List Event}
    (h : s.schedule = e :: rest) : stepAfter s = eventAfter e (eventStart s rest) := by
  simp only [stepAfter, h]

/-- A run of a legal machine is its step, iterated. -/
theorem core_run_eq_iterate {s : State} (h : legalConfig s.cfg = true) (k : Nat) :
    core.run k s = .next (stepAfter^[k] s) := by
  induction k generalizing s with
  | zero => rfl
  | succ k ih =>
    have hstep : core.step s = .next (stepAfter s) := step_of_legal h
    simp only [Host.Core.run, hstep, Function.iterate_succ_apply]
    exact ih (by simpa using h)

/-! ### Acceptance -/

/-- The render domain with one more request counted (40_oscillator.md R111). -/
def Aud.counted (a : Aud) : Aud := { a with blkTotal := a.blkTotal + 1 }

/-- A request that finds no block in progress and asks for samples is counted and begins a block. -/
theorem exec_blk_begin {f : BlkWord} {s : State} (hidle : s.aud.busy = false) (hf : f ≠ 0) :
    exec (.blk f) s = .next { s with aud := beginBlock s.cfg f s.aud.counted } :=
  congrArg Host.Outcome.next (requestBlock_begin hidle hf)

/-- The fast path is decided by the target in the snapshot and the amplitude that goes on or
starts fresh. -/
theorem takesFastPath_fresh (c : Config) (f : BlkWord) (a : Aud) :
    takesFastPath c (freshOscillator (snapshotBlock f a)) =
      (f32Le a.rTamp c.eps &&
        f32Le (if epochOf a.rRunstate = a.seenEpoch then a.curAmp else 0) c.eps) := by
  rw [freshOscillator_eq]
  rfl

theorem beginBlock_of_stopped (c : Config) (f : BlkWord) {a : Aud}
    (hrun : runOf a.rRunstate = false) :
    beginBlock c f a = { snapshotBlock f a with mode := .zero } :=
  if_neg (Bool.eq_false_iff.1 hrun)

theorem beginBlock_of_silent {c : Config} (f : BlkWord) {a : Aud} (hrun : runOf a.rRunstate = true)
    (htarget : f32Le a.rTamp c.eps = true)
    (hamp : f32Le (if epochOf a.rRunstate = a.seenEpoch then a.curAmp else 0) c.eps = true) :
    beginBlock c f a = fastPathBlock (freshOscillator (snapshotBlock f a)) := by
  have hfast : takesFastPath c (freshOscillator (snapshotBlock f a)) = true := by
    rw [takesFastPath_fresh, htarget, hamp, Bool.and_self]
  exact (if_pos hrun).trans (if_pos hfast)

theorem beginBlock_of_loud {c : Config} (f : BlkWord) {a : Aud} (hrun : runOf a.rRunstate = true)
    (hloud : ¬ (f32Le a.rTamp c.eps = true ∧
      f32Le (if epochOf a.rRunstate = a.seenEpoch then a.curAmp else 0) c.eps = true)) :
    beginBlock c f a = rampBlock (freshOscillator (snapshotBlock f a)) := by
  have hfast : ¬ takesFastPath c (freshOscillator (snapshotBlock f a)) = true := by
    rwa [takesFastPath_fresh, Bool.and_eq_true]
  exact (if_pos hrun).trans (if_neg hfast)

/-- A block that ramps is not silent. -/
theorem isSilent_of_ramp {c : Config} {f : BlkWord} {a : Aud}
    (h : (beginBlock c f a).mode = .ramp) :
    (beginBlock c f a).isSilent = false := by
  rcases beginBlock_cases c f a with ⟨_, hb⟩ | ⟨_, _, hb⟩ | ⟨_, _, hb⟩ <;> rw [hb] at h ⊢
  · cases h
  · cases h
  · rfl

/-! ### One sample -/

/-- What an enabled RENDER makes of the render domain. -/
def nextSample (c : Config) (a : Aud) : Aud :=
  match a.mode with
  | .zero => renderZero a
  | .ramp => renderRamp c a

theorem renderStep_of_enabled {s : State} (hen : renderEnabled s.aud = true) :
    renderStep s = { s with aud := nextSample s.cfg s.aud } := by
  unfold nextSample
  cases hm : s.aud.mode with
  | zero => exact renderStep_of_zero hen hm
  | ramp => exact renderStep_of_ramp hen hm

theorem nextSample_of_zero {a : Aud} (c : Config) (hm : a.mode = .zero) :
    nextSample c a = renderZero a := by
  rw [nextSample, hm]

theorem nextSample_of_ramp {a : Aud} (c : Config) (hm : a.mode = .ramp) :
    nextSample c a = renderRamp c a := by
  rw [nextSample, hm]

theorem nextSample_rendered (c : Config) (a : Aud) : Rendered a (nextSample c a) := by
  unfold nextSample
  cases a.mode with
  | zero => exact renderZero_rendered a
  | ramp => exact renderRamp_rendered c a

/-- A sample leaves the block's mode, its targets and the silence flag. -/
theorem nextSample_keeps_block (c : Config) (a : Aud) :
    (nextSample c a).mode = a.mode ∧ (nextSample c a).sTamp = a.sTamp ∧
      (nextSample c a).sTfreq = a.sTfreq ∧ (nextSample c a).isSilent = a.isSilent := by
  unfold nextSample
  cases hm : a.mode with
  | zero => exact ⟨hm, rfl, rfl, rfl⟩
  | ramp =>
    simp only [renderRamp_eq, hm, and_self]

/-- The block's last sample, told by the numbers: an index in the block does not wrap. -/
theorem idx_succ_eq_frames_iff {a : Aud} (h : a.idx.toNat < a.frames.toNat) :
    a.idx + 1 = a.frames ↔ a.idx.toNat + 1 = a.frames.toNat := by
  rw [← BitVec.toNat_inj, idx_succ_toNat h]

/-- The whole step of an enabled RENDER in mode RAMP. -/
theorem stepAfter_ramp {s : State} {rest : List Event} (hsched : s.schedule = .render :: rest)
    (hen : renderEnabled s.aud = true) (hmode : s.aud.mode = .ramp) :
    stepAfter s = { eventStart s rest with aud := renderRamp s.cfg s.aud } := by
  rw [stepAfter_of_schedule hsched, eventAfter]
  exact renderStep_of_ramp (s := eventStart s rest) hen hmode

/-! ### The steps of a block -/

theorem sampleSteps_length (n : Nat) : (sampleSteps n).length = 2 * n := by
  induction n with
  | zero => rfl
  | succ n ih => rw [sampleSteps, List.length_cons, List.length_cons, ih]; omega

/-- A block in progress with `n` more samples to render, and nothing else scheduled. -/
structure SamplesToCome (n : Nat) (s : State) : Prop where
  schedule : s.schedule = sampleSteps n
  busy : s.aud.busy = true
  outFull : s.aud.outFull = false
  idx : s.aud.idx.toNat + n = s.aud.frames.toNat

/-- A block in progress with a sample waiting and `n` more to render after it. -/
structure SampleWaiting (n : Nat) (s : State) : Prop where
  schedule : s.schedule = .consume :: sampleSteps n
  busy : s.aud.busy = true
  outFull : s.aud.outFull = true
  idx : s.aud.idx.toNat + n = s.aud.frames.toNat

theorem SamplesToCome.idx_lt {n : Nat} {s : State} (h : SamplesToCome (n + 1) s) :
    s.aud.idx.toNat < s.aud.frames.toNat := by
  have := h.idx
  omega

/-- The RENDER of a sample to come is enabled. -/
theorem SamplesToCome.stepAfter_eq {n : Nat} {s : State} (h : SamplesToCome (n + 1) s) :
    stepAfter s =
      { eventStart s (.consume :: sampleSteps n) with aud := nextSample s.cfg s.aud } := by
  have hen : renderEnabled s.aud = true := (renderEnabled_iff _).2 ⟨h.busy, h.idx_lt, h.outFull⟩
  rw [stepAfter_of_schedule h.schedule, eventAfter,
    renderStep_of_enabled (s := eventStart s (.consume :: sampleSteps n)) hen]
  rfl

theorem SamplesToCome.waiting {n : Nat} {s : State} (h : SamplesToCome (n + 1) s) :
    SampleWaiting n (stepAfter s) := by
  have hr := nextSample_rendered s.cfg s.aud
  have hidx := idx_succ_toNat h.idx_lt
  have hleft := h.idx
  rw [h.stepAfter_eq]
  refine ⟨rfl, hr.busy.trans h.busy, hr.outFull, ?_⟩
  rw [hr.idx, hr.frames, hidx]
  omega

/-- The CONSUME of the block's last sample ends the block. -/
theorem SampleWaiting.stepAfter_last {s : State} (h : SampleWaiting 0 s) :
    stepAfter s = pulseDone { eventStart s [] with
      stream := s.stream ++ [s.aud.outWord]
      aud := { s.aud with outFull := false, busy := false } } := by
  have hlast : s.aud.idx = s.aud.frames := BitVec.eq_of_toNat_eq h.idx
  rw [stepAfter_of_schedule h.schedule, eventAfter]
  exact consumeStep_of_last (s := eventStart s []) h.outFull hlast

/-- The CONSUME of an earlier sample only takes it. -/
theorem SampleWaiting.stepAfter_more {n : Nat} {s : State} (h : SampleWaiting (n + 1) s) :
    stepAfter s = { eventStart s (sampleSteps (n + 1)) with
      stream := s.stream ++ [s.aud.outWord]
      aud := { s.aud with outFull := false } } := by
  have hmore : s.aud.idx ≠ s.aud.frames := fun he => by
    have := h.idx
    rw [he] at this
    omega
  rw [stepAfter_of_schedule h.schedule, eventAfter]
  exact consumeStep_of_more (s := eventStart s (sampleSteps (n + 1))) h.outFull hmore

theorem SampleWaiting.toCome {n : Nat} {s : State} (h : SampleWaiting (n + 1) s) :
    SamplesToCome (n + 1) (stepAfter s) := by
  rw [h.stepAfter_more]
  exact ⟨rfl, h.busy, rfl, h.idx⟩

/-! ### One sample, rendered and taken -/

/-- The RENDER and CONSUME of the block's last sample. -/
theorem SamplesToCome.pair_last {s : State} (h : SamplesToCome 1 s) :
    stepAfter^[2] s = pulseDone { eventStart s [] with
      stream := s.stream ++ [(nextSample s.cfg s.aud).outWord]
      aud := { nextSample s.cfg s.aud with outFull := false, busy := false } } := by
  rw [Function.iterate_succ_apply, Function.iterate_one, h.waiting.stepAfter_last, h.stepAfter_eq]
  rfl

/-- The RENDER and CONSUME of an earlier sample. -/
theorem SamplesToCome.pair_more {n : Nat} {s : State} (h : SamplesToCome (n + 2) s) :
    stepAfter^[2] s = { eventStart s (sampleSteps (n + 1)) with
      stream := s.stream ++ [(nextSample s.cfg s.aud).outWord]
      aud := { nextSample s.cfg s.aud with outFull := false } } := by
  rw [Function.iterate_succ_apply, Function.iterate_one, h.waiting.stepAfter_more, h.stepAfter_eq]
  rfl

theorem SamplesToCome.next {n : Nat} {s : State} (h : SamplesToCome (n + 2) s) :
    SamplesToCome (n + 1) (stepAfter^[2] s) :=
  h.waiting.toCome

/-! ### The whole block -/

/-- The induction over the samples of a block: `Q n s t` speaks of a state `s` with `n` samples to
come and of the state `t` in which the block has ended. -/
theorem SamplesToCome.induction {Q : Nat → State → State → Prop}
    (hlast : ∀ s, SamplesToCome 1 s → Q 1 s (stepAfter^[2] s))
    (hmore : ∀ n s t, SamplesToCome (n + 2) s → Q (n + 1) (stepAfter^[2] s) t → Q (n + 2) s t)
    {n : Nat} {s : State} (h : SamplesToCome (n + 1) s) :
    Q (n + 1) s (stepAfter^[2 * (n + 1)] s) := by
  induction n generalizing s with
  | zero => exact hlast s h
  | succ n ih =>
    rw [show 2 * (n + 1 + 1) = 2 * (n + 1) + 2 by ring, Function.iterate_add_apply]
    exact hmore n s _ h (ih h.next)

/-- From `s` to `t` a block has put out `n` words, and `t` is the state in which it completes. -/
def CompletesWith (n : Nat) (s t : State) : Prop :=
  ∃ ws, t.stream = s.stream ++ ws ∧ ws.length = n ∧ t.aud.busy = false ∧ t.aud.outFull = false ∧
    t.ports.blkDone = true

/-- A block puts out one word per sample to come, and completes with the last of them. -/
theorem SamplesToCome.completes {n : Nat} {s : State} (h : SamplesToCome (n + 1) s) :
    CompletesWith (n + 1) s (stepAfter^[2 * (n + 1)] s) := by
  refine h.induction (fun s hs => ?_) fun n s t hs ⟨ws, hstream, hlen, hend⟩ => ?_
  · rw [hs.pair_last]
    exact ⟨_, rfl, rfl, rfl, rfl, rfl⟩
  · rw [hs.pair_more] at hstream
    exact ⟨_ :: ws, hstream.trans (List.append_assoc _ _ _), congrArg Nat.succ hlen, hend⟩

/-- Before its last step a block is not over. -/
theorem SamplesToCome.runs_on {n : Nat} {s : State} (h : SamplesToCome n s)
    (hdone : s.ports.blkDone = false) {k : Nat} (hk : k < 2 * n) :
    (stepAfter^[k] s).aud.busy = true ∧ (stepAfter^[k] s).ports.blkDone = false := by
  induction n generalizing s k with
  | zero => omega
  | succ n ih =>
    match k with
    | 0 => exact ⟨h.busy, hdone⟩
    | 1 => exact ⟨h.waiting.busy, by rw [Function.iterate_one, h.stepAfter_eq]; rfl⟩
    | k + 2 =>
      obtain ⟨n, rfl⟩ : ∃ m, n = m + 1 := Nat.exists_eq_add_one.2 (by omega)
      rw [Function.iterate_add_apply]
      exact ih h.next (by rw [h.pair_more]; rfl) (by omega)

/-- In mode ZERO every word is +0.0. -/
theorem SamplesToCome.emits_zeros {n : Nat} {s : State} (h : SamplesToCome (n + 1) s)
    (hmode : s.aud.mode = .zero) :
    (stepAfter^[2 * (n + 1)] s).stream = s.stream ++ List.replicate (n + 1) 0x00000000 := by
  refine h.induction (Q := fun n s t => s.aud.mode = .zero →
    t.stream = s.stream ++ List.replicate n 0x00000000) (fun s hs hmode => ?_)
    (fun n s t hs ih hmode => ?_) hmode
  · rw [hs.pair_last, nextSample_of_zero s.cfg hmode]
    rfl
  · rw [hs.pair_more, nextSample_of_zero s.cfg hmode] at ih
    exact (ih hmode).trans (List.append_assoc _ _ _)

/-- Amplitude and frequency of `t` are the targets of the block in progress in `s`, whose silence
flag it has. -/
def OnTargetsOf (s t : State) : Prop :=
  t.aud.curAmp = s.aud.sTamp ∧ t.aud.curFreq = s.aud.sTfreq ∧ t.aud.isSilent = s.aud.isSilent

/-- In mode RAMP the last sample leaves amplitude and frequency on the block's targets. -/
theorem SamplesToCome.ends_on_targets {n : Nat} {s : State} (h : SamplesToCome (n + 1) s)
    (hmode : s.aud.mode = .ramp) : OnTargetsOf s (stepAfter^[2 * (n + 1)] s) := by
  refine h.induction (Q := fun _ s t => s.aud.mode = .ramp → OnTargetsOf s t)
    (fun s hs hmode => ?_) (fun n s t hs ih hmode => ?_) hmode
  · have hlast : s.aud.idx + 1 = s.aud.frames := (idx_succ_eq_frames_iff hs.idx_lt).2 hs.idx
    rw [hs.pair_last, nextSample_of_ramp s.cfg hmode, renderRamp_eq]
    simp only [OnTargetsOf, pulseDone_aud, if_pos hlast, and_self]
  · obtain ⟨hkmode, hktamp, hktfreq, hksilent⟩ := nextSample_keeps_block s.cfg s.aud
    rw [hs.pair_more] at ih
    obtain ⟨hamp, hfreq, hsilent⟩ := ih (hkmode.trans hmode)
    exact ⟨hamp.trans hktamp, hfreq.trans hktfreq, hsilent.trans hksilent⟩

/-! ### The whole block, from its request -/

/-- The state in which a block of `f` frames has been accepted, with its samples scheduled. -/
def blockAccepted (f : BlkWord) (s : State) : State :=
  { eventStart s (sampleSteps f.toNat) with aud := beginBlock s.cfg f s.aud.counted }

theorem blockAccepted_toCome {f : BlkWord} {s : State} (hempty : s.aud.outFull = false) :
    SamplesToCome f.toNat (blockAccepted f s) := by
  have hb := beginBlock_begun s.cfg f s.aud.counted
  refine ⟨rfl, hb.busy, hb.outFull.trans hempty, ?_⟩
  rw [blockAccepted, hb.idx, hb.frames]
  exact Nat.zero_add _

/-- What acceptance alone makes of the render domain. -/
theorem blockAccepted_of_exec {f : BlkWord} {s u : State} (hidle : s.aud.busy = false) (hf : f ≠ 0)
    (h : exec (.blk f) s = .next u) : (blockAccepted f s).aud = u.aud := by
  rw [exec_blk_begin hidle hf] at h
  cases h
  rfl

theorem exists_toNat_eq_succ {f : BlkWord} (hf : f ≠ 0) : ∃ n, f.toNat = n + 1 :=
  Nat.exists_eq_succ_of_ne_zero fun h => hf (BitVec.eq_of_toNat_eq h)

/-- The first step of a block's run is its acceptance. -/
theorem core_run_block {f : BlkWord} {s : State} (hlegal : legalConfig s.cfg = true)
    (hidle : s.aud.busy = false) (hf : f ≠ 0) (k : Nat) :
    core.run (k + 1) { s with schedule := .blkReq f :: sampleSteps f.toNat } =
      .next (stepAfter^[k] (blockAccepted f s)) := by
  have hstep : stepAfter { s with schedule := .blkReq f :: sampleSteps f.toNat } =
      blockAccepted f s := requestBlock_begin hidle hf
  rw [← hstep]
  exact core_run_eq_iterate (s := { s with schedule := .blkReq f :: sampleSteps f.toNat }) hlegal
    (k + 1)

theorem runSchedule_block {f : BlkWord} {s : State} (hlegal : legalConfig s.cfg = true)
    (hidle : s.aud.busy = false) (hf : f ≠ 0) :
    runSchedule (.blkReq f :: sampleSteps f.toNat) s =
      .next (stepAfter^[2 * f.toNat] (blockAccepted f s)) := by
  rw [runSchedule, List.length_cons, sampleSteps_length]
  exact core_run_block hlegal hidle hf _

end Sys2Proof.Machine
end

section
/-! SUPPORT. The render engine apart from the control domain (spec/40_oscillator.md R127): a state
is cut down to what a block in progress reads and writes; what RENDER and CONSUME make of it depends
on that alone, and no other event of a block touches it. -/

namespace Sys2Proof.Machine

/-- The state as its render engine and its sink see it: the control domain, the shadows, the pulses
and the schedule are those of a machine just built. -/
def engineState (s : State) : State :=
  { State.resetWith s.cfg with aud := engineOf s.aud, stream := s.stream }

theorem engineState_congr {s t : State} (hcfg : t.cfg = s.cfg)
    (haud : engineOf t.aud = engineOf s.aud) (hstream : t.stream = s.stream) :
    engineState t = engineState s := by
  rw [engineState, engineState, hcfg, haud, hstream]

theorem engineState_eventStart (s : State) (rest : List Event) :
    engineState (eventStart s rest) = engineState s := rfl

/-- RENDER neither reads nor writes a shadow. -/
theorem nextSample_engineOf (c : Config) (a : Aud) :
    nextSample c (engineOf a) = engineOf (nextSample c a) := by
  cases hm : a.mode with
  | zero =>
    rw [nextSample_of_zero c hm, nextSample_of_zero (a := engineOf a) c hm]
    rfl
  | ramp =>
    rw [nextSample_of_ramp c hm, nextSample_of_ramp (a := engineOf a) c hm]
    simp only [renderRamp_eq, engineOf]

theorem renderStep_engineState (s : State) :
    engineState (renderStep (engineState s)) = engineState (renderStep s) := by
  cases hen : renderEnabled s.aud with
  | false => rw [renderStep_of_disabled hen, renderStep_of_disabled (s := engineState s) hen]; rfl
  | true =>
    rw [renderStep_of_enabled hen, renderStep_of_enabled (s := engineState s) hen]
    exact engineState_congr rfl (congrArg engineOf (nextSample_engineOf s.cfg s.aud) :) rfl

theorem consumeStep_engineState (s : State) :
    engineState (consumeStep (engineState s)) = engineState (consumeStep s) := by
  rcases consumeStep_cases s with ⟨hf, h⟩ | ⟨hf, hi, h⟩ | ⟨hf, hi, h⟩ <;> rw [h]
  · rw [consumeStep_of_empty (s := engineState s) hf]; rfl
  · rw [consumeStep_of_last (s := engineState s) hf hi]; rfl
  · rw [consumeStep_of_more (s := engineState s) hf hi]; rfl

/-- What RENDER and CONSUME make of the engine depends on the engine alone. -/
theorem engineState_sampleStep {e : Event} (he : isSampleStep e = true) {s t : State}
    (h : engineState s = engineState t) :
    engineState (eventAfter e s) = engineState (eventAfter e t) := by
  cases e with
  | render =>
    rw [eventAfter, eventAfter, ← renderStep_engineState s, h, renderStep_engineState]
  | consume =>
    rw [eventAfter, eventAfter, ← consumeStep_engineState s, h, consumeStep_engineState]
  | _ => cases he

@[simp] theorem cycleAfter_cfg (x : Option Word) (w : Option BusWord) (s : State) :
    (cycleAfter x w s).cfg = s.cfg :=
  eventAfter_cfg (.ctl x w) s

@[simp] theorem cycleAfter_stream (x : Option Word) (w : Option BusWord) (s : State) :
    (cycleAfter x w s).stream = s.stream :=
  cycleAfter_keeps (P := fun t => t.stream = s.stream)
    (fun _ _ _ h => (after_stream _ _).trans h) (fun _ _ h => h) x w rfl

/-- No other event touches a block in progress. -/
theorem engineState_otherStep {e : Event} (hkeep : keepsBlock e = true)
    (he : isSampleStep e = false) (s : State) : engineState (eventAfter e s) = engineState s := by
  cases e with
  | ctl x w =>
    exact engineState_congr (cycleAfter_cfg x w s) (congrArg engineOf (cycleAfter_aud x w s))
      (cycleAfter_stream x w s)
  | copy f => cases f <;> rfl
  | ack f => cases f <;> rfl
  | copyBlk => rfl
  | copySilent => rfl
  | render => cases he
  | consume => cases he
  | blkReq w => cases hkeep
  | reset => cases hkeep

/-- The engine at the end of a run is that of the run of its RENDER and CONSUME events alone. -/
theorem engineState_runAfter {es : List Event} (hkeep : ∀ e ∈ es, keepsBlock e = true)
    {s t : State} (h : engineState s = engineState t) :
    engineState (runAfter es s) = engineState (runAfter (es.filter isSampleStep) t) := by
  induction es generalizing s t with
  | nil => exact h
  | cons e es ih =>
    rw [List.forall_mem_cons] at hkeep
    obtain ⟨hke, hkes⟩ := hkeep
    cases he : isSampleStep e with
    | true =>
      rw [List.filter_cons_of_pos he]
      exact ih hkes (engineState_sampleStep he (by simpa only [engineState_eventStart] using h))
    | false =>
      rw [List.filter_cons_of_neg (by simp [he])]
      exact ih hkes ((engineState_otherStep hke he _).trans h)

/-- A run that ends has ended in the state after its events. -/
theorem runSchedule_next {es : List Event} {s t : State} (h : runSchedule es s = .next t) :
    t = runAfter es s := by
  cases es with
  | nil => exact (Host.Outcome.next.inj h).symm
  | cons e es =>
    by_cases hlegal : legalConfig s.cfg = true
    · rw [runSchedule_eq_runAfter hlegal] at h
      exact (Host.Outcome.next.inj h).symm
    · have hstep : core.step { s with schedule := e :: es } = .refused .illegalConfiguration :=
        (step_refused_iff { s with schedule := e :: es }).2 hlegal
      simp only [runSchedule, List.length_cons, Host.Core.run, hstep] at h
      cases h

end Sys2Proof.Machine
end

section
/-! SUPPORT. The arithmetic of an oscillator sample: the table index (spec/40_oscillator.md R116),
the phase under P_phase (R123), the amplitude of a steady block (R129). -/

namespace Sys2Proof.Machine

/-! ### The table index -/

theorem floorOf_eq_floor (neg : Bool) (num den : Nat) :
    floorOf neg num den = ⌊(if neg then -1 else 1 : ℚ) * num / den⌋ := by
  have hsigned : (if neg then -1 else 1 : ℚ) * num = (signed neg num : Int) := by
    cases neg <;> simp [signed]
  rw [hsigned, Rat.floor_intCast_div_natCast, floorOf]

theorem floorModN_of_fin {p : DWord} {neg : Bool} {num den : Nat} (c : Config)
    (h : unpack64 p = .fin neg num den) :
    (floorModN c p : Int) = floorOf neg num den % 2 ^ c.tableLog2 := by
  have hpos : (0 : Int) < 2 ^ c.tableLog2 := by positivity
  simp only [floorModN, h, tableSize, Nat.cast_pow, Nat.cast_ofNat]
  exact Int.toNat_of_nonneg (Int.emod_nonneg _ hpos.ne')

theorem floorModN_of_not_fin {p : DWord} (c : Config)
    (h : ∀ neg num den, unpack64 p ≠ .fin neg num den) : floorModN c p = 0 := by
  cases hu : unpack64 p with
  | nan => simp only [floorModN, hu]
  | inf neg => simp only [floorModN, hu]
  | fin neg num den => exact absurd hu (h neg num den)

/-! ### Binary64 numbers from zero up -/

/-- A binary64 pattern of the value `q` smallest subnormals; a zero of either sign has `q = 0`. -/
def IsQuanta64 (x : DWord) (q : Nat) : Prop :=
  ∃ neg, unpack64 x = .fin neg q (2 ^ binary64.quantumLog) ∧ (neg = true → q = 0)

/-- A number that is not negative, rounded, does not pass a finite pattern it is at most. -/
theorem isQuanta64_pack64 {neg : Bool} {num den p : Nat} (hd : 0 < den)
    (hneg : neg = true → num = 0) (hp : p < binary64.infBits)
    (hle : num * 2 ^ binary64.quantumLog ≤ den * binary64.quanta p) :
    ∃ q ≤ binary64.quanta p, IsQuanta64 (pack64 (.fin neg num den)) q := by
  have hround := binary64.roundMag_le_of_le binary64_fracBits_pos hd hle
  refine ⟨binary64.quanta (binary64.roundMag (num * 2 ^ binary64.quantumLog) den),
    binary64.quanta_strictMono.monotone hround, neg, ?_, fun hn => ?_⟩
  · rw [unpack64_pack64, binary64.pack_fin,
      binary64.unpack_withSign neg (binary64.roundMag_lt_signBit _ _), if_pos (hround.trans_lt hp)]
  · have hzero : binary64.roundMag (num * 2 ^ binary64.quantumLog) den ≤ 0 := by
      refine binary64.roundMag_le_of_le binary64_fracBits_pos hd ?_
      rw [hneg hn, Nat.zero_mul]
      exact Nat.zero_le _
    rw [Nat.le_zero.1 hzero]
    rfl

/-- So does the sum of two binary64 numbers where it is not negative: it is a whole number of quanta
over the common denominator, with any sign if it is zero. -/
theorem isQuanta64_pack64_sum {sign : Bool} {z : Int} {k p : Nat}
    (hz : z = (k * 2 ^ binary64.quantumLog : Nat)) (hp : p < binary64.infBits)
    (hle : k ≤ binary64.quanta p) :
    ∃ q ≤ binary64.quanta p, IsQuanta64 (pack64 (.fin (if z = 0 then sign else z < 0) z.natAbs
      (2 ^ binary64.quantumLog * 2 ^ binary64.quantumLog))) q := by
  refine isQuanta64_pack64 (by positivity) (fun hneg => ?_) hp ?_
  · split_ifs at hneg with hzero
    · exact Int.natAbs_eq_zero.2 hzero
    · rw [decide_eq_true_eq] at hneg
      omega
  · rw [hz, Int.natAbs_natCast, Nat.mul_assoc, Nat.mul_comm k]
    exact Nat.mul_le_mul_left _ hle

theorem signed_of_zero {neg : Bool} {q : Nat} (k : Nat) (h : neg = true → q = 0) :
    signed neg (q * k) = (q * k : Nat) := by
  cases neg with
  | false => rfl
  | true => simp [h rfl, signed]

theorem IsQuanta64.add {x y : DWord} {q r p : Nat} (hx : IsQuanta64 x q) (hy : IsQuanta64 y r)
    (hp : p < binary64.infBits) (hle : q + r ≤ binary64.quanta p) :
    ∃ z ≤ binary64.quanta p, IsQuanta64 (f64Add x y) z := by
  obtain ⟨s, hux, hs⟩ := hx
  obtain ⟨t, huy, ht⟩ := hy
  rw [f64Add, hux, huy]
  simp only [FP.add, signed_of_zero _ hs, signed_of_zero _ ht]
  exact isQuanta64_pack64_sum (by rw [Nat.add_mul, Nat.cast_add]) hp hle

theorem signed_not (neg : Bool) (n : Nat) : signed (!neg) n = -signed neg n := by
  cases neg <;> simp [signed]

theorem IsQuanta64.sub {x y : DWord} {q r p : Nat} (hx : IsQuanta64 x q) (hy : IsQuanta64 y r)
    (hrq : r ≤ q) (hp : p < binary64.infBits) (hle : q - r ≤ binary64.quanta p) :
    ∃ z ≤ binary64.quanta p, IsQuanta64 (f64Sub x y) z := by
  obtain ⟨s, hux, hs⟩ := hx
  obtain ⟨t, huy, ht⟩ := hy
  have hmul := Nat.mul_le_mul_right (2 ^ binary64.quantumLog) hrq
  rw [f64Sub, hux, huy]
  simp only [FP.sub, FP.neg, FP.add, signed_not, signed_of_zero _ hs, signed_of_zero _ ht]
  exact isQuanta64_pack64_sum (by rw [Nat.sub_mul, Nat.cast_sub hmul, sub_eq_add_neg]) hp hle

theorem IsQuanta64.f64Ge_eq {x y : DWord} {q r : Nat} (hx : IsQuanta64 x q)
    (hy : IsQuanta64 y r) : f64Ge x y = decide (r ≤ q) := by
  obtain ⟨s, hux, hs⟩ := hx
  obtain ⟨t, huy, ht⟩ := hy
  have hpos : 0 < 2 ^ binary64.quantumLog := by positivity
  simp only [f64Ge, hux, huy, FP.le, signed_of_zero _ hs, signed_of_zero _ ht, Nat.cast_le,
    Nat.mul_le_mul_right_iff hpos]

theorem isQuanta64_uToF64 {n : Nat} (h : n < 2 ^ 53) :
    IsQuanta64 (uToF64 n) (n * 2 ^ binary64.quantumLog) := by
  refine ⟨false, ?_, fun hneg => absurd hneg Bool.false_ne_true⟩
  rw [uToF64, unpack64_pack64]
  exact binary64.unpack_pack_natCast (by decide) (by decide) (by decide) h

/-- A number that is at least zero has a sign only if it is zero. -/
theorem FP.eq_zero_of_zero_le {t neg : Bool} {n d e : Nat} (hd : 0 < d)
    (h : FP.le (.fin t 0 d) (.fin neg n e) = true) (hneg : neg = true) : n = 0 := by
  have hle : 0 ≤ signed neg (n * d) := by simpa [FP.le, signed] using h
  have hzero : n * d = 0 := by
    simp only [signed, hneg, if_true] at hle
    omega
  exact (Nat.mul_eq_zero.1 hzero).resolve_right hd.ne'

/-- What is at least zero is a number from zero up, or the infinity above all of them. -/
theorem isQuanta64_or_inf_of_nonneg {x : DWord} (h : f64Ge x (uToF64 0) = true) :
    (∃ q, IsQuanta64 x q) ∨ unpack64 x = .inf false := by
  obtain ⟨t, hu0, ht⟩ := isQuanta64_uToF64 (n := 0) (by decide)
  rw [f64Ge, hu0, Nat.zero_mul] at h
  rcases binary64.unpack_cases x.toNat with ⟨_, hu⟩ | ⟨_, hu⟩ | ⟨_, hu⟩ <;> rw [unpack64, hu] at h
  · exact .inl ⟨_, _, hu, FP.eq_zero_of_zero_le (by positivity) h⟩
  · simp only [FP.le, Bool.not_eq_true'] at h
    exact .inr (hu.trans (congrArg FP.inf h))
  · cases h

theorem IsQuanta64.f64Ge_of_inf {x y : DWord} {r : Nat} (hy : IsQuanta64 y r)
    (hx : unpack64 x = .inf false) : f64Ge x y = true ∧ f64Ge y x = false := by
  obtain ⟨t, huy, _⟩ := hy
  simp [f64Ge, hx, huy, FP.le]

/-! ### The phase -/

theorem tableSize_lt {c : Config} (h : legalConfig c = true) : tableSize c < 2 ^ 53 := by
  obtain ⟨_, hle, _⟩ := (legalConfig_iff c).1 h
  exact Nat.pow_lt_pow_right (by decide) (by omega)

/-- The phase lies in the table exactly if it is a number of quanta below `N`'s. -/
theorem phaseInTable_iff {c : Config} (hlegal : legalConfig c = true) (p : DWord) :
    PhaseInTable c p ↔ ∃ q < tableSize c * 2 ^ binary64.quantumLog, IsQuanta64 p q := by
  have hn := isQuanta64_uToF64 (tableSize_lt hlegal)
  constructor
  · rintro ⟨hnonneg, hbelow⟩
    rcases isQuanta64_or_inf_of_nonneg hnonneg with ⟨q, hq⟩ | hinf
    · rw [hq.f64Ge_eq hn, decide_eq_false_iff_not, Nat.not_le] at hbelow
      exact ⟨q, hbelow, hq⟩
    · rw [(hn.f64Ge_of_inf hinf).1] at hbelow
      cases hbelow
  · rintro ⟨q, hlt, hq⟩
    have hzero := isQuanta64_uToF64 (n := 0) (by decide)
    rw [PhaseInTable, hq.f64Ge_eq hzero, hq.f64Ge_eq hn]
    simp [hlt]

/-- Under P_phase the increment is a number of at most `N / 2`. -/
theorem IncrementBounded.exists_quanta {c : Config} {cf : Word} (h : IncrementBounded c cf)
    (hlegal : legalConfig c = true) :
    ∃ q ≤ tableSize c / 2 * 2 ^ binary64.quantumLog,
      IsQuanta64 (f64Mul (f32ToF64 cf) (incrementK c)) q := by
  obtain ⟨hnonneg, hhalf⟩ := h
  have hn := isQuanta64_uToF64 ((Nat.div_le_self _ 2).trans_lt (tableSize_lt hlegal))
  rcases isQuanta64_or_inf_of_nonneg hnonneg with ⟨q, hq⟩ | hinf
  · rw [hn.f64Ge_eq hq, decide_eq_true_eq] at hhalf
    exact ⟨q, hhalf, hq⟩
  · rw [(hn.f64Ge_of_inf hinf).2] at hhalf
    cases hhalf

/-- A small multiple of half a table size is a binary64 number. -/
theorem exists_quanta64_half {c : Config} (hlegal : legalConfig c = true) {k : Nat}
    (hk : k < 2 ^ 53) :
    ∃ p < binary64.infBits,
      binary64.quanta p = k * (tableSize c / 2 * 2 ^ binary64.quantumLog) := by
  obtain ⟨hpos, hle, _⟩ := (legalConfig_iff c).1 hlegal
  obtain ⟨p, hp, hval⟩ := binary64.exists_finite_quanta_eq (by decide) (sig := k)
    (k := c.tableLog2 - 1 + binary64.quantumLog) hk
    (show c.tableLog2 - 1 + binary64.quantumLog + 1 ≤ 2046 by rw [binary64_quantumLog]; omega)
  refine ⟨p, hp, hval.trans ?_⟩
  rw [pow_add, tableSize, Nat.pow_div hpos (by decide)]

/-- Two halves make the table. -/
theorem tableSize_eq_half {c : Config} (hlegal : legalConfig c = true) (k : Nat) :
    tableSize c * k = 2 * (tableSize c / 2 * k) := by
  obtain ⟨hpos, _⟩ := (legalConfig_iff c).1 hlegal
  have heven : 2 ∣ tableSize c := dvd_pow_self 2 (by omega)
  rw [← Nat.mul_assoc, Nat.mul_div_cancel' heven]

/-- The sum is at most one and a half tables, and what one subtraction leaves of it at most half a
one: both bounds are binary64 numbers, so rounding does not pass them. -/
theorem phaseInTable_advancePhase {c : Config} (hlegal : legalConfig c = true) {p : DWord}
    {cf : Word} (hphase : PhaseInTable c p) (hinc : IncrementBounded c cf) :
    PhaseInTable c (advancePhase c p cf) := by
  have hn := isQuanta64_uToF64 (tableSize_lt hlegal)
  obtain ⟨q, hq, hpq⟩ := (phaseInTable_iff hlegal p).1 hphase
  obtain ⟨r, hr, hdr⟩ := hinc.exists_quanta hlegal
  obtain ⟨p3, hp3, hval3⟩ := exists_quanta64_half hlegal (k := 3) (by decide)
  obtain ⟨p1, hp1, hval1⟩ := exists_quanta64_half hlegal (k := 1) (by decide)
  have hsize := tableSize_eq_half hlegal (2 ^ binary64.quantumLog)
  obtain ⟨z, hz, hsum⟩ := hpq.add hdr hp3 (by omega)
  rw [phaseInTable_iff hlegal, advancePhase, hsum.f64Ge_eq hn]
  simp only [decide_eq_true_eq]
  split_ifs with hwrap
  · obtain ⟨y, hy, hdiff⟩ := hsum.sub hn hwrap hp1 (by omega)
    exact ⟨y, by omega, hdiff⟩
  · exact ⟨z, by omega, hsum⟩

/-! ### A steady amplitude -/

theorem unpack32_zero : unpack32 0 = .fin false 0 (2 ^ binary32.quantumLog) := by decide +kernel

theorem pack32_zero {d : Nat} (hd : 0 < d) : pack32 (.fin false 0 d) = 0 := by
  have hround : binary32.roundMag 0 d = 0 :=
    Nat.le_zero.1 (binary32.roundMag_le_of_le binary32_fracBits_pos hd (Nat.zero_le _))
  rw [pack32, binary32.pack_fin, Nat.zero_mul, hround]
  rfl

/-- A finite nonzero value, by the pattern it is packed in. -/
theorem FiniteNonzero.exists_quanta {a : Word} (h : FiniteNonzero a) :
    ∃ neg p, 0 < binary32.quanta p ∧
      unpack32 a = .fin neg (binary32.quanta p) (2 ^ binary32.quantumLog) := by
  obtain ⟨neg, n, d, hu, hn⟩ := h
  rcases unpack32_cases a with ⟨neg', p, _, hu'⟩ | ⟨_, hu'⟩ | hu' <;> rw [hu'] at hu <;> cases hu
  exact ⟨_, p, Nat.pos_of_ne_zero hn, hu'⟩

/-- A finite value less itself is +0.0. -/
theorem f32Sub_self {a : Word} (h : FiniteNonzero a) : f32Sub a a = 0 := by
  obtain ⟨neg, p, _, hu⟩ := h.exists_quanta
  rw [f32Sub, hu]
  simp only [FP.sub, FP.neg, FP.add, signed_not, add_neg_cancel, if_true, Int.natAbs_zero,
    Bool.and_not_self]
  exact pack32_zero (by positivity)

/-- +0.0 over a count of frames is +0.0. -/
theorem f32Div_zero {n : Nat} (hpos : 0 < n) (h : n < 2 ^ 24) : f32Div 0 (uToF32 n) = 0 := by
  have hu : unpack32 (uToF32 n) =
      .fin false (n * 2 ^ binary32.quantumLog) (2 ^ binary32.quantumLog) := by
    rw [uToF32, unpack32_pack32]
    exact binary32.unpack_pack_natCast (by decide) (by decide) (by decide) h
  have hn : n * 2 ^ binary32.quantumLog ≠ 0 := by positivity
  rw [f32Div, hu, unpack32_zero]
  simp only [FP.div, hn, if_false, Nat.zero_mul, bne_self_eq_false]
  exact pack32_zero (by positivity)

/-- A nonzero number plus +0.0 is the same fraction, scaled. -/
theorem FP.add_fin_zero (neg : Bool) {n d e : Nat} (hn : 0 < n) (he : 0 < e) :
    FP.add (.fin neg n d) (.fin false 0 e) = .fin neg (n * e) (d * e) := by
  have hpos : 0 < n * e := Nat.mul_pos hn he
  have hz : signed neg (n * e) + signed false (0 * d) = signed neg (n * e) := by simp [signed]
  simp only [FP.add, hz]
  generalize n * e = k at hpos
  cases neg
  · simp [signed]
  · simp [signed]
    omega

/-- A finite nonzero value plus +0.0 is the value itself. -/
theorem f32Add_zero {a : Word} (h : FiniteNonzero a) : f32Add a 0 = a := by
  obtain ⟨neg, p, hpos, hu⟩ := h.exists_quanta
  have hpack (k : Nat) (hk : 0 < k) :
      binary32.pack (.fin neg (binary32.quanta p * k) (2 ^ binary32.quantumLog * k)) =
        binary32.withSign neg (min p binary32.infBits) := by
    rw [binary32.pack_fin, binary32.roundMag_exact binary32_fracBits_pos (by positivity) (by ring)]
  have hne : ¬ IsNaN32 a := by simp [IsNaN32, hu]
  calc f32Add a 0 = pack32 (unpack32 a) := by
        rw [f32Add, unpack32_zero, hu, FP.add_fin_zero neg hpos (by positivity), pack32, pack32,
          hpack _ (by positivity), ← hpack 1 Nat.one_pos, Nat.mul_one, Nat.mul_one]
    _ = a := conversionsAreExact.1 a hne

/-- A block accepted at its target, above EPS, ramps with an amplitude step of +0.0. -/
theorem steadyBlock_begins {c : Config} {f : BlkWord} {a : Aud} (hf : f ≠ 0)
    (hrun : runOf a.rRunstate = true) (hepoch : epochOf a.rRunstate = a.seenEpoch)
    (hamp : a.curAmp = a.rTamp) (hfin : FiniteNonzero a.rTamp)
    (hloud : f32Le a.rTamp c.eps = false) :
    (beginBlock c f a).mode = .ramp ∧ (beginBlock c f a).ampStep = 0 ∧
      (beginBlock c f a).curAmp = a.rTamp := by
  have hpos : 0 < f.toNat := by bv_omega
  have hb : beginBlock c f a = rampBlock (snapshotBlock f a) := by
    rw [beginBlock_of_loud f hrun (by simp [hloud])]
    exact congrArg rampBlock (if_pos hepoch)
  rw [hb]
  refine ⟨rfl, ?_, hamp⟩
  change f32Div (f32Sub a.rTamp a.curAmp) (uToF32 f.toNat) = 0
  rw [hamp, f32Sub_self hfin, f32Div_zero hpos (by have := f.isLt; omega)]

/-- A sample of a steady ramp keeps the amplitude and uses it. -/
theorem steadySample {c : Config} {a : Aud} (hstep : a.ampStep = 0) (hamp : a.curAmp = a.sTamp)
    (hfin : FiniteNonzero a.sTamp) :
    (renderRamp c a).curAmp = a.sTamp ∧ (renderRamp c a).sTamp = a.sTamp ∧
      (renderRamp c a).outWord =
        f32Mul (f32Mul (tableRead c (floorModN c a.phase)) a.sTamp) a.sGain := by
  simp only [renderRamp_eq, hstep, hamp, f32Add_zero hfin, ite_self, outputSample, and_self]

end Sys2Proof.Machine
end

section
/-! The obligations of spec/40_oscillator.md: acceptance, samples, the whole block, its
independence, the arithmetic of a sample. -/

namespace Sys2Proof.Machine

/-! ### Acceptance -/

/-- Settles O32: with the run bit clear only the sequencer and the snapshot are set. -/
theorem blockWhileStopped : Obligations.BlockWhileStopped := by
  intro f s hidle hf hrun
  rw [exec_blk_begin hidle hf, beginBlock_of_stopped (a := s.aud.counted) _ _ hrun]
  rfl

/-- Settles O33: the fast path after the oscillator went on or started fresh. -/
theorem silentBlock : Obligations.SilentBlock := by
  intro f s hidle hf hrun epoch amp htarget hamp
  rw [exec_blk_begin hidle hf, beginBlock_of_silent (a := s.aud.counted) f hrun htarget hamp,
    freshOscillator_eq]
  rfl

/-- Settles O34: the ramp set-up after the oscillator went on or started fresh. (The name
`rampBlock` is the model's operation.) -/
theorem rampBlock_holds : Obligations.RampBlock := by
  intro f s hidle hf hrun epoch amp freq hloud
  rw [exec_blk_begin hidle hf, beginBlock_of_loud (a := s.aud.counted) f hrun hloud,
    freshOscillator_eq]
  rfl

/-! ### Samples -/

/-- Settles O35: the event is RENDER, and RENDER in mode ZERO is `renderZero`. -/
theorem renderZeroSample : Obligations.RenderZeroSample := by
  intro s rest hlegal hsched hbusy hmode hidx hempty
  have hen : renderEnabled s.aud = true := (renderEnabled_iff _).2 ⟨hbusy, hidx, hempty⟩
  rw [step_of_schedule hlegal hsched, eventAfter,
    renderStep_of_zero (s := eventStart s rest) hen hmode]
  rfl

/-- Settles O36: RENDER in mode RAMP is `renderRamp`, and its test for the last sample, made on the
index after the sample, is one on numbers because that index has not wrapped. -/
theorem renderRampSample : Obligations.RenderRampSample := by
  intro s rest hlegal hsched hbusy hmode hidx hempty ca cf raw p n last
  have hen : renderEnabled s.aud = true := (renderEnabled_iff _).2 ⟨hbusy, hidx, hempty⟩
  have hlast : last = true ↔ s.aud.idx + 1 = s.aud.frames :=
    beq_iff_eq.trans (idx_succ_eq_frames_iff hidx).symm
  rw [step_of_schedule hlegal hsched, eventAfter,
    renderStep_of_ramp (s := eventStart s rest) hen hmode, renderRamp_eq]
  simp only [hlast]
  rfl

/-- Settles O37: the two ways a waiting sample is taken. -/
theorem consumeSample : Obligations.ConsumeSample := by
  intro s rest hlegal hsched hfull
  rw [step_of_schedule hlegal hsched, eventAfter]
  refine ⟨fun hlast => ?_, fun hmore => ?_⟩
  · rw [consumeStep_of_last (s := eventStart s rest) hfull hlast]
    rfl
  · rw [consumeStep_of_more (s := eventStart s rest) hfull hmore]
    rfl

/-! ### The whole block -/

/-- Settles O39: acceptance leaves F samples to come, and these are emitted pair by pair. -/
theorem blockEmitsExactlyItsFrames : Obligations.BlockEmitsExactlyItsFrames := by
  intro f s hlegal hidle hempty hf
  have hcome := blockAccepted_toCome (f := f) hempty
  refine ⟨?_, fun k hk => ⟨_, core_run_block hlegal hidle hf k, hcome.runs_on rfl hk⟩⟩
  obtain ⟨n, hn⟩ := exists_toNat_eq_succ hf
  rw [runSchedule_block hlegal hidle hf]
  rw [hn] at hcome ⊢
  obtain ⟨ws, hemits⟩ := hcome.completes
  exact ⟨_, ws, rfl, hemits⟩

/-- Settles O40: either cause makes acceptance choose mode ZERO, whose every sample is +0.0. -/
theorem silentAndStoppedBlocksEmitPlusZero : Obligations.SilentAndStoppedBlocksEmitPlusZero := by
  intro f s hlegal hidle hempty hf hzero
  have hmode : (blockAccepted f s).aud.mode = .zero := by
    cases hrun : runOf s.aud.rRunstate with
    | false => exact congrArg Aud.mode (beginBlock_of_stopped (a := s.aud.counted) s.cfg f hrun)
    | true =>
      obtain ⟨htarget, hamp⟩ := hzero.resolve_left (ne_false_of_eq_true hrun)
      exact congrArg Aud.mode (beginBlock_of_silent (a := s.aud.counted) f hrun htarget hamp)
  obtain ⟨n, hn⟩ := exists_toNat_eq_succ hf
  refine ⟨_, runSchedule_block hlegal hidle hf, ?_⟩
  have hcome := blockAccepted_toCome (f := f) hempty
  rw [hn] at hcome ⊢
  exact hcome.emits_zeros hmode

/-- Settles O41: the targets are the shadows at acceptance, no sample changes them, and the last one
snaps to them. -/
theorem rampBlockEndsOnItsTargets : Obligations.RampBlockEndsOnItsTargets := by
  intro f s u hlegal hidle hempty hf haccept hmode
  rw [← blockAccepted_of_exec hidle hf haccept] at hmode
  have hb : Begun f s.aud.counted (blockAccepted f s).aud := beginBlock_begun s.cfg f s.aud.counted
  have hcome := blockAccepted_toCome (f := f) hempty
  obtain ⟨n, hn⟩ := exists_toNat_eq_succ hf
  refine ⟨_, runSchedule_block hlegal hidle hf, ?_⟩
  rw [hn] at hcome ⊢
  obtain ⟨hamp, hfreq, hsilent⟩ := hcome.ends_on_targets hmode
  exact ⟨hamp.trans hb.sTamp, hfreq.trans hb.sTfreq, hsilent.trans (isSilent_of_ramp hmode)⟩

/-- Settles O50: both runs leave the engine as their common RENDER and CONSUME events make it. -/
theorem blockIsIndependentOfTheControlDomain :
    Obligations.BlockIsIndependentOfTheControlDomain := by
  intro es fs s t s' t' hcfg haud hstream hes hfs hsame hs' ht'
  obtain rfl := runSchedule_next hs'
  obtain rfl := runSchedule_next ht'
  have hst : engineState s = engineState t := engineState_congr hcfg haud hstream
  have hend : engineState (runAfter es s) = engineState (runAfter fs t) := by
    rw [engineState_runAfter hes hst, hsame, ← engineState_runAfter hfs rfl]
  exact ⟨(congrArg State.aud hend :), (congrArg State.stream hend :)⟩

/-! ### The arithmetic of a sample -/

/-- Settles O44: the integer quotient of the model is the floor of the rational value. -/
theorem tableIndexIsFloorModN : Obligations.TableIndexIsFloorModN := by
  intro c p
  refine ⟨floorModN_lt c p, fun neg num den h => ?_, floorModN_of_not_fin c⟩
  rw [floorModN_of_fin c h, floorOf_eq_floor]

/-- Settles O43: the step advances the phase by the increment that P_phase bounds. -/
theorem phaseStaysInTheTable : Obligations.PhaseStaysInTheTable := by
  intro s t rest hsched hen hmode hphase hinc hstep
  obtain ⟨hlegal, rfl⟩ := step_next_iff.1 hstep
  simp only [stepAfter_ramp hsched hen hmode, renderRamp_eq, eventStart_cfg]
  exact phaseInTable_advancePhase hlegal hphase hinc

/-- Settles O42: a finite value less itself is +0.0, so is that over F, and adding it changes
nothing. -/
theorem steadyBlockKeepsItsAmplitude : Obligations.SteadyBlockKeepsItsAmplitude := by
  refine ⟨fun f s t hidle hf hrun hepoch hamp hfin hloud hexec => ?_,
    fun s t rest hsched hen hmode hstep hamp hfin hnext => ?_⟩
  · rw [exec_blk_begin hidle hf] at hexec
    cases hexec
    obtain ⟨hmode, hstep, hcur⟩ :=
      steadyBlock_begins (a := s.aud.counted) hf hrun hepoch hamp hfin hloud
    exact ⟨hmode, hstep, hcur.trans (beginBlock_begun s.cfg f s.aud.counted).sTamp.symm⟩
  · obtain ⟨_, rfl⟩ := step_next_iff.1 hnext
    rw [stepAfter_ramp hsched hen hmode]
    obtain ⟨hcur, htamp, hword⟩ := steadySample (c := s.cfg) hstep hamp hfin
    exact ⟨hcur.trans htamp.symm, hword⟩

end Sys2Proof.Machine
end

section
/-! SUPPORT. The command word of spec/41_param_channel.md R148 to R152 under a mask, each command as
an equation per case, and the reads and writes at the addresses no other register has. -/

namespace Sys2Proof.Machine

/-! ### The command bits of a masked word -/

@[simp] theorem cmdStart_and (d m : Word) : cmdStart (d &&& m) = (cmdStart d && cmdStart m) :=
  BitVec.getLsbD_and

@[simp] theorem cmdStop_and (d m : Word) : cmdStop (d &&& m) = (cmdStop d && cmdStop m) :=
  BitVec.getLsbD_and

@[simp] theorem cmdSnap_and (d m : Word) : cmdSnap (d &&& m) = (cmdSnap d && cmdSnap m) :=
  BitVec.getLsbD_and

/-! ### START and STOP -/

theorem startEngine_of_running {s : State} (h : s.ctl.run = true) : startEngine s = s := by
  simp only [startEngine, h, if_true]

theorem startEngine_of_stopped {s : State} (h : s.ctl.run = false) :
    startEngine s =
      { s with ctl := { s.ctl with
        run := true, epoch := s.ctl.epoch + 1, syncRunstate := Sync.written,
        stillCount := 0, smoothed := 0 } } := by
  rcases startEngine_cases s with ⟨hrun, _⟩ | ⟨_, heq⟩
  · exact absurd hrun (ne_true_of_eq_false h)
  · exact heq

theorem stopEngine_of_stopped {s : State} (h : s.ctl.run = false) : stopEngine s = s := by
  simp [stopEngine, h]

theorem stopEngine_of_running {s : State} (h : s.ctl.run = true) :
    stopEngine s =
      { s with ctl := { s.ctl with run := false, syncRunstate := Sync.written } } := by
  rcases stopEngine_cases s with ⟨hstopped, _⟩ | ⟨_, heq⟩
  · exact absurd h (ne_true_of_eq_false hstopped)
  · exact heq

/-! ### The effect of a command word, by its bits -/

/-- A CMD write is the effect of its command word. -/
theorem exec_wrCmd (d : Word) (s : State) : exec (.wrCmd d) s = .next (commandEffect d s) :=
  exec_eq_after _ _

theorem commandEffect_of_stop {d : Word} (hstop : cmdStop d = true) (hsnap : cmdSnap d = false)
    (s : State) : commandEffect d s = stopEngine s := by
  simp [commandEffect, hstop, hsnap]

theorem commandEffect_of_start {d : Word} (hstart : cmdStart d = true) (hstop : cmdStop d = false)
    (hsnap : cmdSnap d = false) (s : State) : commandEffect d s = startEngine s := by
  simp [commandEffect, hstart, hstop, hsnap]

/-- Under STOP the START bit is not looked at. -/
theorem commandEffect_stop_congr {d e : Word} (hd : cmdStop d = true) (he : cmdStop e = true)
    (hsnap : cmdSnap d = cmdSnap e) (s : State) : commandEffect d s = commandEffect e s := by
  simp only [commandEffect, hd, he, hsnap, if_true]

/-- SNAP comes after what the same word does with its other bits. -/
theorem commandEffect_of_snap {d e : Word} (hd : cmdSnap d = true) (he : cmdSnap e = false)
    (hstart : cmdStart d = cmdStart e) (hstop : cmdStop d = cmdStop e) (s : State) :
    commandEffect d s = snapCounters (commandEffect e s) := by
  simp [commandEffect, hd, he, hstart, hstop]

/-- SNAP alone (R151). -/
theorem commandEffect_snap (s : State) : commandEffect 0x4 s = snapCounters s := rfl

/-- A word without a bit does nothing (R152). -/
theorem commandEffect_zero (s : State) : commandEffect 0 s = s := rfl

/-- Bits 31..3 do not count (R152). -/
theorem commandEffect_and_seven (d : Word) (s : State) :
    commandEffect (d &&& 0x7) s = commandEffect d s := by
  have hmask : cmdStart 0x7 = true ∧ cmdStop 0x7 = true ∧ cmdSnap 0x7 = true := by decide
  obtain ⟨hstart, hstop, hsnap⟩ := hmask
  apply commandEffect_bits <;> simp only [cmdStart_and, cmdStop_and, cmdSnap_and, *, Bool.and_true]

/-! ### Reserved and ignored addresses -/

/-- A reserved address reads 0, whatever D is (R162). -/
theorem readsAs_reserved {a : RegAddr} (h : 0x0D ≤ a.toNat) :
    ReadsAs a (.rdReserved a) (fun _ => 0) :=
  readsAs_of_readValue (decodeRead_reserved (decide_eq_true h)) fun _ => rfl

/-- A write to an address that takes none changes nothing (R163). -/
theorem writesAs_ignored {a : RegAddr} (h : RegAddr.isWritable a = false) :
    WritesAs a (.wrIgnored a) (fun _ s => s) :=
  writesAs_of_after (decodeWrite_ignored h) fun _ _ => rfl

/-! ### The configuration in its registers -/

theorem configWord_default : configWord Config.default = 0x0032000C := by decide

theorem sampleRateWord_default : sampleRateWord Config.default = 0x0000BB80 := by decide

/-- The ranges of 00_scope.md R8 fit the fields of CONFIG and SAMPLE_RATE. -/
theorem legalConfig_fits_fields {c : Config} (h : legalConfig c = true) :
    c.t < 2 ^ 16 ∧ c.tableLog2 < 2 ^ 5 ∧ c.fs < 2 ^ 24 := by
  obtain ⟨_, hlog2, _, hfs, _, ht, _⟩ := (legalConfig_iff c).1 h
  omega

end Sys2Proof.Machine
end

section
/-! The obligations of spec/41_param_channel.md: the commands, the registers a host can only read,
the addresses without a register. -/

namespace Sys2Proof.Machine

/-! ### Commands -/

/-- Settles O23: the effect looks at three bits, at START only without STOP, and at SNAP last. -/
theorem commandBits : Obligations.CommandBits := by
  intro d s
  simp only [exec_wrCmd]
  refine ⟨?_, fun hstop => ?_, fun hsnap => ?_, fun hnone => ?_, _, rfl, ?_⟩
  · rw [commandEffect_and_seven]
  · have hstop' : cmdStop (d &&& 0x6) = true := (cmdStop_and d _).trans (by rw [cmdStop, hstop]; rfl)
    have hsnap' : cmdSnap (d &&& 0x6) = cmdSnap d := (cmdSnap_and d _).trans (Bool.and_true _)
    rw [commandEffect_stop_congr hstop hstop' hsnap'.symm]
  · have hstart' : cmdStart (d &&& 0x3) = cmdStart d := (cmdStart_and d _).trans (Bool.and_true _)
    have hstop' : cmdStop (d &&& 0x3) = cmdStop d := (cmdStop_and d _).trans (Bool.and_true _)
    have hsnap' : cmdSnap (d &&& 0x3) = false := (cmdSnap_and d _).trans (Bool.and_false _)
    rw [andThen, exec_wrCmd, commandEffect_snap,
      commandEffect_of_snap hsnap hsnap' hstart'.symm hstop'.symm]
  · rw [← commandEffect_and_seven, hnone, commandEffect_zero]
  · have hf := commandEffect_frame d s
    exact ⟨hf.cfg, hf.aud, hf.ports, hf.stream, hf.schedule, hf.tfreq, hf.tamp, hf.gain, hf.pause,
      hf.blkSeen, hf.silentSeen, hf.syncTfreq, hf.syncTamp, hf.syncGain⟩

/-- Settles O21: without SNAP the word is START or STOP, and either acts in one run state only. -/
theorem startAndStopCommands : Obligations.StartAndStopCommands := by
  intro d s hsnap
  simp only [exec_wrCmd]
  refine ⟨fun hstart hstop hrun => ?_, fun hstart hstop hrun => ?_, fun hstop hrun => ?_,
    fun hstop hrun => ?_⟩
  · rw [commandEffect_of_start hstart hstop hsnap, startEngine_of_stopped hrun]
    rfl
  · rw [commandEffect_of_start hstart hstop hsnap, startEngine_of_running hrun]
  · rw [commandEffect_of_stop hstop hsnap, stopEngine_of_running hrun]
    rfl
  · rw [commandEffect_of_stop hstop hsnap, stopEngine_of_stopped hrun]

/-- Settles O22: the second SNAP finds the base at the count and the sample count at 0. -/
theorem snapCommand : Obligations.SnapCommand := by
  intro s
  simp only [exec_wrCmd, commandEffect_snap]
  refine ⟨rfl, fun t u ht hu => ?_⟩
  obtain rfl : snapCounters s = t := Host.Outcome.next.inj ht
  obtain rfl : snapCounters (snapCounters s) = u := Host.Outcome.next.inj hu
  simp

/-! ### Registers -/

/-- Settles O12: three rows of the register map hold a constant, and so does every address past the
last row. -/
theorem constantRegistersRead : Obligations.ConstantRegistersRead :=
  ⟨readsAs_of_readValue rfl fun _ => rfl, readsAs_of_readValue rfl fun _ => rfl,
    readsAs_of_readValue rfl fun _ => rfl, fun _ => readsAs_reserved⟩

/-- Settles O13: three rows of the register map, each a field of the control domain. -/
theorem telemetryRegistersRead : Obligations.TelemetryRegistersRead :=
  ⟨readsAs_of_readValue rfl fun _ => rfl, readsAs_of_readValue rfl fun _ => rfl,
    readsAs_of_readValue rfl fun _ => rfl⟩

/-- Settles O14: the two words are made of the configuration alone, and legal parameters fit their
fields. -/
theorem configurationRegistersRead : Obligations.ConfigurationRegistersRead := by
  refine ⟨readsAs_of_readValue rfl fun _ => rfl, readsAs_of_readValue rfl fun _ => rfl, ?_, ?_,
    fun c hlegal => ?_⟩
  · rw [exec_eq_after, ← configWord_default]
    rfl
  · rw [exec_eq_after, ← sampleRateWord_default]
    rfl
  · obtain ⟨ht, hlog2, hfs⟩ := legalConfig_fits_fields hlegal
    simp only [BitVec.toNat_ofNat, Nat.mod_eq_of_lt ht, Nat.mod_eq_of_lt hlog2,
      Nat.mod_eq_of_lt hfs, and_self]

/-- Settles O20: the five addresses excluded are those a write acts on. -/
theorem otherWritesAreIgnored : Obligations.OtherWritesAreIgnored := by
  refine ⟨fun a hcmd hpause htfreq htamp hvolume => writesAs_ignored ?_, fun _ => readsAs_reserved⟩
  simp only [RegAddr.isWritable, Bool.or_eq_false_iff, beq_eq_false_iff_ne]
  exact ⟨⟨⟨⟨hcmd, hpause⟩, htfreq⟩, htamp⟩, hvolume⟩

end Sys2Proof.Machine
end

section
/-! The mapper of spec/42_mapper.md at the magnitudes 0 and 1, in every configuration whose parameters
allow it, and the obligation about its worked examples. -/

namespace Sys2Proof.Machine

/-! ### Products with 0 and 1 -/

/-- +0.0 times a finite value without a sign is +0.0. -/
theorem f32Mul_zero_left {a : Word} {n d : Nat} (hd : 0 < d) (h : unpack32 a = .fin false n d) :
    f32Mul 0 a = 0 := by
  rw [f32Mul, unpack32_zero, h]
  simp only [FP.mul, Nat.zero_mul, bne_self_eq_false]
  exact pack32_zero (by positivity)

/-- A pattern's value is packed alike when its fraction is expanded. -/
theorem pack32_expanded (neg : Bool) (p : Nat) {k : Nat} (hk : 0 < k) :
    pack32 (.fin neg (k * binary32.quanta p) (k * 2 ^ 149)) =
      pack32 (.fin neg (binary32.quanta p) (2 ^ 149)) := by
  have hround (j : Nat) (hj : 0 < j) :
      binary32.roundMag (j * binary32.quanta p * 2 ^ binary32.quantumLog) (j * 2 ^ 149) =
        min p binary32.infBits :=
    binary32.roundMag_exact binary32_fracBits_pos (by positivity)
      (by rw [binary32_quantumLog]; ring)
  have hone := hround 1 Nat.one_pos
  rw [Nat.one_mul, Nat.one_mul] at hone
  rw [pack32, pack32, binary32.pack_fin, binary32.pack_fin, hround k hk, hone]

/-- 1.0 times a value is the value itself, an infinity included. -/
theorem f32Mul_one_left {a : Word} (h : ¬ IsNaN32 a) : f32Mul 0x3F800000 a = a := by
  have hmul : f32Mul 0x3F800000 a = pack32 (unpack32 a) := by
    rw [f32Mul, unpack32_one]
    rcases unpack32_cases a with ⟨neg, p, _, hu⟩ | ⟨neg, hu⟩ | hu
    · simpa only [hu, FP.mul, Bool.false_bne] using pack32_expanded neg p (by positivity)
    · have hne : 2 ^ 149 ≠ 0 := by positivity
      simp only [hu, FP.mul, if_neg hne, Bool.false_bne]
    · exact absurd hu h
  exact hmul.trans (conversionsAreExact.1 a h)

/-! ### The mapper -/

/-- At 0 the mapper gives its offset. -/
theorem mapMagnitude_zero {c : Config} {n d : Nat} (hbase : FiniteNonzero c.mapBase) (hd : 0 < d)
    (hscale : unpack32 c.mapScale = .fin false n d) : mapMagnitude c 0 = c.mapBase := by
  rw [mapMagnitude, f32Mul_zero_left hd hscale, f32Add_zero hbase]

/-- At 1 the mapper gives its offset plus its slope. -/
theorem mapMagnitude_one {c : Config} (hscale : ¬ IsNaN32 c.mapScale) :
    mapMagnitude c 0x3F800000 = f32Add c.mapBase c.mapScale := by
  rw [mapMagnitude, f32Mul_one_left hscale]

/-- The default offset is 100, in smallest subnormals. -/
theorem unpack32_defaultMapBase :
    unpack32 Config.default.mapBase = .fin false (100 * 2 ^ 149) (2 ^ 149) := by decide +kernel

/-- The default slope is 200, in smallest subnormals. -/
theorem unpack32_defaultMapScale :
    unpack32 Config.default.mapScale = .fin false (200 * 2 ^ 149) (2 ^ 149) := by decide +kernel

theorem finiteNonzero_defaultMapBase : FiniteNonzero Config.default.mapBase :=
  ⟨_, _, _, unpack32_defaultMapBase, by positivity⟩

theorem not_isNaN32_defaultMapScale : ¬ IsNaN32 Config.default.mapScale := by
  simp [IsNaN32, unpack32_defaultMapScale]

/-- 100 plus 200 is 300, and binary32 holds it. -/
theorem defaultMapBase_add_mapScale :
    f32Add Config.default.mapBase Config.default.mapScale = 0x43960000 := by decide +kernel

/-- Settles O27: the offset at 0, the offset plus the slope at 1, and the model's own formula. -/
theorem mapperWorkedExamples : Obligations.MapperWorkedExamples :=
  ⟨mapMagnitude_zero finiteNonzero_defaultMapBase (by positivity) unpack32_defaultMapScale,
    (mapMagnitude_one not_isNaN32_defaultMapScale).trans defaultMapBase_add_mapScale,
    fun _ _ => rfl⟩

end Sys2Proof.Machine
end

section
/-! SUPPORT. The stillness detector of spec/43_stillness_fsm.md: what one step can do to its count
and its two requests, said once for every event, and what a still sample does to a machine that is
counting up to `T`. -/

namespace Sys2Proof.Machine

/-! ### The detector and its moves -/

/-- What a step shows of the detector: the count (10_state.md R27) and the two requests. -/
structure DetectorView where
  count : BitVec 16
  suspend : Bool
  resume : Bool

def detectorOf (s : State) : DetectorView :=
  ⟨s.ctl.stillCount, s.ports.hwSuspend, s.ports.hwResume⟩

theorem detectorOf_eq_iff (s : State) (c : BitVec 16) (p q : Bool) :
    detectorOf s = ⟨c, p, q⟩ ↔
      s.ctl.stillCount = c ∧ s.ports.hwSuspend = p ∧ s.ports.hwResume = q := by
  rw [detectorOf, DetectorView.mk.injEq]

/-- The moves of a step from count `c` with threshold `T` (R176, R177, R183). `staysAwake` is both
the still sample that counts up and the moving one that clears a count below `T`; `restart` says
that the step may clear any count without a request. -/
inductive DetectorMove (restart : Prop) (T : Nat) (c : BitVec 16) : DetectorView → Prop
  | fallsAsleep (h : c.toNat + 1 = T) : DetectorMove restart T c ⟨c + 1, true, false⟩
  | wakes (h : T ≤ c.toNat) : DetectorMove restart T c ⟨0, false, true⟩
  | staysAwake {n : BitVec 16} (hold : c.toNat < T) (hnew : n.toNat < T) :
      DetectorMove restart T c ⟨n, false, false⟩
  | keeps : DetectorMove restart T c ⟨c, false, false⟩
  | restarts (h : restart) : DetectorMove restart T c ⟨0, false, false⟩

section
variable {P : Prop} {s : State}

theorem detectorOf_of_quiet (hquiet : s.ports = Ports.quiet) :
    detectorOf s = ⟨s.ctl.stillCount, false, false⟩ := by
  rw [detectorOf, hquiet]; rfl

/-- A step that shows nothing new of the detector keeps it. -/
theorem DetectorMove.of_same {t : State} (hquiet : s.ports = Ports.quiet)
    (h : detectorOf t = detectorOf s) :
    DetectorMove P s.cfg.t s.ctl.stillCount (detectorOf t) := by
  rw [h, detectorOf_of_quiet hquiet]
  exact .keeps

/-! ### Samples -/

/-- The next count does not wrap below a threshold of 16 bits. -/
theorem stillCount_succ_toNat {c : BitVec 16} {T : Nat} (hc : c.toNat + 1 ≤ T) (hT : T ≤ 65535) :
    (c + 1).toNat = c.toNat + 1 := by
  rw [BitVec.toNat_add, show (1 : BitVec 16).toNat = 1 from rfl, Nat.mod_eq_of_lt (by omega)]

theorem stillnessStep_detectorMove (m : Word) (hquiet : s.ports = Ports.quiet) :
    DetectorMove P s.cfg.t s.ctl.stillCount (detectorOf (stillnessStep m s)) := by
  have hsucc : (s.ctl.stillCount + 1).toNat ≤ s.ctl.stillCount.toNat + 1 := by
    rw [BitVec.toNat_add]; exact Nat.mod_le _ _
  rcases stillnessStep_cases m s with ⟨_, hc, hs⟩ | ⟨_, hc, hs⟩ | ⟨_, _, hs⟩ | ⟨_, hc, hs⟩ |
    ⟨_, hc, hs⟩ <;> rw [hs] <;>
      simp only [detectorOf, pulseSuspend, pulseResume, setStillCount, hquiet]
  · exact .fallsAsleep hc
  · exact .staysAwake (by omega) (by omega)
  · exact .keeps
  · exact .wakes hc
  · exact .staysAwake hc (Nat.zero_lt_of_lt hc)

theorem sensorSample_detectorMove (r : Word) (hquiet : s.ports = Ports.quiet) :
    DetectorMove P s.cfg.t s.ctl.stillCount (detectorOf (sensorSample r s)) := by
  rcases sensorSample_cases r s with ⟨_, hs⟩ | ⟨_, _, hs⟩ <;> rw [hs]
  · exact .of_same hquiet rfl
  · exact stillnessStep_detectorMove (s := ingestSample (smooth s.cfg s.ctl.smoothed r) s) _ hquiet

/-- A machine that is stopped after a sample has dropped it. -/
theorem sensorSample_eq_self_of_stopped {r : Word} (h : (sensorSample r s).ctl.run = false) :
    sensorSample r s = s := by
  obtain ⟨_, _, _, _, _, _, _, hframe⟩ := sensorSample_frame r s
  rcases sensorSample_cases r s with ⟨_, hs⟩ | ⟨hrun, _, _⟩
  · exact hs
  · rw [hframe] at h
    exact absurd hrun (ne_true_of_eq_false h)

/-! ### Operations of the bus -/

/-- A command leaves the detector, or it is a START of a stopped engine and clears the count. -/
theorem commandEffect_detector (d : Word) (s : State) :
    detectorOf (commandEffect d s) = detectorOf s ∨
      (cmdStart d && !cmdStop d) = true ∧ s.ctl.run = false ∧
        detectorOf (commandEffect d s) = { detectorOf s with count := 0 } := by
  obtain ⟨u, hu, hsnap⟩ := commandEffect_cases d s
  have hview : detectorOf (commandEffect d s) = detectorOf u := by
    rcases hsnap with ⟨_, h⟩ | ⟨_, h⟩
    · rw [h]; rfl
    · rw [h]
  rw [hview]
  rcases hu with ⟨_, rfl⟩ | ⟨hstop, hstart, rfl⟩ | ⟨_, _, rfl⟩
  · rcases stopEngine_cases s with ⟨_, h⟩ | ⟨_, h⟩ <;> rw [h] <;> exact .inl rfl
  · rcases startEngine_cases s with ⟨_, h⟩ | ⟨hrun, h⟩ <;> rw [h]
    · exact .inl rfl
    · exact .inr ⟨by rw [hstart, hstop]; rfl, hrun, rfl⟩
  · exact .inl rfl

theorem requestBlock_detector (f : BlkWord) (s : State) :
    detectorOf (requestBlock f s) = detectorOf s := by
  rcases requestBlock_cases f s with ⟨_, h⟩ | ⟨_, _, h⟩ | ⟨_, _, h⟩ <;> rw [h] <;> rfl

theorem consumeStep_detector (s : State) : detectorOf (consumeStep s) = detectorOf s := by
  rcases consumeStep_cases s with ⟨_, h⟩ | ⟨_, _, h⟩ | ⟨_, _, h⟩ <;> rw [h] <;> rfl

/-- A command restarts the detector with START, unless STOP is set too
(41_param_channel.md R152). -/
theorem restartsDetector_of_wrCmd {w : BusWord} {d : Word} (x : Option Word)
    (h : decode (.ctlBus w) = .wrCmd d) :
    restartsDetector (.ctl x (some w)) = (cmdStart d && !cmdStop d) := by
  unfold restartsDetector
  simp only [h]

/-- An operation of the bus leaves the detector, or it is a START of a stopped engine. -/
theorem after_ctlBus_detector (x : Option Word) (w : BusWord) (s : State) :
    detectorOf (after (decode (.ctlBus w)) s) = detectorOf s ∨
      restartsDetector (.ctl x (some w)) = true ∧ s.ctl.run = false ∧
        detectorOf (after (decode (.ctlBus w)) s) = { detectorOf s with count := 0 } := by
  cases hi : decode (.ctlBus w) with
  | wrCmd d =>
    rw [restartsDetector_of_wrCmd x hi]
    exact commandEffect_detector d s
  | sens r => exact absurd hi (decode_ctlBus_ne_sens w r)
  | blk f => exact absurd hi (decode_ctlBus_ne_blk w f)
  | _ => exact .inl rfl

/-! ### Every event -/

/-- The bus comes last in a cycle: it keeps the sample's move, or it restarts the detector, and then
the sample was dropped. -/
theorem busPart_detectorMove {x : Option Word} {w : BusWord} {T : Nat} {c : BitVec 16} {t : State}
    (v : Word) (hP : restartsDetector (.ctl x (some w)) = true → P)
    (hmove : DetectorMove P T c (detectorOf t))
    (hstopped : t.ctl.run = false → detectorOf t = ⟨c, false, false⟩) :
    DetectorMove P T c
      (detectorOf (if BusWord.we w then after (decode (.ctlBus w)) t else driveRdata v t)) := by
  split
  · rcases after_ctlBus_detector x w t with h | ⟨hrestart, hrun, h⟩
    · rw [h]; exact hmove
    · rw [h, hstopped hrun]; exact .restarts (hP hrestart)
  · exact hmove

theorem cycleAfter_detectorMove {x : Option Word} {w : Option BusWord}
    (hquiet : s.ports = Ports.quiet) (hP : restartsDetector (.ctl x w) = true → P) :
    DetectorMove P s.cfg.t s.ctl.stillCount (detectorOf (cycleAfter x w s)) := by
  have hself : detectorOf s = ⟨s.ctl.stillCount, false, false⟩ := detectorOf_of_quiet hquiet
  cases x with
  | none =>
    cases w with
    | none => exact .of_same hquiet rfl
    | some w => exact busPart_detectorMove _ hP (.of_same hquiet rfl) fun _ => hself
  | some r =>
    have hmove := sensorSample_detectorMove (P := P) r hquiet
    cases w with
    | none => exact hmove
    | some w =>
      exact busPart_detectorMove _ hP hmove fun hrun =>
        (congrArg detectorOf (sensorSample_eq_self_of_stopped hrun)).trans hself

/-- Everything an event can do to the detector. -/
theorem eventAfter_detectorMove {e : Event} (hquiet : s.ports = Ports.quiet)
    (hP : restartsDetector e = true → P) :
    DetectorMove P s.cfg.t s.ctl.stillCount (detectorOf (eventAfter e s)) := by
  cases e with
  | ctl x w => exact cycleAfter_detectorMove hquiet hP
  | blkReq w => exact .of_same hquiet (requestBlock_detector w s)
  | render => exact .of_same hquiet (by simp [detectorOf, eventAfter])
  | consume => exact .of_same hquiet (consumeStep_detector s)
  | copy f => exact .of_same hquiet (by cases f <;> rfl)
  | ack f => exact .of_same hquiet (by cases f <;> rfl)
  | copyBlk => exact .of_same hquiet rfl
  | copySilent => exact .of_same hquiet rfl
  | reset => exact .restarts (hP rfl)

/-- Everything a step can do to the detector. -/
theorem step_detectorMove {t : State} (h : step s = .next t) :
    DetectorMove (∃ e rest, s.schedule = e :: rest ∧ restartsDetector e = true)
      s.cfg.t s.ctl.stillCount (detectorOf t) := by
  rcases step_cases h with ⟨_, rfl⟩ | ⟨e, rest, hs, rfl⟩
  · exact .keeps
  · exact eventAfter_detectorMove (s := eventStart s rest) rfl fun he => ⟨e, rest, hs, he⟩

/-! ### The requests of a run -/

theorem requestsOfRun_of_illegal (h : ¬ legalConfig s.cfg = true) (n : Nat) :
    requestsOfRun n s = [] := by
  cases n with
  | zero => rfl
  | succ n => simp only [requestsOfRun, (step_refused_iff s).2 h]

/-- A run's requests are those of its first event and then those of the run from there. -/
theorem requestsOfRun_cons (h : legalConfig s.cfg = true) (n : Nat) (e : Event)
    (es : List Event) :
    requestsOfRun (n + 1) { s with schedule := e :: es } =
      requestsNow (eventAfter e (eventStart s es)) ++
        requestsOfRun n { eventAfter e (eventStart s es) with schedule := es } := by
  have hstep : step { s with schedule := e :: es } = .next (eventAfter e (eventStart s es)) :=
    step_of_schedule (s := { s with schedule := e :: es }) h rfl
  have hschedule : { eventAfter e (eventStart s es) with schedule := es } =
      eventAfter e (eventStart s es) := with_own_schedule (eventAfter_schedule e _)
  rw [hschedule]
  simp only [requestsOfRun, hstep]

end

/-! ### Counting up to `T` -/

/-- A still sample below `T` counts one up, and suspends if that makes `T` (R176). -/
theorem detectorOf_stillnessStep_of_still {m : Word} {s : State}
    (hm : f32Lt m s.cfg.cutoff = true) (hc : s.ctl.stillCount.toNat < s.cfg.t) :
    detectorOf (stillnessStep m s) =
      ⟨s.ctl.stillCount + 1,
        s.ports.hwSuspend || decide (s.ctl.stillCount.toNat + 1 = s.cfg.t), s.ports.hwResume⟩ := by
  rcases stillnessStep_cases m s with ⟨_, he, hs⟩ | ⟨_, hlt, hs⟩ | ⟨_, hge, _⟩ | ⟨hmoving, _⟩ |
    ⟨hmoving, _⟩
  · simp [hs, detectorOf, he]
  · simp [hs, detectorOf, hlt.ne]
  · omega
  · simp [hm] at hmoving
  · simp [hm] at hmoving

/-- The machine processes samples, and the values `rs` to come are still and bring the count to `T`
(R181). -/
structure Settling (rs : List Word) (s : State) : Prop where
  legal : legalConfig s.cfg = true
  run : s.ctl.run = true
  pause : s.ctl.pause = false
  count : s.ctl.stillCount.toNat + rs.length = s.cfg.t
  still : allStill s.cfg s.ctl.smoothed rs

namespace Settling
variable {r : Word} {rs : List Word} {s : State}

theorem count_cons (h : Settling (r :: rs) s) :
    s.ctl.stillCount.toNat + 1 + rs.length = s.cfg.t := by
  rw [Nat.add_right_comm]
  exact h.count

theorem atEventStart (h : Settling rs s) (es : List Event) : Settling rs (eventStart s es) :=
  ⟨h.legal, h.run, h.pause, h.count, h.still⟩

/-- A settling machine gives its next sample to the smoother, the detector and the mapper. -/
theorem sensorSample_eq (h : Settling rs s) (r : Word) :
    sensorSample r s =
      writeTfreq (mapMagnitude s.cfg (smooth s.cfg s.ctl.smoothed r))
        (stillnessStep (smooth s.cfg s.ctl.smoothed r)
          (ingestSample (smooth s.cfg s.ctl.smoothed r) s)) := by
  rcases sensorSample_cases r s with ⟨hdropped, _⟩ | ⟨_, _, hs⟩
  · simp [h.run, h.pause] at hdropped
  · exact hs

theorem detectorOf_sample (h : Settling (r :: rs) s) :
    detectorOf (sensorSample r s) =
      ⟨s.ctl.stillCount + 1,
        s.ports.hwSuspend || decide (s.ctl.stillCount.toNat + 1 = s.cfg.t), s.ports.hwResume⟩ := by
  have hcount := h.count_cons
  rw [h.sensorSample_eq]
  exact detectorOf_stillnessStep_of_still
    (s := ingestSample (smooth s.cfg s.ctl.smoothed r) s) h.still.1 (by simp; omega)

/-- One sample on, the machine settles on the samples left. -/
theorem sample (h : Settling (r :: rs) s) : Settling rs (sensorSample r s) := by
  have hcount := h.count_cons
  obtain ⟨_, _, _, _, _, ht, _⟩ := (legalConfig_iff s.cfg).1 h.legal
  have hview : (sensorSample r s).ctl.stillCount = s.ctl.stillCount + 1 :=
    congrArg DetectorView.count h.detectorOf_sample
  have hsucc := stillCount_succ_toNat (c := s.ctl.stillCount) (T := s.cfg.t) (by omega) ht
  obtain ⟨_, _, _, hstep⟩ := stillnessStep_frame (smooth s.cfg s.ctl.smoothed r)
    (ingestSample (smooth s.cfg s.ctl.smoothed r) s)
  refine ⟨?_, ?_, ?_, ?_, ?_⟩
  · rw [sensorSample_cfg]; exact h.legal
  · rw [h.sensorSample_eq, hstep]; exact h.run
  · rw [h.sensorSample_eq, hstep]; exact h.pause
  · rw [hview, hsucc, sensorSample_cfg]; omega
  · rw [sensorSample_cfg, h.sensorSample_eq, hstep]; exact h.still.2

/-- The last sample of the settling machine suspends, an earlier one requests nothing. -/
theorem requestsNow_sample (h : Settling (r :: rs) s) (hquiet : s.ports = Ports.quiet) :
    requestsNow (sensorSample r s) = if rs = [] then [.suspend] else [] := by
  have hlast : s.ctl.stillCount.toNat + 1 = s.cfg.t ↔ rs = [] := by
    have hcount := h.count_cons
    rw [← List.length_eq_zero_iff]
    omega
  obtain ⟨_, hsuspend, hresume⟩ := (detectorOf_eq_iff _ _ _ _).1 h.detectorOf_sample
  by_cases hrs : rs = [] <;>
    simp [requestsNow, hsuspend, hresume, hquiet, Ports.quiet, hlast, hrs]

/-- The run of a settling machine ends asleep. -/
theorem sleeps (h : Settling rs s) :
    ∃ t, runSchedule (sampleCycles rs) s = .next t ∧ sleeping t.cfg t.ctl = true := by
  induction rs generalizing s with
  | nil => exact ⟨_, runSchedule_nil s, beq_iff_eq.2 h.count⟩
  | cons r rs ih =>
    obtain ⟨t, hrun, hsleep⟩ := ih (h.atEventStart (sampleCycles rs)).sample
    exact ⟨t, (runSchedule_cons h.legal (.ctl (some r) none) (sampleCycles rs)).trans hrun, hsleep⟩

/-- The requests of a settling machine's run, one sample taken off it. -/
theorem requestsOfRun_succ (h : Settling (r :: rs) s) (n : Nat) :
    requestsOfRun (n + 1) { s with schedule := sampleCycles (r :: rs) } =
      (if rs = [] then [.suspend] else []) ++
        requestsOfRun n { sensorSample r (eventStart s (sampleCycles rs)) with
          schedule := sampleCycles rs } := by
  rw [← (h.atEventStart (sampleCycles rs)).requestsNow_sample rfl]
  exact requestsOfRun_cons h.legal n (.ctl (some r) none) (sampleCycles rs)

/-- No request before the last sample. -/
theorem requestsOfRun_of_lt (h : Settling rs s) {k : Nat} (hk : k < rs.length) :
    requestsOfRun k { s with schedule := sampleCycles rs } = [] := by
  induction rs generalizing s k with
  | nil => exact absurd hk (Nat.not_lt_zero k)
  | cons r rs ih =>
    cases k with
    | zero => rfl
    | succ k =>
      have hk' : k < rs.length := Nat.lt_of_succ_lt_succ hk
      have hmore : rs ≠ [] := List.ne_nil_of_length_pos (Nat.zero_lt_of_lt hk')
      rw [h.requestsOfRun_succ, if_neg hmore, List.nil_append]
      exact ih (h.atEventStart (sampleCycles rs)).sample hk'

/-- One suspend over all the samples. -/
theorem requestsOfRun_length (h : Settling rs s) (hne : rs ≠ []) :
    requestsOfRun rs.length { s with schedule := sampleCycles rs } = [.suspend] := by
  induction rs generalizing s with
  | nil => exact absurd rfl hne
  | cons r rs ih =>
    rw [List.length_cons, h.requestsOfRun_succ]
    by_cases hlast : rs = []
    · subst hlast; rfl
    · rw [if_neg hlast, List.nil_append]
      exact ih (h.atEventStart (sampleCycles rs)).sample hlast

end Settling

end Sys2Proof.Machine
end

section
/-! The obligations of spec/43_stillness_fsm.md: the requests of one step, the requests of a run,
the run into SLEEPING. -/

namespace Sys2Proof.Machine

/-! ### One step -/

/-- Settles O28: each of the detector's moves read off its two requests. -/
theorem requestsMarkTheDetectorsMoves : Obligations.RequestsMarkTheDetectorsMoves := by
  intro s t hbound h
  have hmove := step_detectorMove h
  obtain ⟨hlegal, ht⟩ := step_next_iff.1 h
  have hcfg : t.cfg = s.cfg := by rw [ht, stepAfter_cfg]
  obtain ⟨_, _, _, _, _, hT, _⟩ := (legalConfig_iff s.cfg).1 hlegal
  rw [DebounceBounded] at hbound
  generalize hview : detectorOf t = d at hmove
  cases hmove <;> obtain ⟨hcount, hsuspend, hresume⟩ := (detectorOf_eq_iff _ _ _ _).1 hview <;>
    simp only [hcount, hsuspend, hresume, hcfg, sleeping]
  case fallsAsleep hc =>
    exact ⟨by simp, fun _ => ⟨hc, (stillCount_succ_toNat hc.le hT).trans hc⟩, by simp, by simp⟩
  case wakes hc => simp [le_antisymm hbound hc]
  case staysAwake hold hnew => simp [hold.ne, hnew.ne]
  case keeps => simp
  case restarts hrestart => exact ⟨by simp, by simp, by simp, fun _ _ => .inr ⟨trivial, hrestart⟩⟩

/-! ### Runs -/

/-- What a step requests is what alternation expects of it next (R180). -/
theorem alternating_requestsNow_append {s t : State} (hbound : DebounceBounded s)
    (h : step s = .next t)
    (hkeep : ¬ ∃ e rest, s.schedule = e :: rest ∧ restartsDetector e = true)
    (l : List HwRequest) :
    alternating (sleeping s.cfg s.ctl) (requestsNow t ++ l) =
      alternating (sleeping t.cfg t.ctl) l := by
  obtain ⟨hlegal, ht⟩ := step_next_iff.1 h
  have hcfg : t.cfg = s.cfg := by rw [ht, stepAfter_cfg]
  obtain ⟨_, _, _, _, hpos, _, _⟩ := (legalConfig_iff s.cfg).1 hlegal
  obtain ⟨hboth, hsuspend, hresume, hnone⟩ := requestsMarkTheDetectorsMoves s t hbound h
  cases hp : t.ports.hwSuspend <;> cases hq : t.ports.hwResume
  · rcases hnone hp hq with hsame | ⟨_, hrestart⟩
    · simp [requestsNow, hp, hq, hsame]
    · exact absurd hrestart hkeep
  · obtain ⟨hold, hnew⟩ := hresume hq
    have hasleep : sleeping s.cfg s.ctl = true := beq_iff_eq.2 hold
    have hawake : sleeping t.cfg t.ctl = false := beq_eq_false_iff_ne.2 (by rw [hnew, hcfg]; omega)
    simp [requestsNow, hp, hq, hasleep, hawake, alternating]
  · obtain ⟨hold, hnew⟩ := hsuspend hp
    have hawake : sleeping s.cfg s.ctl = false := beq_eq_false_iff_ne.2 (by omega)
    have hasleep : sleeping t.cfg t.ctl = true := beq_iff_eq.2 hnew
    simp [requestsNow, hp, hq, hasleep, hawake, alternating]
  · exact absurd ⟨hp, hq⟩ hboth

/-- Settles O29, by induction on the schedule: each step leaves the alternation to the rest of the
run. -/
theorem suspendAndResumeAlternate : Obligations.SuspendAndResumeAlternate := by
  intro es
  induction es with
  | nil => intro s _ _; rfl
  | cons e es ih =>
    intro s hbound hkeep
    by_cases hlegal : legalConfig s.cfg = true
    · rw [List.forall_mem_cons] at hkeep
      obtain ⟨he, hes⟩ := hkeep
      have hstep : step { s with schedule := e :: es } = .next (eventAfter e (eventStart s es)) :=
        step_of_schedule (s := { s with schedule := e :: es }) hlegal rfl
      have hnext : DebounceBounded (eventAfter e (eventStart s es)) :=
        DebounceBounded.eventAfter (s := eventStart s es) hbound e
      have hfirst : ¬ ∃ e' rest, e :: es = e' :: rest ∧ restartsDetector e' = true := by
        simp [he]
      rw [List.length_cons, requestsOfRun_cons hlegal]
      exact (alternating_requestsNow_append (s := { s with schedule := e :: es }) hbound hstep
        hfirst _).trans (ih _ hnext hes)
    · rw [requestsOfRun_of_illegal (s := { s with schedule := e :: es }) hlegal]
      rfl

/-- Settles O30: a machine in the premises is settling. -/
theorem debounceTakesExactlyTSamples : Obligations.DebounceTakesExactlyTSamples := by
  intro s rs hlegal hrun hpause hcount hne hstill
  have h : Settling rs s := ⟨hlegal, hrun, hpause, hcount, hstill⟩
  exact ⟨h.sleeps, h.requestsOfRun_length hne, fun _ => h.requestsOfRun_of_lt⟩

end Sys2Proof.Machine
end

section
/-! SUPPORT. A sensor sample of spec/44_sensor_ingest.md R190 to R194: when it is dropped, when it
is processed, and what the stillness detector makes of it, in one equation. -/

namespace Sys2Proof.Machine

theorem exec_sens (r : Word) (s : State) : exec (.sens r) s = .next (sensorSample r s) :=
  exec_eq_after _ _

theorem sensorSample_of_dropped {s : State} (r : Word)
    (h : s.ctl.run = false ∨ s.ctl.pause = true) : sensorSample r s = s := by
  rcases sensorSample_cases r s with ⟨_, hs⟩ | ⟨hrun, hpause, _⟩
  · exact hs
  · simp [hrun, hpause] at h

theorem sensorSample_of_processed {s : State} (r : Word) (hrun : s.ctl.run = true)
    (hpause : s.ctl.pause = false) :
    sensorSample r s =
      writeTfreq (mapMagnitude s.cfg (smooth s.cfg s.ctl.smoothed r))
        (stillnessStep (smooth s.cfg s.ctl.smoothed r)
          (ingestSample (smooth s.cfg s.ctl.smoothed r) s)) := by
  rcases sensorSample_cases r s with ⟨hdropped, _⟩ | ⟨_, _, hs⟩
  · simp [hrun, hpause] at hdropped
  · exact hs

/-- The detector's five cases as one record update: the count and the two requests (R176, R177).
A request already driven stays driven. -/
theorem stillnessStep_eq (m : Word) (s : State) :
    stillnessStep m s =
      { s with
        ctl := { s.ctl with
          stillCount :=
            if f32Lt m s.cfg.cutoff then
              (if s.ctl.stillCount.toNat < s.cfg.t then s.ctl.stillCount + 1 else s.ctl.stillCount)
            else 0 }
        ports := { s.ports with
          hwSuspend := s.ports.hwSuspend ||
            (f32Lt m s.cfg.cutoff && decide (s.ctl.stillCount.toNat < s.cfg.t) &&
              decide (s.ctl.stillCount.toNat + 1 = s.cfg.t))
          hwResume := s.ports.hwResume ||
            (!f32Lt m s.cfg.cutoff && decide (s.cfg.t ≤ s.ctl.stillCount.toNat)) } } := by
  rcases stillnessStep_cases m s with ⟨hm, hc, hs⟩ | ⟨hm, hc, hs⟩ | ⟨hm, hc, hs⟩ | ⟨hm, hc, hs⟩ |
    ⟨hm, hc, hs⟩ <;> rw [hs]
  · have hlt : s.ctl.stillCount.toNat < s.cfg.t := by omega
    simp [hm, hc, hlt, pulseSuspend, setStillCount]
  · have hlt : s.ctl.stillCount.toNat < s.cfg.t := by omega
    simp [hm, hc.ne, hlt, setStillCount]
  · simp [hm, hc.not_gt]
  · simp [hm, hc, pulseResume, setStillCount]
  · simp [hm, hc.not_ge, setStillCount]

end Sys2Proof.Machine
end

section
/-! The obligations of spec/44_sensor_ingest.md: the dropped sample, the processed sample. -/

namespace Sys2Proof.Machine

/-- Settles O25. -/
theorem sampleDroppedWhileStoppedOrPaused : Obligations.SampleDroppedWhileStoppedOrPaused := by
  intro r s hdropped
  rw [exec_sens, sensorSample_of_dropped r hdropped]

/-- Settles O26: the detector's equation between the smoother's writes and the mapper's. -/
theorem processedSample : Obligations.ProcessedSample := by
  intro r s hrun hpause m c
  rw [exec_sens, sensorSample_of_processed r hrun hpause, stillnessStep_eq]
  rfl

end Sys2Proof.Machine
end

section
/-! SUPPORT. The `clk_ctl` cycle of spec/60_exceptions.md R204 with a sample and a bus word in it:
the order of its parts, and what of the sample a bus write of the same cycle finds. -/

namespace Sys2Proof.Machine

/-! ### The order of the parts -/

/-- A read takes its value before the sample (R204, steps 1 to 3). -/
theorem cycleAfter_sample_read {w : BusWord} (hread : BusWord.we w = false) (r : Word)
    (s : State) :
    cycleAfter (some r) (some w) s =
      driveRdata (readValue (decode (.ctlBus w)) s) (sensorSample r s) := by
  simp only [cycleAfter, hread, Bool.false_eq_true, if_false]

/-- A write finds the state after the sample (R204, step 4). -/
theorem cycleAfter_sample_write {w : BusWord} (hwrite : BusWord.we w = true) (r : Word)
    (s : State) :
    cycleAfter (some r) (some w) s = after (decode (.ctlBus w)) (sensorSample r s) := by
  simp only [cycleAfter, hwrite, if_true]

/-- What a bus word with WE = 0 does alone in its cycle. -/
theorem exec_ctlBus_read {w : BusWord} (hread : BusWord.we w = false) (s : State) :
    exec (decode (.ctlBus w)) s = .next (driveRdata (readValue (decode (.ctlBus w)) s) s) := by
  have hbus : (decode (.ctlBus w)).isBusRead = true := by
    rw [decode_ctlBus_isBusRead, hread, Bool.not_false]
  rw [exec_eq_after, after_of_isBusRead hbus]

/-- The next state of a cycle with a sample and a write, by the address of the write. -/
theorem eq_after_of_sample_write {s t : State} {r d : Word} {a : RegAddr} {rest : List Event}
    (hsched : s.schedule = .ctl (some r) (some (busWord true a d)) :: rest)
    (hstep : step s = .next t) :
    t = after (decodeWrite a d) (sensorSample r (eventStart s rest)) := by
  obtain ⟨_, rfl⟩ := step_next_iff.1 hstep
  rw [stepAfter_of_schedule hsched, eventAfter,
    cycleAfter_sample_write (busWord_we true a d), decode_busWord_write]

/-! ### What the write finds of the sample -/

/-- A processed sample is counted once (44_sensor_ingest.md R193). -/
theorem sensorSample_sensCount_of_processed {s : State} (r : Word) (hrun : s.ctl.run = true)
    (hpause : s.ctl.pause = false) :
    (sensorSample r s).ctl.sensCount = s.ctl.sensCount + 1 := by
  rw [sensorSample_of_processed r hrun hpause, stillnessStep_eq]
  rfl

/-- STOP finds or leaves the engine stopped. -/
theorem stopEngine_run (s : State) : (stopEngine s).ctl.run = false := by
  rcases stopEngine_cases s with ⟨hstopped, hs⟩ | ⟨_, hs⟩ <;> rw [hs]
  exact hstopped

/-- STOP leaves the sample count. -/
theorem stopEngine_sensCount (s : State) : (stopEngine s).ctl.sensCount = s.ctl.sensCount := by
  rcases stopEngine_cases s with ⟨_, hs⟩ | ⟨_, hs⟩ <;> rw [hs]

end Sys2Proof.Machine
end

section
/-! The obligations of spec/60_exceptions.md: no step stops, the order within a `clk_ctl` cycle, the
render domain's one enabled step. -/

namespace Sys2Proof.Machine

/-! ### The step -/

/-- Settles O9: a legal machine's step is the total function `stepAfter`, since every operation and
every event goes on (`exec_eq_after`, `takeEvent_eq`). -/
theorem noStepOfALegalMachineStops : Obligations.NoStepOfALegalMachineStops :=
  fun s hlegal => ⟨stepAfter s, step_of_legal hlegal⟩

/-- Settles O6: the cycle's two equations, for a read and for a write. -/
theorem cycleReadsThenSamplesThenWrites : Obligations.CycleReadsThenSamplesThenWrites := by
  intro s r w rest hlegal hsched
  have hstep := step_of_schedule hlegal hsched
  refine ⟨sensorSample r (eventStart s rest), exec_sens r _, fun hread => ?_, fun hwrite => ?_⟩
  · refine ⟨readValue (decode (.ctlBus w)) (eventStart s rest), exec_ctlBus_read hread _, ?_⟩
    rw [hstep, eventAfter, cycleAfter_sample_read hread]
    rfl
  · rw [hstep, eventAfter, cycleAfter_sample_write hwrite, exec_eq_after]

/-- Settles O7: each write is applied to the state after the sample, which a running engine has
processed and a stopped one has dropped. -/
theorem sameCycleHostWriteComesLast : Obligations.SameCycleHostWriteComesLast := by
  intro s t r d rest
  refine ⟨fun hrun hpause => ?_, fun hstopped hstart hstep => ?_⟩
  · have hcounted := sensorSample_sensCount_of_processed (s := eventStart s rest) r hrun hpause
    refine ⟨fun hfreq hstep => ?_, fun hsnap hstep => ?_, fun hstop hstep => ?_,
      fun hwrite hstep => ?_⟩
    · obtain rfl := eq_after_of_sample_write hfreq hstep
      exact ⟨rfl, hcounted⟩
    · obtain rfl := eq_after_of_sample_write hsnap hstep
      exact ⟨hcounted, rfl⟩
    · obtain rfl := eq_after_of_sample_write hstop hstep
      exact ⟨stopEngine_run _, (stopEngine_sensCount _).trans hcounted⟩
    · obtain rfl := eq_after_of_sample_write hwrite hstep
      exact ⟨rfl, hcounted⟩
  · have hdropped := sensorSample_of_dropped (s := eventStart s rest) r (.inl hstopped)
    have ht : t = startEngine (eventStart s rest) := by
      rw [eq_after_of_sample_write hstart hstep, hdropped]
      rfl
    rw [ht, startEngine_of_stopped (s := eventStart s rest) hstopped]
    exact ⟨rfl, rfl, rfl, rfl⟩

/-! ### The render domain -/

/-- Settles O38: a waiting sample belongs to a block, and a block without one has more to come. -/
theorem exactlyOneRenderStepIsEnabled : Obligations.ExactlyOneRenderStepIsEnabled := by
  rintro a ⟨_, hblock, hmore⟩
  cases hfull : a.outFull
  case true =>
    have hdisabled := (renderEnabled_eq_false_iff a).2 (.inr (.inr hfull))
    exact .inr (.inr ⟨by rw [blkReady, hblock hfull, Bool.not_true], hdisabled, hfull⟩)
  case false =>
    cases hbusy : a.busy
    case false =>
      have hdisabled := (renderEnabled_eq_false_iff a).2 (.inl hbusy)
      exact .inl ⟨by rw [blkReady, hbusy, Bool.not_false], hdisabled, hfull⟩
    case true =>
      have henabled := (renderEnabled_iff a).2 ⟨hbusy, hmore hbusy hfull, hfull⟩
      exact .inr (.inl ⟨by rw [blkReady, hbusy, Bool.not_true], henabled, hfull⟩)

end Sys2Proof.Machine
end

section
/-! The obligation of spec/70_reset_and_hazards.md: the reset step. -/

namespace Sys2Proof.Machine

/-- After a reset no block is in progress: the next one is awaited (R220, R222). -/
theorem resetStep_blkReady (s : State) : blkReady (resetStep s).aud = true := by
  rw [resetStep_aud]
  rfl

/-- After a reset no word waits: what was not consumed is never emitted (R220, R222). -/
theorem resetStep_outValid (s : State) : outValid (resetStep s).aud = false := by
  rw [resetStep_aud]
  rfl

/-- Settles O53: the reset step rebuilds the machine with its configuration, whatever was in
progress, so the result agrees with the reset state on the hidden registers too. (The name
`resetStep` is the model's own.) -/
theorem step_of_reset : Obligations.ResetStep := by
  intro s rest hlegal hsched
  have hsame : SameReadable (resetStep (eventStart s rest))
      { State.resetWith s.cfg with stream := s.stream, schedule := rest } := by
    rw [sameReadable_iff, resetStep, eventStart_cfg, eventStart_stream, eventStart_schedule]
  exact ⟨resetStep (eventStart s rest), step_of_schedule hlegal hsched, resetStep_ctl _, hsame,
    resetStep_blkReady _, resetStep_outValid _, resetStep_ports _⟩

end Sys2Proof.Machine
end
